-- ==== Sys2Proof/Word.lean ====
section
/-! DEFINITION. The two word types of the unit: 32-bit command words and 8-bit bytes (rules R7, R8). -/

namespace Sys2Proof

/-- A word of the command stream, 32 bits (`XLEN`, rule R7). -/
abbrev Word := BitVec 32

/-- A byte of the framebuffer, of a payload or of the serial link (rule R8). -/
abbrev Byte := BitVec 8

end Sys2Proof
end

