-- ==== Sys2Proof/Syntax.lean ====
section
/-! DEFINITION. The decoded commands of the unit: one constructor per row of spec/opcode_table.json (rule R77). -/

namespace Sys2Proof

/-- A color is one bit: black = 0 is ink, white = 1 (rule R11). -/
inductive Color where
  | black
  | white
  deriving DecidableEq, Repr, Inhabited

/-- A decoded command (rule R80): the mnemonic, the header's `C` and `F` where the command uses them, the operands as
integers in the order of rule R81's operand words, and the payload as a list. A count operand (`n`, `nbytes`) is the
length of the payload list. -/
inductive Instr where
  /-- `fb_create width, height` (rule R100). -/
  | fbCreate (width height : Int)
  /-- `set_pixel x, y, color` (rule R101). -/
  | setPixel (x y : Int) (color : Color)
  /-- `get_pixel x, y` (rule R102). -/
  | getPixel (x y : Int)
  /-- `fb_fill color` (rule R103). -/
  | fbFill (color : Color)
  /-- `fill_rect x, y, w, h, color` (rule R110). -/
  | fillRect (x y w h : Int) (color : Color)
  /-- `draw_line x0, y0, x1, y1, color` (rule R112). -/
  | drawLine (x0 y0 x1 y1 : Int) (color : Color)
  /-- `draw_circle cx, cy, r, color, filled` (rule R116). -/
  | drawCircle (cx cy r : Int) (color : Color) (filled : Bool)
  /-- `draw_text x, y, text, color, font` (rule R133); `chars` are the `n` character codes (rule R76). -/
  | drawText (x y font : Int) (chars : List Word) (color : Color)
  /-- `draw_text_scaled x, y, text, color, font, scale` (rule R134). -/
  | drawTextScaled (x y font scale : Int) (chars : List Word) (color : Color)
  /-- `draw_module_grid x, y, grid_bits, module_px, side_n` (rule R141); `bits` are the `nbytes` packed bytes. -/
  | drawModuleGrid (x y modulePx sideN : Int) (bits : List Byte)
  /-- `send_command opcode` (rule R151); the operand is in `[0, 255]` after decoding (rule R74), so it is a byte. -/
  | sendCommand (opcode : Byte)
  /-- `send_data bytes` (rule R152). -/
  | sendData (bytes : List Byte)
  /-- `send_data_chunked bytes, chunk_size` (rule R153). -/
  | sendDataChunked (chunkSize : Int) (bytes : List Byte)
  /-- `wait_until_idle` (rule R155). -/
  | waitUntilIdle
  /-- `panel_reset` (rule R172). -/
  | panelReset
  /-- `panel_configure` (rule R173). -/
  | panelConfigure
  /-- `panel_deep_clean` (rule R175). -/
  | panelDeepClean
  /-- `panel_refresh` (rule R177). -/
  | panelRefresh
  /-- `panel_power_down` (rule R178). -/
  | panelPowerDown
  deriving DecidableEq, Repr

end Sys2Proof
end

