-- ==== Sys2Proof/WellFormed.lean ====
section
/-! DEFINITION. Which decoded commands an encoding can hold: operands in the signed 32-bit range (rule R9) and counts
that a non-negative signed word can hold (rule R74). -/

namespace Sys2Proof

/-- The value is one that a signed 32-bit operand word can hold (rule R9). -/
def inSigned32 (v : Int) : Bool :=
  decide (-2147483648 ≤ v) && decide (v ≤ 2147483647)

/-- The count is one that a count operand can hold: `>= 0` (rule R74) and at most `2^31 - 1` (rule R9). -/
def inCount (n : Nat) : Bool :=
  decide (n ≤ 2147483647)

/-- The command's operands and counts fit its format (rules R9, R72 to R76). -/
def Instr.wf : Instr → Bool
  | .fbCreate w h => inSigned32 w && inSigned32 h
  | .setPixel x y _ => inSigned32 x && inSigned32 y
  | .getPixel x y => inSigned32 x && inSigned32 y
  | .fbFill _ => true
  | .fillRect x y w h _ => inSigned32 x && inSigned32 y && inSigned32 w && inSigned32 h
  | .drawLine x0 y0 x1 y1 _ => inSigned32 x0 && inSigned32 y0 && inSigned32 x1 && inSigned32 y1
  | .drawCircle cx cy r _ _ => inSigned32 cx && inSigned32 cy && inSigned32 r
  | .drawText x y font chars _ => inSigned32 x && inSigned32 y && inSigned32 font && inCount chars.length
  | .drawTextScaled x y font scale chars _ =>
      inSigned32 x && inSigned32 y && inSigned32 font && inSigned32 scale && inCount chars.length
  | .drawModuleGrid x y modulePx sideN bits =>
      inSigned32 x && inSigned32 y && inSigned32 modulePx && inSigned32 sideN && inCount bits.length
  | .sendCommand _ => true
  | .sendData bytes => inCount bytes.length
  | .sendDataChunked chunkSize bytes => inSigned32 chunkSize && inCount bytes.length
  | .waitUntilIdle => true
  | .panelReset => true
  | .panelConfigure => true
  | .panelDeepClean => true
  | .panelRefresh => true
  | .panelPowerDown => true

end Sys2Proof
end

