-- ==== Sys2Proof/Decode.lean ====
section
/-! DEFINITION. The decoder of rule R80, total on any list of words (and, by rule R71, on any list of bytes), and after
it the encoder, both written from the tables of rules R72 to R77. -/

namespace Sys2Proof

/-- Why a list of words is no command; every reason but `endOfStream` is the one fault `IllegalCommand` (rule R78). -/
inductive DecodeError where
  /-- There is no header word. -/
  | endOfStream
  /-- The header matches no row of the opcode map (rules R77, R78). -/
  | illegalHeader
  /-- The stream does not hold all the words of the command (rule R74). -/
  | truncated
  /-- A count operand is negative (rule R74). -/
  | negativeCount
  /-- The operand of `send_command` is outside `[0, 255]` (rule R74). -/
  | opcodeOutOfRange
  /-- Bits of the last payload word above the last byte are not 0 (rule R75). -/
  | paddingNotZero
  deriving DecidableEq, Repr

/-- The rows of the opcode map (rule R77), by mnemonic. -/
inductive Op where
  | fbCreate | setPixel | getPixel | fbFill
  | fillRect | drawLine | drawCircle
  | drawText | drawTextScaled
  | drawModuleGrid
  | sendCommand | sendData | sendDataChunked | waitUntilIdle
  | panelReset | panelConfigure | panelDeepClean | panelRefresh | panelPowerDown
  deriving DecidableEq, Repr

/-- One row of the opcode map: a header `H` selects it when `H & mask = pattern` (the table's `match`, rule R77). -/
structure OpcodeRow where
  op : Op
  pattern : Word
  mask : Word
  deriving DecidableEq, Repr

/-- The complete opcode map (rule R77). -/
def opcodeTable : List OpcodeRow :=
  [ ⟨.fbCreate,        0x00000001, 0xFFFFFFFF⟩,
    ⟨.setPixel,        0x00000002, 0xFFFFFEFF⟩,
    ⟨.getPixel,        0x00000003, 0xFFFFFFFF⟩,
    ⟨.fbFill,          0x00000004, 0xFFFFFEFF⟩,
    ⟨.fillRect,        0x00000010, 0xFFFFFEFF⟩,
    ⟨.drawLine,        0x00000011, 0xFFFFFEFF⟩,
    ⟨.drawCircle,      0x00000012, 0xFFFFFCFF⟩,
    ⟨.drawText,        0x00000020, 0xFFFFFEFF⟩,
    ⟨.drawTextScaled,  0x00000021, 0xFFFFFEFF⟩,
    ⟨.drawModuleGrid,  0x00000030, 0xFFFFFFFF⟩,
    ⟨.sendCommand,     0x00000040, 0xFFFFFFFF⟩,
    ⟨.sendData,        0x00000041, 0xFFFFFFFF⟩,
    ⟨.sendDataChunked, 0x00000042, 0xFFFFFFFF⟩,
    ⟨.waitUntilIdle,   0x00000043, 0xFFFFFFFF⟩,
    ⟨.panelReset,      0x00000050, 0xFFFFFFFF⟩,
    ⟨.panelConfigure,  0x00000051, 0xFFFFFFFF⟩,
    ⟨.panelDeepClean,  0x00000052, 0xFFFFFFFF⟩,
    ⟨.panelRefresh,    0x00000053, 0xFFFFFFFF⟩,
    ⟨.panelPowerDown,  0x00000054, 0xFFFFFFFF⟩ ]

/-- The row a header word selects, if any (rules R77, R78). -/
def headerOp (header : Word) : Option Op :=
  (opcodeTable.find? fun row => header &&& row.mask == row.pattern).map OpcodeRow.op

/-- The color operand, header bit 8: 0 = black, 1 = white (rule R72). -/
def headerColor (header : Word) : Color :=
  if header.getLsbD 8 then .white else .black

/-- The `filled` operand, header bit 9 (rule R72). -/
def headerFilled (header : Word) : Bool :=
  header.getLsbD 9

/-- An operand word as a signed integer, `sext_32` (rule R72). -/
def operand (w : Word) : Int :=
  w.toInt

/-- The four bytes of a payload word, lowest-numbered byte in the least significant position (rules R71, R75). -/
def wordBytes (w : Word) : List Byte :=
  [w.extractLsb' 0 8, w.extractLsb' 8 8, w.extractLsb' 16 8, w.extractLsb' 24 8]

/-- `ceil4(k) = (k + 3) / 4`, the words that `k` packed bytes take (rule R73). -/
def ceil4 (k : Nat) : Nat :=
  (k + 3) / 4

/-- The character words after a count operand `n` (rules R74, R76). -/
def takeChars (n : Int) (ws : List Word) : Except DecodeError (List Word) :=
  if n < 0 then .error .negativeCount
  else if ws.length < n.toNat then .error .truncated
  else .ok (ws.take n.toNat)

/-- The packed bytes after a count operand `nbytes`, with the padding check (rules R74, R75). -/
def takeBytes (nbytes : Int) (ws : List Word) : Except DecodeError (List Byte) :=
  if nbytes < 0 then .error .negativeCount
  else if ws.length < ceil4 nbytes.toNat then .error .truncated
  else
    let all := (ws.take (ceil4 nbytes.toNat)).flatMap wordBytes
    if (all.drop nbytes.toNat).all (· == 0) then .ok (all.take nbytes.toNat) else .error .paddingNotZero

/-- The fixed operands and the payload of the row `op`, read from the words after the header (rules R73 to R76, R80). -/
def decodeOperands (op : Op) (color : Color) (filled : Bool) (ws : List Word) : Except DecodeError Instr :=
  match op with
  | .fbCreate =>
      match ws with
      | w :: h :: _ => .ok (.fbCreate (operand w) (operand h))
      | _ => .error .truncated
  | .setPixel =>
      match ws with
      | x :: y :: _ => .ok (.setPixel (operand x) (operand y) color)
      | _ => .error .truncated
  | .getPixel =>
      match ws with
      | x :: y :: _ => .ok (.getPixel (operand x) (operand y))
      | _ => .error .truncated
  | .fbFill => .ok (.fbFill color)
  | .fillRect =>
      match ws with
      | x :: y :: w :: h :: _ => .ok (.fillRect (operand x) (operand y) (operand w) (operand h) color)
      | _ => .error .truncated
  | .drawLine =>
      match ws with
      | x0 :: y0 :: x1 :: y1 :: _ => .ok (.drawLine (operand x0) (operand y0) (operand x1) (operand y1) color)
      | _ => .error .truncated
  | .drawCircle =>
      match ws with
      | cx :: cy :: r :: _ => .ok (.drawCircle (operand cx) (operand cy) (operand r) color filled)
      | _ => .error .truncated
  | .drawText =>
      match ws with
      | x :: y :: font :: n :: rest =>
          (takeChars (operand n) rest).map fun chars => .drawText (operand x) (operand y) (operand font) chars color
      | _ => .error .truncated
  | .drawTextScaled =>
      match ws with
      | x :: y :: font :: scale :: n :: rest =>
          (takeChars (operand n) rest).map fun chars =>
            .drawTextScaled (operand x) (operand y) (operand font) (operand scale) chars color
      | _ => .error .truncated
  | .drawModuleGrid =>
      match ws with
      | x :: y :: modulePx :: sideN :: nbytes :: rest =>
          (takeBytes (operand nbytes) rest).map fun bits =>
            .drawModuleGrid (operand x) (operand y) (operand modulePx) (operand sideN) bits
      | _ => .error .truncated
  | .sendCommand =>
      match ws with
      | opcode :: _ =>
          if 0 ≤ operand opcode ∧ operand opcode ≤ 255 then .ok (.sendCommand (opcode.extractLsb' 0 8))
          else .error .opcodeOutOfRange
      | _ => .error .truncated
  | .sendData =>
      match ws with
      | nbytes :: rest => (takeBytes (operand nbytes) rest).map fun bytes => .sendData bytes
      | _ => .error .truncated
  | .sendDataChunked =>
      match ws with
      | chunkSize :: nbytes :: rest =>
          (takeBytes (operand nbytes) rest).map fun bytes => .sendDataChunked (operand chunkSize) bytes
      | _ => .error .truncated
  | .waitUntilIdle => .ok .waitUntilIdle
  | .panelReset => .ok .panelReset
  | .panelConfigure => .ok .panelConfigure
  | .panelDeepClean => .ok .panelDeepClean
  | .panelRefresh => .ok .panelRefresh
  | .panelPowerDown => .ok .panelPowerDown

/-- The command at the head of a list of words (rule R80). Decode has no side effect. -/
def decode : List Word → Except DecodeError Instr
  | [] => .error .endOfStream
  | header :: ws =>
      match headerOp header with
      | none => .error .illegalHeader
      | some op => decodeOperands op (headerColor header) (headerFilled header) ws

/-- The words of a stream stored as bytes, 4 bytes a word, least significant byte first (rule R71); a last group of
fewer than 4 bytes is no word. -/
def wordsOfBytes : List Byte → List Word
  | b0 :: b1 :: b2 :: b3 :: rest => (b3 ++ b2 ++ b1 ++ b0) :: wordsOfBytes rest
  | _ => []

/-- The command at the head of a stream stored as bytes (rules R71, R80). -/
def decodeBytes (bytes : List Byte) : Except DecodeError Instr :=
  decode (wordsOfBytes bytes)

/-- The length `L` of a command in words (rule R73). -/
def Instr.lengthWords : Instr → Nat
  | .fbCreate _ _ => 3
  | .setPixel _ _ _ => 3
  | .getPixel _ _ => 3
  | .fbFill _ => 1
  | .fillRect _ _ _ _ _ => 5
  | .drawLine _ _ _ _ _ => 5
  | .drawCircle _ _ _ _ _ => 4
  | .drawText _ _ _ chars _ => 5 + chars.length
  | .drawTextScaled _ _ _ _ chars _ => 6 + chars.length
  | .drawModuleGrid _ _ _ _ bits => 6 + ceil4 bits.length
  | .sendCommand _ => 2
  | .sendData bytes => 2 + ceil4 bytes.length
  | .sendDataChunked _ bytes => 3 + ceil4 bytes.length
  | .waitUntilIdle => 1
  | .panelReset => 1
  | .panelConfigure => 1
  | .panelDeepClean => 1
  | .panelRefresh => 1
  | .panelPowerDown => 1

/-! ## The encoder -/

/-- The header's `C` bit, bit 8 (rule R72). -/
def colorBit : Color → Word
  | .black => 0x00000000
  | .white => 0x00000100

/-- The header's `F` bit, bit 9 (rule R72). -/
def filledBit : Bool → Word
  | false => 0x00000000
  | true => 0x00000200

/-- An operand as a two's-complement word (rule R72). -/
def operandWord (v : Int) : Word :=
  BitVec.ofInt 32 v

/-- Bytes packed four a word, low byte first, the last word padded with zeros (rule R75). -/
def packBytes : List Byte → List Word
  | [] => []
  | [b0] => [0#8 ++ 0#8 ++ 0#8 ++ b0]
  | [b0, b1] => [0#8 ++ 0#8 ++ b1 ++ b0]
  | [b0, b1, b2] => [0#8 ++ b2 ++ b1 ++ b0]
  | b0 :: b1 :: b2 :: b3 :: rest => (b3 ++ b2 ++ b1 ++ b0) :: packBytes rest

/-- A count operand word (rule R73). -/
def countWord (n : Nat) : Word :=
  BitVec.ofNat 32 n

/-- The words of a command: header, operands, payload (rules R72 to R77, R81). -/
def encode : Instr → List Word
  | .fbCreate w h => [0x01, operandWord w, operandWord h]
  | .setPixel x y c => [0x02 ||| colorBit c, operandWord x, operandWord y]
  | .getPixel x y => [0x03, operandWord x, operandWord y]
  | .fbFill c => [0x04 ||| colorBit c]
  | .fillRect x y w h c => [0x10 ||| colorBit c, operandWord x, operandWord y, operandWord w, operandWord h]
  | .drawLine x0 y0 x1 y1 c => [0x11 ||| colorBit c, operandWord x0, operandWord y0, operandWord x1, operandWord y1]
  | .drawCircle cx cy r c f => [0x12 ||| colorBit c ||| filledBit f, operandWord cx, operandWord cy, operandWord r]
  | .drawText x y font chars c =>
      [0x20 ||| colorBit c, operandWord x, operandWord y, operandWord font, countWord chars.length] ++ chars
  | .drawTextScaled x y font scale chars c =>
      [0x21 ||| colorBit c, operandWord x, operandWord y, operandWord font, operandWord scale, countWord chars.length]
        ++ chars
  | .drawModuleGrid x y modulePx sideN bits =>
      [0x30, operandWord x, operandWord y, operandWord modulePx, operandWord sideN, countWord bits.length]
        ++ packBytes bits
  | .sendCommand opcode => [0x40, opcode.setWidth 32]
  | .sendData bytes => [0x41, countWord bytes.length] ++ packBytes bytes
  | .sendDataChunked chunkSize bytes => [0x42, operandWord chunkSize, countWord bytes.length] ++ packBytes bytes
  | .waitUntilIdle => [0x43]
  | .panelReset => [0x50]
  | .panelConfigure => [0x51]
  | .panelDeepClean => [0x52]
  | .panelRefresh => [0x53]
  | .panelPowerDown => [0x54]

/-! ## The words of a row of spec/opcode_table.json -/

/-- The words of the bits `w`, `nbits` of them, numbered as the opcode table numbers them: bit 0 is bit 0 of the header.
Every bit above `nbits` is 0, up to six words, the longest format with an empty payload (rule R73). -/
def tableWords (nbits w : Nat) : List Word :=
  (List.range (max 6 ((nbits + 31) / 32))).map fun j => BitVec.ofNat 32 ((w % 2 ^ nbits) >>> (32 * j))

/-- The instruction the decoder reads from the bits `w` of an opcode-table row. -/
def decodeTableWord (nbits w : Nat) : Option Instr :=
  (decode (tableWords nbits w)).toOption

/-- The words `ws` laid over a stream from index `at_` on, with zero words where the stream is shorter than that. -/
def placeWords (stream : List Word) (at_ : Nat) (ws : List Word) : List Word :=
  stream.take at_ ++ List.replicate (at_ - stream.length) 0 ++ ws ++ stream.drop (at_ + ws.length)

end Sys2Proof
end

