-- ==== Sys2Proof/Config.lean ====
section
/-! DEFINITION. What is fixed for the unit (rule R7), and the free values: constants with no body, which no proof can
see into. -/

namespace Sys2Proof

/-- The level of a digital line (rules R28, R29): the busy line reads `low` for busy and `high` for ready. -/
inductive PinLevel where
  | low
  | high
  deriving DecidableEq, Repr, Inhabited

/-- The panel controller's opcode bytes and configuration payloads, `PANEL_OPS` (rule R170). -/
structure PanelOps where
  opPanelSetting : Byte
  payPanelSetting : List Byte
  opPowerSetting : Byte
  payPowerSetting : List Byte
  opBoosterSoftStart : Byte
  payBoosterSoftStart : List Byte
  opPll : Byte
  payPll : List Byte
  opPanelOn : Byte
  payPanelOn : List Byte
  opResolution : Byte
  payResolution : List Byte
  opVcomDataInterval : Byte
  payVcomDataInterval : List Byte
  opTcon : Byte
  payTcon : List Byte
  opDataTransfer1 : Byte
  opDataTransfer2 : Byte
  opDisplayRefresh : Byte
  opPowerOff : Byte
  deriving DecidableEq, Repr, Inhabited

/-- One glyph record of the provider's answer (rules R130, R131): pixel width and provider rows, bottom row first.
Integers, because a malformed answer may hold negative ones (rule R136). -/
structure GlyphRecord where
  width : Int
  rows : List Int
  deriving DecidableEq, Repr, Inhabited

/-- The provider's answer to one request (rule R130): the common height and one record per character. -/
structure GlyphAnswer where
  height : Int
  glyphs : List GlyphRecord
  deriving DecidableEq, Repr, Inhabited

/-- The OPEN implementation parameters of rule R7 that are plain values. -/
structure Platform where
  /-- `POLL_MS`, the poll interval in milliseconds (rule R155). -/
  pollMs : Nat
  /-- `BUSY_TIMEOUT_POLLS` (rule R157). -/
  busyTimeoutPolls : Option Nat
  /-- `PANEL_OPS` (rule R170). -/
  panelOps : PanelOps
  /-- `CS_ASSERT_LEVEL`, the electrical level of an asserted chip-select (rules R7, R28). -/
  csAssertLevel : PinLevel
  /-- `DC_COMMAND_LEVEL`, the electrical level of the mode line for a command (rules R7, R28). -/
  dcCommandLevel : PinLevel
  deriving DecidableEq, Repr

namespace Config

/-- `PANEL_WIDTH` (rule R7). -/
def panelWidth : Nat := 128

/-- `PANEL_HEIGHT` (rule R7). -/
def panelHeight : Nat := 296

/-- `PANEL_BYTES` (rule R7). -/
def panelBytes : Nat := 4736

/-- `FB_CAPACITY` (rule R7). -/
def fbCapacity : Nat := 4736

/-- `DEFAULT_CHUNK`, the assembler's default `chunk_size` (rules R7, R82). -/
def defaultChunk : Nat := 1024

/-- `PANEL_CHUNK` (rules R7, R171). -/
def panelChunk : Nat := 1024

/-- `RESET_HOLD_MS` (rules R7, R172). -/
def resetHoldMs : Nat := 200

/-- `SETTLE_MS` (rules R7, R177). -/
def settleMs : Nat := 1000

/-- One less than `POLL_MS`, which is OPEN and positive (rule R7; log 5). -/
opaque pollMsLessOne : Nat

/-- `PANEL_OPS`, OPEN (rules R7, R170; log 5). -/
opaque panelOps : PanelOps

/-- `CS_ASSERT_LEVEL`, OPEN (rule R7; log 6). -/
opaque csAssertLevel : PinLevel

/-- `DC_COMMAND_LEVEL`, OPEN (rule R7; log 6). -/
opaque dcCommandLevel : PinLevel

/-- The platform of this hardware: every OPEN parameter unconstrained, `BUSY_TIMEOUT_POLLS = none` (rule R7; log 5). -/
def platform : Platform :=
  { pollMs := pollMsLessOne + 1
    busyTimeoutPolls := none
    panelOps := panelOps
    csAssertLevel := csAssertLevel
    dcCommandLevel := dcCommandLevel }

/-- FREE VALUE: the level that the n-th read of the busy line returns when the state names none (rules R29, R155;
log 2). -/
opaque busyLevel : Nat → PinLevel

/-- FREE VALUE: the glyph provider's answer to a request the state's table does not list (rules R7, R130; log 4). -/
opaque glyphs : Int → List Word → GlyphAnswer

/-- FREE VALUE: what a byte of framebuffer memory that nothing has written holds (rules R22, R36; log 7). -/
opaque unwrittenByte : Nat → Byte

/-- FREE VALUE: `RES.BIT` as the status word shows it while `RES.VALID = 0` (rule R25; log 8). -/
opaque resBitUnspecified : Nat → Color

end Config

end Sys2Proof
end

