-- ==== Sys2Proof/Machine/State.lean ====
section
/-! DEFINITION. The state of the unit (rule R20), its value after reset (rule R36), and the reasons for which a step
can stop. -/

namespace Sys2Proof.Machine

/-- Framebuffer memory as (address, byte) cells, addresses strictly rising; an address that is not listed holds no value
(rules R22, R36; log 7). -/
abbrev Memory := List Host.Cell

/-- The level of chip-select (rule R28). -/
inductive CsLevel where
  | asserted
  | deasserted
  deriving DecidableEq, Repr

/-- The level of the mode line (rule R28). -/
inductive DcLevel where
  | command
  | data
  deriving DecidableEq, Repr

/-- The panel session state `PSTATE` (rule R27). -/
inductive PanelState where
  | unpowered
  | resetting
  | configuring
  | ready
  | deepCleaning
  | rendering
  | refreshing
  | poweredDown
  deriving DecidableEq, Repr

/-- The cause codes of `FAULT` (rule R191). -/
inductive FaultCode where
  /-- Code 0, `None`: no fault since reset. -/
  | noFault
  | illegalCommand
  | noFramebuffer
  | badGeometry
  | glyphMalformed
  | gridUndersized
  | badChunkSize
  | badState
  | panelUnresponsive
  deriving DecidableEq, Repr

/-- The events of the interface trace (rule R150). -/
inductive Event where
  | pinCs (level : CsLevel)
  | pinDc (level : DcLevel)
  | pinRst (level : PinLevel)
  | bus (bytes : List Byte)
  | busyRead (level : PinLevel)
  | sleep (ms : Nat)
  deriving DecidableEq, Repr

/-- One answer of the glyph provider: what it returns for the request `(font, chars)` (rule R130). -/
structure GlyphEntry where
  font : Int
  chars : List Word
  answer : GlyphAnswer
  deriving DecidableEq, Repr

/-- The inputs and parameters of the step relation that rule R21 keeps out of the unit's own state. They are the MODEL's
fields (logs 1, 2, 4, 5, 6); the unit writes none of them but for consuming the busy input. -/
structure Environment where
  /-- The command stream (rule R70). -/
  stream : List Word
  /-- The levels that the next reads of the busy line return, in order; after them every read is
  `Config.busyLevel` (rule R29). -/
  busyIn : List PinLevel
  /-- How many reads of the busy line there have been: the argument of the free value `Config.busyLevel`. -/
  busyReads : Nat
  /-- Answers of the glyph provider; a request not listed is answered by `Config.glyphs` (rule R130). -/
  glyphTable : List GlyphEntry
  /-- The OPEN implementation parameters (rule R7). -/
  platform : Platform
  deriving DecidableEq, Repr

/-- The state: every piece that rule R20 lists, then the model's own `wait` and `env`. -/
structure State where
  /-- `FB`, framebuffer memory (rule R22). -/
  fb : Memory
  /-- `WIDTH` (rule R22). -/
  width : Nat
  /-- `HEIGHT` (rule R22). -/
  height : Nat
  /-- `FB_VALID` (rule R22). -/
  fbValid : Bool
  /-- `RES`: `none` is `RES.VALID = 0`, `some c` is `RES.VALID = 1` with `RES.BIT = c` (rule R25). -/
  res : Option Color
  /-- `PSTATE` (rule R27). -/
  pstate : PanelState
  /-- `FAULT` (rule R26). -/
  fault : FaultCode
  /-- `CP`, the index of the next command's header word (rule R24). -/
  cp : Nat
  /-- `CS` (rule R28). -/
  cs : CsLevel
  /-- `DC` (rule R28). -/
  dc : DcLevel
  /-- `RST` (rule R28). -/
  rst : PinLevel
  /-- `TRACE`, oldest event first (rule R31). -/
  trace : List Event
  /-- The MODEL's own: `some n` while the command at `CP` is inside a wait whose last `n` reads of the busy line were
  `Low`; `none` between commands (rule R155; log 3). -/
  wait : Option Nat
  /-- The MODEL's own: inputs and parameters of the step relation (rule R21). -/
  env : Environment
  deriving DecidableEq, Repr

/-- The state right after reset (rules R36, R211). The levels of the three lines are the model's choice (log 9); the
environment is empty or free (logs 1, 2, 4, 5, 6). -/
def State.reset : State :=
  { fb := []
    width := 0
    height := 0
    fbValid := false
    res := none
    pstate := .unpowered
    fault := .noFault
    cp := 0
    cs := .deasserted
    dc := .command
    rst := .low
    trace := []
    wait := none
    env :=
      { stream := []
        busyIn := []
        busyReads := 0
        glyphTable := []
        platform := Config.platform } }

/-- Why a step has no next state. The nine fault codes of rule R191 are NOT here: raising one is a next state with
`FAULT` set (rule R192). -/
inductive Fault where
  /-- Raised by `step` when `FAULT != 0`: a halted unit has no step (rule R192). Safe: the unit executes nothing more. -/
  | halted
  /-- Raised by `step` when `CP = len(stream)` and `FAULT = 0`: the run has ended successfully (rule R227). Safe: there is
  no further command. -/
  | runEnded
  deriving DecidableEq, Repr

/-- Why an instruction has no meaning in the model. -/
inductive Refusal where
  /-- Raised by `exec` alone, for an instruction without a meaning in this model. Safe: nothing is claimed of it. -/
  | notModelled (mnemonic : String)
  deriving DecidableEq, Repr

end Sys2Proof.Machine
end

