-- ==== Sys2Proof/Machine/Ops.lean ====
section
/-! DEFINITION. The named operations over framebuffer memory, the interface, the busy input, and the one way a command
faults (rule R192) and the one way it completes (rule R24). -/

namespace Sys2Proof.Machine

/-! ## Framebuffer memory (rules R50, R54) -/

/-- The canonical form: addresses strictly rising. No entry can equal what an unlisted address reads as, which is no
value at all (rule R36; log 7). -/
abbrev Memory.wf (m : Memory) : Prop :=
  m.Pairwise fun a b => a.1 < b.1

/-- The byte at an address, `none` where nothing was ever written. -/
def Memory.read : Memory → Nat → Option Byte
  | [], _ => none
  | (b, v) :: m, a => if b < a then Memory.read m a else if b = a then some v else none

/-- `FB[a] <- v` (rule R10). -/
def Memory.write : Memory → Nat → Byte → Memory
  | [], a, v => [(a, v)]
  | (b, u) :: m, a, v =>
      if b < a then (b, u) :: Memory.write m a v
      else if b = a then (a, v) :: m
      else (a, v) :: (b, u) :: m

/-- `for i in 0 .. n-1: FB[i] <- v` (rules R100, R103); bytes from `n` on are left as they were. -/
def Memory.fill (m : Memory) (n : Nat) (v : Byte) : Memory :=
  (List.range n).map (fun a => (a, v)) ++ m.filter fun cell => n ≤ cell.1

/-- `FB[a]` as a value: a byte that nothing has written has any value (rule R22; log 7). -/
def Memory.byte (m : Memory) (a : Nat) : Byte :=
  (m.read a).getD (Config.unwrittenByte a)

/-- `[FB[a], FB[a+1], ..., FB[a+n-1]]` (rule R177), dropping the cells already passed. -/
def Memory.bytesFrom : Memory → Nat → Nat → List Byte
  | _, _, 0 => []
  | m, a, n + 1 => m.byte a :: Memory.bytesFrom (m.dropWhile fun cell => cell.1 ≤ a) (a + 1) n

/-! ## Ending a command -/

/-- `raise F`: `FAULT` takes the code and the command stops with `CP` at its header word; nothing else changes
(rule R192). Stopping ends a wait the command was in (log 3). -/
def State.raise (s : State) (code : FaultCode) : State :=
  { s with fault := code, wait := none }

/-- A command of `len` words completes: `CP <- CP + L` (rule R24). -/
def State.complete (s : State) (len : Nat) : State :=
  { s with cp := s.cp + len, wait := none }

/-! ## The interface (rule R150) -/

/-- `emit E`: append to `TRACE` and, for a pin write, set the line (rule R150). -/
def State.emit (s : State) (e : Event) : State :=
  match e with
  | .pinCs level => { s with cs := level, trace := s.trace ++ [.pinCs level] }
  | .pinDc level => { s with dc := level, trace := s.trace ++ [.pinDc level] }
  | .pinRst level => { s with rst := level, trace := s.trace ++ [.pinRst level] }
  | .bus bytes => { s with trace := s.trace ++ [.bus bytes] }
  | .busyRead level => { s with trace := s.trace ++ [.busyRead level] }
  | .sleep ms => { s with trace := s.trace ++ [.sleep ms] }

/-- A list of events, in order. -/
def State.emitAll (s : State) (es : List Event) : State :=
  es.foldl State.emit s

/-- The electrical level of the chip-select pin (rule R28; log 6). No rule depends on it. -/
def State.csPin (s : State) : PinLevel :=
  match s.cs, s.env.platform.csAssertLevel with
  | .asserted, level => level
  | .deasserted, .low => .high
  | .deasserted, .high => .low

/-- The electrical level of the mode line's pin (rule R28; log 6). No rule depends on it. -/
def State.dcPin (s : State) : PinLevel :=
  match s.dc, s.env.platform.dcCommandLevel with
  | .command, level => level
  | .data, .low => .high
  | .data, .high => .low

/-! ## The inputs of a step (rule R21) -/

/-- The level the next read of the busy line returns: the state's next input, else the free value (rule R29; log 2). -/
def State.busyLevel (s : State) : PinLevel :=
  match s.env.busyIn with
  | level :: _ => level
  | [] => Config.busyLevel s.env.busyReads

/-- The input is used up by the read. -/
def State.drawBusy (s : State) : State :=
  { s with env := { s.env with busyIn := s.env.busyIn.tail, busyReads := s.env.busyReads + 1 } }

/-- `GLYPHS(font, chars)`: the provider's answer (rule R130; log 4). -/
def State.glyphAnswer (s : State) (font : Int) (chars : List Word) : GlyphAnswer :=
  match s.env.glyphTable.find? fun entry => entry.font == font && entry.chars == chars with
  | some entry => entry.answer
  | none => Config.glyphs font chars

/-! ## The busy wait (rules R155 to R157) -/

/-- The `polls`-th consecutive `Low` read reaches the optional bound (rule R157). -/
def timedOut (p : Platform) (polls : Nat) : Bool :=
  match p.busyTimeoutPolls with
  | none => false
  | some n => n ≤ polls

/-- One turn of the wait: sleep, read the busy line, and on `High` go on with `onReady`. On `Low` the command stays where
it is, unless the bound is reached (rule R155; log 3). -/
def State.pollBusy (s : State) (onReady : State → State) : State :=
  let polled := ((s.emit (.sleep s.env.platform.pollMs)).drawBusy).emit (.busyRead s.busyLevel)
  match s.busyLevel with
  | .high => onReady polled
  | .low =>
      if timedOut s.env.platform (s.wait.getD 0 + 1) then polled.raise .panelUnresponsive
      else { polled with wait := some (s.wait.getD 0 + 1) }

/-- A command with a wait in it. At its beginning: raise the fault that `check` names, if any, before any event
(rules R179, R194); else `before`, then `wait_until_idle()`, then `after`. Found inside its wait, it polls again
(log 3). -/
def State.waitBetween (s : State) (check : FaultCode) (before after : State → State) : State :=
  match s.wait with
  | some _ => s.pollBusy after
  | none => if check = .noFault then (before s).pollBusy after else s.raise check

/-! ## Fetch (rules R62, R80, R192, R227) -/

/-- What the unit finds at `CP`. -/
inductive Fetched where
  | halted
  | ended
  | illegal (reason : DecodeError)
  | command (i : Instr)
  deriving DecidableEq, Repr

/-- A halted unit fetches nothing (rule R192); at the end of the stream the run has ended (rule R227); else the command
at `CP` is decoded whole (rules R62, R80). -/
def State.fetch (s : State) : Fetched :=
  if s.fault ≠ .noFault then .halted
  else if s.cp = s.env.stream.length then .ended
  else
    match decode (s.env.stream.drop s.cp) with
    | .ok i => .command i
    | .error reason => .illegal reason

/-! ## The host (rules R210, R226) -/

/-- The host resets the unit: every piece of the unit's state takes its reset value; the inputs stay the host's
(rules R36, R210). A reset emits no event of its own: `TRACE` starts again empty. -/
def State.hostReset (s : State) : State :=
  { State.reset with env := s.env }

/-- The unit after reset with a command stream loaded by the host (rules R70, R210; log 1). -/
def State.loaded (stream : List Word) (env : Environment) : State :=
  { State.reset with env := { env with stream := stream } }

end Sys2Proof.Machine
end

