-- ==== Sys2Proof/Machine/Operands.lean ====
section
/-! DEFINITION. How the operands and payloads of the commands are read: the pixel map (rule R51), the bounds test
(rule R53), colors, clipped ranges, glyph rows (rule R132), grid bits (rule R140) and chunks (rule R153). -/

namespace Sys2Proof.Machine

/-! ## Pixels -/

/-- `FB_BYTES = WIDTH*HEIGHT/8` (rule R50). -/
def State.fbBytes (s : State) : Nat :=
  s.width * s.height / 8

/-- The pixel is in range (rule R53): tested on the integers, before any address is formed. -/
abbrev inRange (w h : Nat) (x y : Int) : Prop :=
  0 ≤ x ∧ x < w ∧ 0 ≤ y ∧ y < h

/-- `byte_index(x, y) = (y*WIDTH + x) / 8` for an in-range pixel (rule R51). -/
def byteIndex (w : Nat) (x y : Int) : Nat :=
  ((y * w + x) / 8).toNat

/-- `bit_index(x) = 7 - (x mod 8)` for an in-range pixel (rule R51). -/
def bitIndex (x : Int) : Nat :=
  7 - (x % 8).toNat

/-- The color of a bit: 0 = black, 1 = white (rule R11). -/
def colorOfBit (bit : Bool) : Color :=
  if bit then .white else .black

/-- The bit of a color: black = 0, white = 1 (rule R11). -/
def bitOfColor : Color → Bool
  | .black => false
  | .white => true

/-- The complementary color `1 - c` (rule R11). -/
def complement : Color → Color
  | .black => .white
  | .white => .black

/-- The byte with bit `k` set for white and cleared for black (rule R101). -/
def paintBit (v : Byte) (k : Nat) (c : Color) : Byte :=
  match c with
  | .white => v ||| (1#8 <<< k)
  | .black => v &&& ~~~(1#8 <<< k)

/-- The byte all of whose pixels have one color: `0x00` black, `0xFF` white (rule R103). -/
def solidByte : Color → Byte
  | .black => 0x00
  | .white => 0xFF

/-- The integers of `[a, a+n)` that lie in `[0, limit)`, in increasing order (rules R8, R110). -/
def clipped (a n : Int) (limit : Nat) : List Nat :=
  List.range' (max a 0).toNat ((min (a + n) limit).toNat - (max a 0).toNat)

/-! ## Glyphs -/

/-- A record is well formed for height `gh` (rule R131). -/
def glyphRecordWf (gh : Int) (g : GlyphRecord) : Bool :=
  decide (0 ≤ g.width) && decide (gh ≤ g.rows.length) && g.rows.all fun row => decide (0 ≤ row)

/-- The provider's answer is well formed for a text of `n` characters (rule R131; log 13). -/
def glyphAnswerWf (n : Nat) (a : GlyphAnswer) : Bool :=
  decide (0 ≤ a.height) && decide (a.glyphs.length = n) && a.glyphs.all (glyphRecordWf a.height)

/-- `glyph_bit(gh, gw, rows, r, c)`: logical row `r` is provider row `gh-1-r`, logical column `c` is bit `gw-1-c`
(rule R132). -/
def glyphBit (gh gw : Nat) (rows : List Int) (r c : Nat) : Bool :=
  (rows.getD (gh - 1 - r) 0).toNat.testBit (gw - 1 - c)

/-! ## Module grid -/

/-- `grid_bit` of the cell with index `idx = my*side_n + mx`, row-major, MSB-first (rule R140). The cells a command reads
are inside the payload (rule R142). -/
def gridBit (bits : List Byte) (idx : Nat) : Bool :=
  (bits.getD (idx / 8) 0).getLsbD (7 - idx % 8)

/-- `side_n > 0` and `8*nbytes < side_n*side_n` (rule R142), on exact integers (rule R144). -/
def gridUndersized (sideN : Int) (bits : List Byte) : Bool :=
  decide (0 < sideN) && decide (8 * (bits.length : Int) < sideN * sideN)

/-! ## Chunks -/

/-- `while off < nbytes`: consecutive slices of at most `k` bytes, every one but the last of exactly `k`
(rule R153). The first argument bounds the turns. -/
def chunksUpTo : Nat → Nat → List Byte → List (List Byte)
  | 0, _, _ => []
  | _ + 1, _, [] => []
  | turns + 1, k, b :: bs => (b :: bs).take k :: chunksUpTo turns k ((b :: bs).drop k)

/-- The chunks of a payload: a positive `k` takes at most one turn a byte (rule R153). -/
def chunksOf (k : Nat) (bytes : List Byte) : List (List Byte) :=
  chunksUpTo bytes.length k bytes

end Sys2Proof.Machine
end

