-- ==== Sys2Proof/Machine/Flags.lean ====
section
/-! DEFINITION. The numbers of the named states and fault codes, and the status registers as the host reads them
(rules R27, R32, R191). The unit has no condition codes (rule R25). -/

namespace Sys2Proof.Machine

/-- The number of a panel state (rule R27). -/
def PanelState.number : PanelState → Nat
  | .unpowered => 0
  | .resetting => 1
  | .configuring => 2
  | .ready => 3
  | .deepCleaning => 4
  | .rendering => 5
  | .refreshing => 6
  | .poweredDown => 7

/-- The code of a fault (rule R191). -/
def FaultCode.number : FaultCode → Nat
  | .noFault => 0
  | .illegalCommand => 1
  | .noFramebuffer => 2
  | .badGeometry => 3
  | .glyphMalformed => 4
  | .gridUndersized => 5
  | .badChunkSize => 6
  | .badState => 7
  | .panelUnresponsive => 8

/-- The `RES` word: bit 0 `RES.BIT`, bit 1 `RES.VALID`; with `RES.VALID = 0` bit 0 is a free value (rules R25, R32;
log 8). -/
def resWord (res : Option Color) (unspecified : Color) : Word :=
  match res with
  | some c => 2 ||| (if bitOfColor c then 1 else 0)
  | none => if bitOfColor unspecified then 1 else 0

/-- The status register of a number (rule R32); `none` where the register map has no such number. -/
def State.statusWord (s : State) (number : Nat) : Option Word :=
  match number with
  | 0 => some (BitVec.ofNat 32 s.width)
  | 1 => some (BitVec.ofNat 32 s.height)
  | 2 => some (if s.fbValid then 1 else 0)
  | 3 => some (BitVec.ofNat 32 s.pstate.number)
  | 4 => some (BitVec.ofNat 32 s.fault.number)
  | 5 => some (resWord s.res (Config.resBitUnspecified s.cp))
  | 6 => some (BitVec.ofNat 32 s.cp)
  | _ => none

/-- A host read of a status register: between commands only, no side effect (rules R32, R60). -/
def State.hostStatus (s : State) (number : Nat) : Option Word :=
  match s.wait with
  | none => s.statusWord number
  | some _ => none

/-- A host read of `FB[i]`: between commands only, `0 <= i < FB_BYTES`, no side effect (rule R60). -/
def State.hostFbByte (s : State) (i : Nat) : Option Byte :=
  match s.wait with
  | none => if i < s.fbBytes then some (s.fb.byte i) else none
  | some _ => none

end Sys2Proof.Machine
end

