-- ==== Sys2Proof/Machine/Framebuffer.lean ====
section
/-! DEFINITION. The framebuffer commands (rules R100 to R103) and the operations every rendering command shares: the
framebuffer test (rule R105) and the rendering gate (rule R176). -/

namespace Sys2Proof.Machine

/-- `PSTATE` after a rendering command completes (rule R176). -/
def PanelState.afterRendering : PanelState → PanelState
  | .ready => .rendering
  | .deepCleaning => .rendering
  | p => p

/-- A rendering command of `len` words whose effect on framebuffer memory is `paint`: `NoFramebuffer` when `FB_VALID = 0`
(rule R105), else paint, move `PSTATE` (rule R176) and complete (rule R24). -/
def State.render (s : State) (len : Nat) (paint : Memory → Memory) : State :=
  if s.fbValid then
    { s with fb := paint s.fb, pstate := s.pstate.afterRendering }.complete len
  else s.raise .noFramebuffer

/-- `set_pixel(x, y, c)` as a subroutine, on a framebuffer of `w` by `h` pixels (rule R101). -/
def setPixel (w h : Nat) (m : Memory) (x y : Int) (c : Color) : Memory :=
  if inRange w h x y then
    m.write (byteIndex w x y) (paintBit (m.byte (byteIndex w x y)) (bitIndex x) c)
  else m

/-- The pixel's color, `none` out of range (rule R102). -/
def getPixel (w h : Nat) (m : Memory) (x y : Int) : Option Color :=
  if inRange w h x y then some (colorOfBit ((m.byte (byteIndex w x y)).getLsbD (bitIndex x))) else none

/-- The geometry test of `fb_create` (rule R100). -/
def badGeometry (width height : Int) : Bool :=
  decide (width ≤ 0) || decide (height ≤ 0) || decide (width % 8 ≠ 0) ||
    decide (Config.fbCapacity < width * height / 8)

/-- `fb_create width, height` (rule R100). -/
def execFbCreate (width height : Int) (s : State) : Host.Outcome State Fault Refusal :=
  .next <|
    if badGeometry width height then s.raise .badGeometry
    else
      { s with
        width := width.toNat
        height := height.toNat
        fbValid := true
        fb := s.fb.fill (width.toNat * height.toNat / 8) 0xFF }.complete 3

/-- `set_pixel x, y, color` (rule R101). -/
def execSetPixel (x y : Int) (c : Color) (s : State) : Host.Outcome State Fault Refusal :=
  .next (s.render 3 fun m => setPixel s.width s.height m x y c)

/-- `get_pixel x, y` (rule R102). It is no rendering command. -/
def execGetPixel (x y : Int) (s : State) : Host.Outcome State Fault Refusal :=
  .next <|
    if s.fbValid then { s with res := getPixel s.width s.height s.fb x y }.complete 3
    else s.raise .noFramebuffer

/-- `fb_fill color` (rule R103). -/
def execFbFill (c : Color) (s : State) : Host.Outcome State Fault Refusal :=
  .next (s.render 1 fun m => m.fill s.fbBytes (solidByte c))

end Sys2Proof.Machine
end

