-- ==== Sys2Proof/Machine/Raster.lean ====
section
/-! DEFINITION. The raster primitives (rules R110 to R118). They write the framebuffer only through `setPixel`. -/

namespace Sys2Proof.Machine

/-- `fill_rect(x, y, rw, rh, c)` as a subroutine: rows outer, columns inner, over the pixels of the half-open rectangle
that are in range; the others are no-ops of `setPixel` (rule R110; log 12). -/
def fillRect (w h : Nat) (m : Memory) (x y rw rh : Int) (c : Color) : Memory :=
  (clipped y rh h).foldl (fun m (py : Nat) => (clipped x rw w).foldl (fun m (px : Nat) => setPixel w h m px py c) m) m

/-- The loop of rule R113 with one axis driving: `plot` takes the driving coordinate, then the cross coordinate. `aDrive`
and `aCross` are the absolute deltas, `sDrive` and `sCross` the steps; `turns` counts the driving steps still to go, so
that the driving coordinate has reached its end point exactly when it is 0. -/
def lineLoop {α : Type} (plot : α → Int → Int → α) (aDrive aCross sDrive sCross : Int) :
    Nat → α → Int → Int → Int → α
  | 0, acc, drive, cross, _ => plot acc drive cross
  | turns + 1, acc, drive, cross, err =>
      if err - aCross < 0 then
        lineLoop plot aDrive aCross sDrive sCross turns (plot acc drive cross) (drive + sDrive) (cross + sCross)
          (err - aCross + aDrive)
      else
        lineLoop plot aDrive aCross sDrive sCross turns (plot acc drive cross) (drive + sDrive) cross (err - aCross)

/-- `bresenham(x0, y0, x1, y1)`: x drives when `|dx| >= |dy|` (rule R113). -/
def bresenham {α : Type} (plot : α → Int → Int → α) (acc : α) (x0 y0 x1 y1 : Int) : α :=
  let adx : Int := (x1 - x0).natAbs
  let ady : Int := (y1 - y0).natAbs
  let sx := (x1 - x0).sign
  let sy := (y1 - y0).sign
  if ady ≤ adx then
    lineLoop (fun acc drive cross => plot acc drive cross) adx ady sx sy adx.toNat acc x0 y0 (adx / 2)
  else
    lineLoop (fun acc drive cross => plot acc cross drive) ady adx sy sx ady.toNat acc y0 x0 (ady / 2)

/-- `draw_line(x0, y0, x1, y1, c)` as a subroutine (rule R112). -/
def drawLine (w h : Nat) (m : Memory) (x0 y0 x1 y1 : Int) (c : Color) : Memory :=
  if y1 - y0 = 0 then fillRect w h m (min x0 x1) y0 ((x1 - x0).natAbs + 1) 1 c
  else if x1 - x0 = 0 then fillRect w h m x0 (min y0 y1) 1 ((y1 - y0).natAbs + 1) c
  else bresenham (fun m x y => setPixel w h m x y c) m x0 y0 x1 y1

/-- The loop of `circle_walk`: `while x >= y` (rule R115). `turns` bounds the iterations: `y` grows by 1 in each and never
passes `r`. -/
def circleLoop {α : Type} (body : α → Int → Int → α) : Nat → α → Int → Int → Int → α
  | 0, acc, _, _, _ => acc
  | turns + 1, acc, x, y, d =>
      if y ≤ x then
        if d < 0 then circleLoop body turns (body acc x y) x (y + 1) (d + 4 * y + 6)
        else circleLoop body turns (body acc x y) (x - 1) (y + 1) (d + 4 * (y - x) + 10)
      else acc

/-- `circle_walk(r, body)` from `(r, 0)` with `d = 3 - 2r`: at most `r + 1` iterations, none for a negative radius
(rule R115). -/
def circleWalk {α : Type} (body : α → Int → Int → α) (acc : α) (r : Int) : α :=
  circleLoop body (r + 1).toNat acc r 0 (3 - 2 * r)

/-- The points plotted for one `(x, y)` of the walk (rule R117). -/
def outlineStep (w h : Nat) (cx cy : Int) (c : Color) (m : Memory) (x y : Int) : Memory :=
  let m := setPixel w h m (cx + x) (cy + y) c
  let m := setPixel w h m (cx - x) (cy + y) c
  let m := if y ≠ 0 then setPixel w h (setPixel w h m (cx + x) (cy - y) c) (cx - x) (cy - y) c else m
  if x ≠ y then
    let m := setPixel w h m (cx + y) (cy + x) c
    let m := setPixel w h m (cx - y) (cy + x) c
    let m := setPixel w h m (cx + y) (cy - x) c
    setPixel w h m (cx - y) (cy - x) c
  else m

/-- The spans drawn for one `(x, y)` of the walk (rule R118). -/
def filledStep (w h : Nat) (cx cy : Int) (c : Color) (m : Memory) (x y : Int) : Memory :=
  let m := drawLine w h m (cx - x) (cy + y) (cx + x) (cy + y) c
  let m := if y ≠ 0 then drawLine w h m (cx - x) (cy - y) (cx + x) (cy - y) c else m
  if x ≠ y then
    let m := drawLine w h m (cx - y) (cy + x) (cx + y) (cy + x) c
    drawLine w h m (cx - y) (cy - x) (cx + y) (cy - x) c
  else m

/-- `draw_circle(cx, cy, r, c, filled)` as a subroutine (rule R116). -/
def drawCircle (w h : Nat) (m : Memory) (cx cy r : Int) (c : Color) (filled : Bool) : Memory :=
  if filled then circleWalk (filledStep w h cx cy c) m r
  else circleWalk (outlineStep w h cx cy c) m r

/-- `fill_rect x, y, w, h, color` (rule R110). -/
def execFillRect (x y rw rh : Int) (c : Color) (s : State) : Host.Outcome State Fault Refusal :=
  .next (s.render 5 fun m => fillRect s.width s.height m x y rw rh c)

/-- `draw_line x0, y0, x1, y1, color` (rule R112). -/
def execDrawLine (x0 y0 x1 y1 : Int) (c : Color) (s : State) : Host.Outcome State Fault Refusal :=
  .next (s.render 5 fun m => drawLine s.width s.height m x0 y0 x1 y1 c)

/-- `draw_circle cx, cy, r, color, filled` (rule R116). -/
def execDrawCircle (cx cy r : Int) (c : Color) (filled : Bool) (s : State) : Host.Outcome State Fault Refusal :=
  .next (s.render 4 fun m => drawCircle s.width s.height m cx cy r c filled)

end Sys2Proof.Machine
end

