-- ==== Sys2Proof/Machine/Glyph.lean ====
section
/-! DEFINITION. The glyph renderer (rules R130 to R136). -/

namespace Sys2Proof.Machine

/-- The loops over the rows and columns of one glyph; `cell` draws logical pixel `(c, r)` whose glyph bit is given
(rules R133, R134). -/
def drawGlyph (cell : Memory → Nat → Nat → Bool → Memory) (gh : Nat) (g : GlyphRecord) (m : Memory) : Memory :=
  (List.range gh).foldl
    (fun m r =>
      (List.range g.width.toNat).foldl (fun m c => cell m c r (glyphBit gh g.width.toNat g.rows r c)) m)
    m

/-- The loop over the glyphs: the pen advances by the glyph's width times `scale` (rules R133, R134). -/
def drawGlyphs (cell : Int → Memory → Nat → Nat → Bool → Memory) (scale : Int) (gh : Nat) :
    List GlyphRecord → Int → Memory → Memory
  | [], _, m => m
  | g :: gs, pen, m => drawGlyphs cell scale gh gs (pen + g.width * scale) (drawGlyph (cell pen) gh g m)

/-- Ink in the color, background in its complement (rule R133). -/
def inkColor (c : Color) (bit : Bool) : Color :=
  if bit then c else complement c

/-- `draw_text` of a well-formed answer as a subroutine (rule R133). -/
def drawText (w h : Nat) (m : Memory) (x y : Int) (answer : GlyphAnswer) (color : Color) : Memory :=
  drawGlyphs (fun pen m c r bit => setPixel w h m (pen + c) (y + r) (inkColor color bit)) 1 answer.height.toNat
    answer.glyphs x m

/-- `draw_text_scaled` of a well-formed answer as a subroutine (rule R134). -/
def drawTextScaled (w h : Nat) (m : Memory) (x y : Int) (answer : GlyphAnswer) (color : Color) (scale : Int) : Memory :=
  drawGlyphs
    (fun pen m c r bit => fillRect w h m (pen + c * scale) (y + r * scale) scale scale (inkColor color bit))
    scale answer.height.toNat answer.glyphs x m

/-- A text command: `NoFramebuffer`, then `GlyphMalformed`, both before any pixel is written (rules R133, R136, R194). -/
def State.renderText (s : State) (len : Nat) (font : Int) (chars : List Word)
    (paint : GlyphAnswer → Memory → Memory) : State :=
  if s.fbValid && !glyphAnswerWf chars.length (s.glyphAnswer font chars) then s.raise .glyphMalformed
  else s.render len (paint (s.glyphAnswer font chars))

/-- `draw_text x, y, text, color, font` (rule R133). -/
def execDrawText (x y font : Int) (chars : List Word) (c : Color) (s : State) : Host.Outcome State Fault Refusal :=
  .next (s.renderText (5 + chars.length) font chars fun answer m => drawText s.width s.height m x y answer c)

/-- `draw_text_scaled x, y, text, color, font, scale` (rule R134). -/
def execDrawTextScaled (x y font scale : Int) (chars : List Word) (c : Color) (s : State) :
    Host.Outcome State Fault Refusal :=
  .next (s.renderText (6 + chars.length) font chars fun answer m => drawTextScaled s.width s.height m x y answer c scale)

end Sys2Proof.Machine
end

