-- ==== Sys2Proof/Machine/ModuleGrid.lean ====
section
/-! DEFINITION. The module grid renderer (rules R140 to R142). -/

namespace Sys2Proof.Machine

/-- `draw_module_grid` as a subroutine: rows outer; a 1 bit is a dark cell and is drawn black (rule R141). -/
def drawModuleGrid (w h : Nat) (m : Memory) (x y modulePx : Int) (sideN : Nat) (bits : List Byte) : Memory :=
  (List.range sideN).foldl
    (fun m (my : Nat) =>
      (List.range sideN).foldl
        (fun m (mx : Nat) =>
          fillRect w h m (x + mx * modulePx) (y + my * modulePx) modulePx modulePx
            (if gridBit bits (my * sideN + mx) then .black else .white))
        m)
    m

/-- `draw_module_grid x, y, grid_bits, module_px, side_n` (rules R141, R142): `NoFramebuffer`, then `GridUndersized`,
both before any pixel is written (rule R194). -/
def execDrawModuleGrid (x y modulePx sideN : Int) (bits : List Byte) (s : State) : Host.Outcome State Fault Refusal :=
  .next <|
    if s.fbValid && gridUndersized sideN bits then s.raise .gridUndersized
    else
      s.render (6 + ceil4 bits.length) fun m => drawModuleGrid s.width s.height m x y modulePx sideN.toNat bits

end Sys2Proof.Machine
end

