-- ==== Sys2Proof/Machine/DisplayLink.lean ====
section
/-! DEFINITION. The display link (rules R150 to R159). -/

namespace Sys2Proof.Machine

/-- The events of `send_command(opcode)` (rule R151). -/
def commandEvents (opcode : Byte) : List Event :=
  [.pinDc .command, .pinCs .asserted, .bus [opcode], .pinCs .deasserted]

/-- The events of `send_data(bytes)`; an empty payload makes no bus write (rule R152). -/
def dataEvents (bytes : List Byte) : List Event :=
  [.pinDc .data, .pinCs .asserted] ++ (if bytes.isEmpty then [] else [.bus bytes]) ++ [.pinCs .deasserted]

/-- The events of `send_data_chunked(bytes, chunk)` for a positive chunk size (rule R153). -/
def chunkedEvents (bytes : List Byte) (chunk : Nat) : List Event :=
  [.pinDc .data, .pinCs .asserted] ++ (chunksOf chunk bytes).map Event.bus ++ [.pinCs .deasserted]

/-- `send_command opcode` (rule R151). -/
def execSendCommand (opcode : Byte) (s : State) : Host.Outcome State Fault Refusal :=
  .next ((s.emitAll (commandEvents opcode)).complete 2)

/-- `send_data bytes` (rule R152). -/
def execSendData (bytes : List Byte) (s : State) : Host.Outcome State Fault Refusal :=
  .next ((s.emitAll (dataEvents bytes)).complete (2 + ceil4 bytes.length))

/-- `send_data_chunked bytes, chunk_size` (rule R153). -/
def execSendDataChunked (chunkSize : Int) (bytes : List Byte) (s : State) : Host.Outcome State Fault Refusal :=
  .next <|
    if chunkSize ≤ 0 then s.raise .badChunkSize
    else (s.emitAll (chunkedEvents bytes chunkSize.toNat)).complete (3 + ceil4 bytes.length)

/-- `wait_until_idle` (rule R155): one step is one poll; the command completes in the step whose read is `High`
(log 3). -/
def execWaitUntilIdle (s : State) : Host.Outcome State Fault Refusal :=
  .next (s.waitBetween .noFault (fun s => s) fun s => s.complete 1)

end Sys2Proof.Machine
end

