-- ==== Sys2Proof/Machine/Panel.lean ====
section
/-! DEFINITION. The panel controller (rules R170 to R182). Each command tests `PSTATE` first (rule R179); the test is made
when the command begins, not when a wait inside it goes on (log 3). -/

namespace Sys2Proof.Machine

/-- `panel_cmd(op, payload)`: an empty payload has no data phase (rule R171). -/
def panelCmdEvents (op : Byte) (payload : List Byte) : List Event :=
  commandEvents op ++ (if payload.isEmpty then [] else dataEvents payload)

/-- `send_plane(op, plane)`, chunked at `PANEL_CHUNK` (rule R171). -/
def planeEvents (op : Byte) (plane : List Byte) : List Event :=
  commandEvents op ++ chunkedEvents plane Config.panelChunk

/-- `BLACK_PLANE` and `WHITE_PLANE`: constant streams, not the framebuffer (rule R171). -/
def solidPlane (c : Color) : List Byte :=
  List.replicate Config.panelBytes (solidByte c)

/-- The events of `panel_reset` before its wait (rule R172). -/
def resetPulseEvents : List Event :=
  [.pinRst .low, .sleep Config.resetHoldMs, .pinRst .high, .sleep Config.resetHoldMs]

/-- The configuration commands up to panel-on, in the order that is load-bearing (rules R173, R174). -/
def configureEventsToPanelOn (ops : PanelOps) : List Event :=
  panelCmdEvents ops.opPanelSetting ops.payPanelSetting ++
  panelCmdEvents ops.opPowerSetting ops.payPowerSetting ++
  panelCmdEvents ops.opBoosterSoftStart ops.payBoosterSoftStart ++
  panelCmdEvents ops.opPll ops.payPll ++
  panelCmdEvents ops.opPanelOn ops.payPanelOn

/-- The configuration commands after panel-on's wait (rule R173). -/
def configureEventsAfterPanelOn (ops : PanelOps) : List Event :=
  panelCmdEvents ops.opResolution ops.payResolution ++
  panelCmdEvents ops.opVcomDataInterval ops.payVcomDataInterval ++
  panelCmdEvents ops.opTcon ops.payTcon

/-- The events that send two planes and trigger a refresh (rules R175, R177). -/
def refreshEvents (ops : PanelOps) (oldPlane newPlane : List Byte) : List Event :=
  planeEvents ops.opDataTransfer1 oldPlane ++ planeEvents ops.opDataTransfer2 newPlane ++
  commandEvents ops.opDisplayRefresh

/-- `BadState` unless `PSTATE` is one of the entry states (rule R179). -/
def State.entryCheck (s : State) (entry : List PanelState) : FaultCode :=
  if entry.contains s.pstate then .noFault else .badState

/-- `panel_reset` (rule R172). -/
def execPanelReset (s : State) : Host.Outcome State Fault Refusal :=
  .next <|
    s.waitBetween (s.entryCheck [.unpowered])
      (fun s => s.emitAll resetPulseEvents)
      (fun s => { s with pstate := .resetting }.complete 1)

/-- `panel_configure` (rule R173). -/
def execPanelConfigure (s : State) : Host.Outcome State Fault Refusal :=
  .next <|
    s.waitBetween (s.entryCheck [.resetting])
      (fun s => { s with pstate := .configuring }.emitAll (configureEventsToPanelOn s.env.platform.panelOps))
      (fun s =>
        { s.emitAll (configureEventsAfterPanelOn s.env.platform.panelOps) with pstate := .ready }.complete 1)

/-- `panel_deep_clean` (rule R175): black to the old plane, white to the new one. -/
def execPanelDeepClean (s : State) : Host.Outcome State Fault Refusal :=
  .next <|
    s.waitBetween (s.entryCheck [.ready])
      (fun s => s.emitAll (refreshEvents s.env.platform.panelOps (solidPlane .black) (solidPlane .white)))
      (fun s => { s with pstate := .deepCleaning }.complete 1)

/-- The tests of `panel_refresh` in their order: `BadState`, `NoFramebuffer`, `BadGeometry` (rule R177). -/
def State.refreshCheck (s : State) : FaultCode :=
  if s.entryCheck [.ready, .deepCleaning, .rendering] ≠ .noFault then .badState
  else if !s.fbValid then .noFramebuffer
  else if s.width ≠ Config.panelWidth ∨ s.height ≠ Config.panelHeight then .badGeometry
  else .noFault

/-- `panel_refresh` (rule R177): white to the old plane, the framebuffer verbatim to the new one, the refresh, the wait,
then the settle delay. -/
def execPanelRefresh (s : State) : Host.Outcome State Fault Refusal :=
  .next <|
    s.waitBetween s.refreshCheck
      (fun s =>
        s.emitAll
          (refreshEvents s.env.platform.panelOps (solidPlane .white) (s.fb.bytesFrom 0 Config.panelBytes)))
      (fun s => { s.emit (.sleep Config.settleMs) with pstate := .refreshing }.complete 1)

/-- `panel_power_down` (rule R178). -/
def execPanelPowerDown (s : State) : Host.Outcome State Fault Refusal :=
  .next <|
    if s.entryCheck [.refreshing] = .noFault then
      { s.emitAll (commandEvents s.env.platform.panelOps.opPowerOff) with pstate := .poweredDown }.complete 1
    else s.raise .badState

end Sys2Proof.Machine
end

