-- ==== Sys2Proof/Machine/Wire.lean ====
section
/-! DEFINITION. The wire view of a trace: what the panel sees (rule R154). -/

namespace Sys2Proof.Machine

/-- One chip-select window: the mode line's level at the assert and the bytes sent (rule R154). -/
structure Transaction where
  mode : DcLevel
  bytes : List Byte
  deriving DecidableEq, Repr

/-- The transactions of a trace, given the mode line's level before it and the window that is open, if any. A window is
listed when chip-select is deasserted. -/
def wireFrom : DcLevel → Option Transaction → List Event → List Transaction
  | _, _, [] => []
  | _, window, .pinDc level :: es => wireFrom level window es
  | mode, _, .pinCs .asserted :: es => wireFrom mode (some ⟨mode, []⟩) es
  | mode, some t, .pinCs .deasserted :: es => t :: wireFrom mode none es
  | mode, none, .pinCs .deasserted :: es => wireFrom mode none es
  | mode, some t, .bus bytes :: es => wireFrom mode (some ⟨t.mode, t.bytes ++ bytes⟩) es
  | mode, none, .bus _ :: es => wireFrom mode none es
  | mode, window, .pinRst _ :: es => wireFrom mode window es
  | mode, window, .busyRead _ :: es => wireFrom mode window es
  | mode, window, .sleep _ :: es => wireFrom mode window es

/-- `wire(T)` of the events `es` appended when the mode line was at `mode` and no window was open (rule R154). -/
def wire (mode : DcLevel) (es : List Event) : List Transaction :=
  wireFrom mode none es

end Sys2Proof.Machine
end

