-- ==== Sys2Proof/Machine/Dispatch.lean ====
section
/-! DEFINITION. One arm per command: its meaning. -/

namespace Sys2Proof.Machine

def exec (i : Instr) (s : State) : Host.Outcome State Fault Refusal :=
  match i with
  | .fbCreate width height => Sys2Proof.Machine.execFbCreate width height s
  | .setPixel x y color => Sys2Proof.Machine.execSetPixel x y color s
  | .getPixel x y => Sys2Proof.Machine.execGetPixel x y s
  | .fbFill color => Sys2Proof.Machine.execFbFill color s
  | .fillRect x y w h color => Sys2Proof.Machine.execFillRect x y w h color s
  | .drawLine x0 y0 x1 y1 color => Sys2Proof.Machine.execDrawLine x0 y0 x1 y1 color s
  | .drawCircle cx cy r color filled => Sys2Proof.Machine.execDrawCircle cx cy r color filled s
  | .drawText x y font chars color => Sys2Proof.Machine.execDrawText x y font chars color s
  | .drawTextScaled x y font scale chars color => Sys2Proof.Machine.execDrawTextScaled x y font scale chars color s
  | .drawModuleGrid x y modulePx sideN bits => Sys2Proof.Machine.execDrawModuleGrid x y modulePx sideN bits s
  | .sendCommand opcode => Sys2Proof.Machine.execSendCommand opcode s
  | .sendData bytes => Sys2Proof.Machine.execSendData bytes s
  | .sendDataChunked chunkSize bytes => Sys2Proof.Machine.execSendDataChunked chunkSize bytes s
  | .waitUntilIdle => Sys2Proof.Machine.execWaitUntilIdle s
  | .panelReset => Sys2Proof.Machine.execPanelReset s
  | .panelConfigure => Sys2Proof.Machine.execPanelConfigure s
  | .panelDeepClean => Sys2Proof.Machine.execPanelDeepClean s
  | .panelRefresh => Sys2Proof.Machine.execPanelRefresh s
  | .panelPowerDown => Sys2Proof.Machine.execPanelPowerDown s

end Sys2Proof.Machine
end

