-- ==== Sys2Proof/Machine/Step.lean ====
section
/-! DEFINITION. One step of the unit, and the placing of one instruction where the next step fetches. -/

namespace Sys2Proof.Machine

/-- One step: the command at `CP` is executed (rule R12), or one more poll of the wait it is inside is made (log 3). An
illegal command raises `IllegalCommand` with `CP` at its header (rules R78, R192); a halted unit and a run that has
ended have no step (rules R192, R227). -/
def step (s : State) : Host.Outcome State Fault Refusal :=
  match s.fetch with
  | .halted => .fault .halted
  | .ended => .fault .runEnded
  | .illegal _ => .next (s.raise .illegalCommand)
  | .command i => exec i s

/-- The state with the words of an opcode-table row at `CP`, so that the very next step runs them: the stream is loaded by
the host, and a step runs only while `FAULT = 0` and no other command is inside a wait (log 1). -/
def State.withFetchWord (s : State) (nbits w : Nat) : State :=
  { s with
    fault := .noFault
    wait := none
    env := { s.env with stream := placeWords s.env.stream s.cp (tableWords nbits w) } }

end Sys2Proof.Machine
end

