-- ==== Sys2Proof/Safety.lean ====
section
/-! DEFINITION. The terms claims use: the pixels of a state, what a drawing command may change, the invariants, the fault
conditions of rule R191 and the ends of a run (rule R227). Written from the rules, not from the meanings. -/

namespace Sys2Proof.Machine

/-! ## Pixels and drawing -/

/-- The pixel lies in the framebuffer of `s` (rule R53). -/
def InFrame (s : State) (x y : Int) : Prop :=
  0 ≤ x ∧ x < s.width ∧ 0 ≤ y ∧ y < s.height

/-- The address of the byte that holds an in-range pixel: `(y*WIDTH + x) / 8` (rule R51). -/
def pixelByte (s : State) (x y : Int) : Nat :=
  ((y * s.width + x) / 8).toNat

/-- The color of an in-range pixel: bit `7 - (x mod 8)` of its byte, 0 = black and 1 = white (rules R11, R51). -/
def pixelColor (s : State) (x y : Int) : Color :=
  if (s.fb.byte (pixelByte s x y)).getLsbD (7 - (x % 8).toNat) then .white else .black

/-- A framebuffer exists and its rows are whole bytes, so that rule R51's map is one to one (rules R51, R57). -/
def Drawable (s : State) : Prop :=
  s.fbValid = true ∧ s.width % 8 = 0

/-- From `s` to `t` a rendering command of `len` words has drawn, before clipping, exactly the pixels `(x, y)` with
`painted x y c`, in the color `c`, and changed nothing else (rules R24, R53, R54, R176): the frame of every rendering
command. A byte that holds no painted pixel reads as before; so does every pixel that is not painted. -/
def Draws (s t : State) (len : Nat) (painted : Int → Int → Color → Prop) : Prop :=
  t = { s with
        fb := t.fb
        pstate := if s.pstate = .ready ∨ s.pstate = .deepCleaning then .rendering else s.pstate
        cp := s.cp + len
        wait := none } ∧
  (∀ x y c, InFrame s x y → painted x y c → pixelColor t x y = c) ∧
  (∀ x y, InFrame s x y → (∀ c, ¬ painted x y c) → pixelColor t x y = pixelColor s x y) ∧
  (∀ a, (∀ x y c, InFrame s x y → painted x y c → pixelByte s x y ≠ a) → t.fb.read a = s.fb.read a)

/-- The other color, `1 - c` (rule R11). -/
def otherColor : Color → Color
  | .black => .white
  | .white => .black

/-- The pixels of a line, in closed form (rule R113): with x driving, column `x0 + sx*k` has its one pixel at the row
that `k` steps of the error accumulator lead to, and symmetrically with y driving; `|dx| >= |dy|` lets x drive. -/
def OnLine (x0 y0 x1 y1 px py : Int) : Prop :=
  let adx : Int := (x1 - x0).natAbs
  let ady : Int := (y1 - y0).natAbs
  let sx := (x1 - x0).sign
  let sy := (y1 - y0).sign
  ∃ k : Int, 0 ≤ k ∧
    if ady ≤ adx then
      k ≤ adx ∧ px = x0 + sx * k ∧ py = y0 + sy * ((k * ady + (adx - 1 - adx / 2)) / adx)
    else
      k ≤ ady ∧ py = y0 + sy * k ∧ px = x0 + sx * ((k * adx + (ady - 1 - ady / 2)) / ady)

/-- The values `(x, y, d)` that the circle walk of radius `r` visits (rule R115). -/
inductive CircleVisits (r : Int) : Int → Int → Int → Prop where
  | start : 0 ≤ r → CircleVisits r r 0 (3 - 2 * r)
  | straight {x y d : Int} : CircleVisits r x y d → d < 0 → y + 1 ≤ x → CircleVisits r x (y + 1) (d + 4 * y + 6)
  | inward {x y d : Int} : CircleVisits r x y d → 0 ≤ d → y + 1 ≤ x - 1 →
      CircleVisits r (x - 1) (y + 1) (d + 4 * (y - x) + 10)

/-- The pixels of a circle outline: the eight symmetric points of every visited `(x, y)` (rule R117). -/
def OnCircle (cx cy r px py : Int) : Prop :=
  ∃ x y d, CircleVisits r x y d ∧
    (((px - cx).natAbs = x ∧ (py - cy).natAbs = y) ∨ ((px - cx).natAbs = y ∧ (py - cy).natAbs = x))

/-- The pixels of a disc: the four symmetric spans of every visited `(x, y)` (rule R118). -/
def InDisc (cx cy r px py : Int) : Prop :=
  ∃ x y d, CircleVisits r x y d ∧
    (((px - cx).natAbs ≤ x ∧ (py - cy).natAbs = y) ∨ ((px - cx).natAbs ≤ y ∧ (py - cy).natAbs = x))

/-- The eight images of an offset from the center under the symmetries of the square: itself, the three other sign
reflections, and the four with the coordinates exchanged (rule R119 (a)). -/
def squareImages (dx dy : Int) : List (Int × Int) :=
  [(dx, dy), (-dx, dy), (dx, -dy), (-dx, -dy), (dy, dx), (-dy, dx), (dy, -dx), (-dy, -dx)]

/-- The pen's offset, in logical pixels, before glyph `i`: the sum of the widths of the glyphs before it (rule R133). -/
def penOffset (glyphs : List GlyphRecord) (i : Nat) : Int :=
  ((glyphs.take i).map GlyphRecord.width).sum

/-- The bit of logical column `c` and row `r` of a glyph: provider row `gh-1-r`, bit `gw-1-c` (rule R132). -/
def LogicalBit (gh : Int) (g : GlyphRecord) (r c : Int) : Bool :=
  match g.rows[(gh - 1 - r).toNat]? with
  | some row => row.toNat.testBit (g.width - 1 - c).toNat
  | none => false

/-- The pixels of a text with its top-left corner at `(x, y)`, every logical pixel a `scale` by `scale` block, ink in
`color` and the rest of every cell in the other color (rules R133, R134). -/
def InText (answer : GlyphAnswer) (x y scale : Int) (color : Color) (px py : Int) (c : Color) : Prop :=
  ∃ (i : Nat) (g : GlyphRecord) (row col : Int), answer.glyphs[i]? = some g ∧
    0 ≤ row ∧ row < answer.height ∧ 0 ≤ col ∧ col < g.width ∧
    x + (penOffset answer.glyphs i + col) * scale ≤ px ∧ px < x + (penOffset answer.glyphs i + col + 1) * scale ∧
    y + row * scale ≤ py ∧ py < y + (row + 1) * scale ∧
    c = if LogicalBit answer.height g row col then color else otherColor color

/-- The bit of grid cell `(mx, my)`: `idx = my*side_n + mx`, row-major, MSB-first (rule R140). -/
def CellBit (bits : List Byte) (sideN mx my : Int) : Bool :=
  match bits[((my * sideN + mx) / 8).toNat]? with
  | some b => b.getLsbD (7 - ((my * sideN + mx) % 8).toNat)
  | none => false

/-- The pixels of a module grid at `(x, y)`: a 1 bit is a black block, a 0 bit a white one (rule R141). -/
def InGrid (bits : List Byte) (x y modulePx sideN px py : Int) (c : Color) : Prop :=
  ∃ mx my : Int, 0 ≤ mx ∧ mx < sideN ∧ 0 ≤ my ∧ my < sideN ∧
    x + mx * modulePx ≤ px ∧ px < x + (mx + 1) * modulePx ∧
    y + my * modulePx ≤ py ∧ py < y + (my + 1) * modulePx ∧
    c = if CellBit bits sideN mx my then .black else .white

/-! ## The fault conditions (rules R191, R194) -/

/-- The provider's answer is well formed for `n` characters (rule R131). -/
def AnswerWellFormed (n : Nat) (a : GlyphAnswer) : Prop :=
  0 ≤ a.height ∧ a.glyphs.length = n ∧
  ∀ g ∈ a.glyphs, 0 ≤ g.width ∧ a.height ≤ g.rows.length ∧ ∀ row ∈ g.rows, 0 ≤ row

/-- `fault` is the fault that a command raises before its first effect, when it is begun in `s`; `noFault` when it raises
none (the table of rule R191 in the order of rule R194). -/
def RaisesAtEntry (s : State) (i : Instr) (fault : FaultCode) : Prop :=
  let onFrame (other : FaultCode → Prop) : Prop :=
    (s.fbValid = false ∧ fault = .noFramebuffer) ∨ (s.fbValid = true ∧ other fault)
  let check (bad : Prop) (code : FaultCode) (f : FaultCode) : Prop :=
    (bad ∧ f = code) ∨ (¬ bad ∧ f = .noFault)
  match i with
  | .fbCreate w h =>
      check (w ≤ 0 ∨ h ≤ 0 ∨ w % 8 ≠ 0 ∨ (Config.fbCapacity : Int) < w * h / 8) .badGeometry fault
  | .setPixel _ _ _ => onFrame (· = .noFault)
  | .getPixel _ _ => onFrame (· = .noFault)
  | .fbFill _ => onFrame (· = .noFault)
  | .fillRect _ _ _ _ _ => onFrame (· = .noFault)
  | .drawLine _ _ _ _ _ => onFrame (· = .noFault)
  | .drawCircle _ _ _ _ _ => onFrame (· = .noFault)
  | .drawText _ _ font chars _ =>
      onFrame (check (¬ AnswerWellFormed chars.length (s.glyphAnswer font chars)) .glyphMalformed)
  | .drawTextScaled _ _ font _ chars _ =>
      onFrame (check (¬ AnswerWellFormed chars.length (s.glyphAnswer font chars)) .glyphMalformed)
  | .drawModuleGrid _ _ _ sideN bits =>
      onFrame (check (0 < sideN ∧ 8 * (bits.length : Int) < sideN * sideN) .gridUndersized)
  | .sendCommand _ => fault = .noFault
  | .sendData _ => fault = .noFault
  | .sendDataChunked chunkSize _ => check (chunkSize ≤ 0) .badChunkSize fault
  | .waitUntilIdle => fault = .noFault
  | .panelReset => check (s.pstate ≠ .unpowered) .badState fault
  | .panelConfigure => check (s.pstate ≠ .resetting) .badState fault
  | .panelDeepClean => check (s.pstate ≠ .ready) .badState fault
  | .panelRefresh =>
      (¬ (s.pstate = .ready ∨ s.pstate = .deepCleaning ∨ s.pstate = .rendering) ∧ fault = .badState) ∨
      ((s.pstate = .ready ∨ s.pstate = .deepCleaning ∨ s.pstate = .rendering) ∧
        onFrame (check (s.width ≠ 128 ∨ s.height ≠ 296) .badGeometry))
  | .panelPowerDown => check (s.pstate ≠ .refreshing) .badState fault

/-- The command contains a busy wait (rules R155, R172, R173, R175, R177). -/
def commandWaits : Instr → Bool
  | .waitUntilIdle => true
  | .panelReset => true
  | .panelConfigure => true
  | .panelDeepClean => true
  | .panelRefresh => true
  | .fbCreate _ _ => false
  | .setPixel _ _ _ => false
  | .getPixel _ _ => false
  | .fbFill _ => false
  | .fillRect _ _ _ _ _ => false
  | .drawLine _ _ _ _ _ => false
  | .drawCircle _ _ _ _ _ => false
  | .drawText _ _ _ _ _ => false
  | .drawTextScaled _ _ _ _ _ _ => false
  | .drawModuleGrid _ _ _ _ _ => false
  | .sendCommand _ => false
  | .sendData _ => false
  | .sendDataChunked _ _ => false
  | .panelPowerDown => false

/-! ## Headers (rules R72, R77, R78) -/

/-- The header is legal, field by field: an opcode of the map, no reserved bit, `C` only in a command that takes a color,
`F` only in `draw_circle` (rules R72, R78). -/
def LegalHeader (h : Word) : Prop :=
  h.extractLsb' 10 22 = 0 ∧
  h.extractLsb' 0 8 ∈ ([0x01, 0x02, 0x03, 0x04, 0x10, 0x11, 0x12, 0x20, 0x21, 0x30, 0x40, 0x41, 0x42, 0x43,
    0x50, 0x51, 0x52, 0x53, 0x54] : List Byte) ∧
  (h.getLsbD 8 = true → h.extractLsb' 0 8 ∈ ([0x02, 0x04, 0x10, 0x11, 0x12, 0x20, 0x21] : List Byte)) ∧
  (h.getLsbD 9 = true → h.extractLsb' 0 8 = 0x12)

/-! ## Lines and trace -/

/-- The level of chip-select after the events: the level last written to it (rule R28). -/
def csAfter (level : CsLevel) (es : List Event) : CsLevel :=
  es.foldl (fun l e => match e with | .pinCs l' => l' | _ => l) level

/-- The level of the mode line after the events (rule R28). -/
def dcAfter (level : DcLevel) (es : List Event) : DcLevel :=
  es.foldl (fun l e => match e with | .pinDc l' => l' | _ => l) level

/-- The level of the reset line after the events (rule R28). -/
def rstAfter (level : PinLevel) (es : List Event) : PinLevel :=
  es.foldl (fun l e => match e with | .pinRst l' => l' | _ => l) level

/-- The events keep the framing (rules R150, R158): chip-select windows never nest and are closed at the end, bus writes
are not empty and happen inside a window only, and inside a window there is nothing but bus writes; sleeps are of a
positive time. The flag says whether a window is open. -/
def framed : Bool → List Event → Bool
  | window, [] => !window
  | false, .pinCs .asserted :: es => framed true es
  | true, .pinCs .deasserted :: es => framed false es
  | true, .bus bytes :: es => !bytes.isEmpty && framed true es
  | false, .pinDc _ :: es => framed false es
  | false, .pinRst _ :: es => framed false es
  | false, .busyRead _ :: es => framed false es
  | false, .sleep ms :: es => decide (0 < ms) && framed false es
  | true, .pinCs .asserted :: _ => false
  | false, .pinCs .deasserted :: _ => false
  | false, .bus _ :: _ => false
  | true, .pinDc _ :: _ => false
  | true, .pinRst _ :: _ => false
  | true, .busyRead _ :: _ => false
  | true, .sleep _ :: _ => false

/-- One panel command on the trace: its opcode in command mode and, when the payload is not empty, the payload in data
mode (rules R151, R152, R171). -/
def panelCmdTrace (op : Byte) (payload : List Byte) : List Event :=
  [.pinDc .command, .pinCs .asserted, .bus [op], .pinCs .deasserted] ++
    (if payload = [] then [] else [.pinDc .data, .pinCs .asserted, .bus payload, .pinCs .deasserted])

/-- The events of `panel_configure` before its wait: the first five panel commands, panel-on the last (rule R173). -/
def panelOnTrace (ops : PanelOps) : List Event :=
  panelCmdTrace ops.opPanelSetting ops.payPanelSetting ++
  panelCmdTrace ops.opPowerSetting ops.payPowerSetting ++
  panelCmdTrace ops.opBoosterSoftStart ops.payBoosterSoftStart ++
  panelCmdTrace ops.opPll ops.payPll ++
  panelCmdTrace ops.opPanelOn ops.payPanelOn

/-- The events of `panel_configure` after its wait: the last three panel commands (rule R173). -/
def afterPanelOnTrace (ops : PanelOps) : List Event :=
  panelCmdTrace ops.opResolution ops.payResolution ++
  panelCmdTrace ops.opVcomDataInterval ops.payVcomDataInterval ++
  panelCmdTrace ops.opTcon ops.payTcon

/-- One full plane of 4736 bytes on the trace: its opcode in command mode, then five bus writes of 1024, 1024, 1024, 1024
and 640 bytes in one window in data mode (rules R153, R171, R175). -/
def planeTrace (op : Byte) (plane : List Byte) : List Event :=
  [.pinDc .command, .pinCs .asserted, .bus [op], .pinCs .deasserted,
   .pinDc .data, .pinCs .asserted,
   .bus (plane.take 1024), .bus ((plane.drop 1024).take 1024), .bus ((plane.drop 2048).take 1024),
   .bus ((plane.drop 3072).take 1024), .bus (plane.drop 4096),
   .pinCs .deasserted]

/-- The old plane, the new plane and the refresh trigger on the trace (rules R175, R177). -/
def refreshTrace (ops : PanelOps) (oldPlane newPlane : List Byte) : List Event :=
  planeTrace ops.opDataTransfer1 oldPlane ++ planeTrace ops.opDataTransfer2 newPlane ++
  [.pinDc .command, .pinCs .asserted, .bus [ops.opDisplayRefresh], .pinCs .deasserted]

/-- `BLACK_PLANE` (rule R171). -/
def blackPlane : List Byte :=
  List.replicate 4736 0x00

/-- `WHITE_PLANE` (rule R171). -/
def whitePlane : List Byte :=
  List.replicate 4736 0xFF

/-- The plane that is the framebuffer, byte 0 first (rule R177). -/
def framePlane (s : State) : List Byte :=
  (List.range 4736).map s.fb.byte

/-- The state when a command that begins in `s`, its entry tests passed, comes to its wait: its first part is done
(rules R155, R172, R173, R175, R177). A command without a wait has no such state. -/
def beforeWait (i : Instr) (s : State) : State :=
  let ops := s.env.platform.panelOps
  match i with
  | .panelReset =>
      { s with rst := .high, trace := s.trace ++ [.pinRst .low, .sleep 200, .pinRst .high, .sleep 200] }
  | .panelConfigure =>
      { s with
        cs := .deasserted
        dc := if ops.payPanelOn = [] then .command else .data
        trace := s.trace ++ panelOnTrace ops
        pstate := .configuring }
  | .panelDeepClean =>
      { s with cs := .deasserted, dc := .command, trace := s.trace ++ refreshTrace ops blackPlane whitePlane }
  | .panelRefresh =>
      { s with cs := .deasserted, dc := .command, trace := s.trace ++ refreshTrace ops whitePlane (framePlane s) }
  | .waitUntilIdle | .panelPowerDown
  | .fbCreate _ _ | .setPixel _ _ _ | .getPixel _ _ | .fbFill _
  | .fillRect _ _ _ _ _ | .drawLine _ _ _ _ _ | .drawCircle _ _ _ _ _
  | .drawText _ _ _ _ _ | .drawTextScaled _ _ _ _ _ _ | .drawModuleGrid _ _ _ _ _
  | .sendCommand _ | .sendData _ | .sendDataChunked _ _ => s

/-- The events of a wait that reads `Low` `n` times and then `High` (rule R155). -/
def pollEvents (pollMs : Nat) : Nat → List Event
  | 0 => [.sleep pollMs, .busyRead .high]
  | n + 1 => .sleep pollMs :: .busyRead .low :: pollEvents pollMs n

/-- `n` executions of a command one after the other: the polls of one wait (log 3). -/
def execTimes (i : Instr) : Nat → State → Host.Outcome State Fault Refusal
  | 0, s => .next s
  | n + 1, s =>
      match exec i s with
      | .next t => execTimes i n t
      | .fault r => .fault r
      | .refused r => .refused r

/-! ## Invariants -/

/-- The framebuffer is as rules R22, R56 and R100 have it: no size without a framebuffer, a legal geometry with one,
canonical memory inside the capacity, and a value in every byte of the picture. -/
def FramebufferOk (s : State) : Prop :=
  (s.fbValid = false → s.width = 0 ∧ s.height = 0) ∧
  (s.fbValid = true → 0 < s.width ∧ 0 < s.height ∧ s.width % 8 = 0 ∧ s.width * s.height / 8 ≤ Config.fbCapacity) ∧
  s.fb.wf ∧
  (∀ cell ∈ s.fb, cell.1 < Config.fbCapacity) ∧
  (∀ a, a < s.width * s.height / 8 → s.fb.read a ≠ none)

/-- The interface is framed between steps (rule R158), for a platform whose poll interval is positive (rule R7). -/
def LinkOk (s : State) : Prop :=
  s.cs = .deasserted ∧ framed false s.trace = true ∧ 0 < s.env.platform.pollMs

/-- The panel states in which a command can be inside its wait (rules R172 to R177, R181). -/
def WaitsIn (i : Instr) (p : PanelState) : Prop :=
  match i with
  | .waitUntilIdle => p ≠ .configuring
  | .panelReset => p = .unpowered
  | .panelConfigure => p = .configuring
  | .panelDeepClean => p = .ready
  | .panelRefresh => p = .ready ∨ p = .deepCleaning ∨ p = .rendering
  | .fbCreate _ _ => False
  | .setPixel _ _ _ => False
  | .getPixel _ _ => False
  | .fbFill _ => False
  | .fillRect _ _ _ _ _ => False
  | .drawLine _ _ _ _ _ => False
  | .drawCircle _ _ _ _ _ => False
  | .drawText _ _ _ _ _ => False
  | .drawTextScaled _ _ _ _ _ _ => False
  | .drawModuleGrid _ _ _ _ _ => False
  | .sendCommand _ => False
  | .sendData _ => False
  | .sendDataChunked _ _ => False
  | .panelPowerDown => False

/-- The session is consistent: a wait in progress belongs to the command at `CP`, in a panel state it can wait in, and
`Configuring` is seen only inside `panel_configure`'s wait or after that wait timed out (rules R27, R173, R181). -/
def SessionOk (s : State) : Prop :=
  (s.wait ≠ none → s.fault = .noFault ∧
    ∃ i, decode (s.env.stream.drop s.cp) = .ok i ∧ WaitsIn i s.pstate) ∧
  (s.pstate = .configuring → s.wait ≠ none ∨ s.fault = .panelUnresponsive)

/-- `CP` is inside the stream or at its end (rule R24). -/
def CpOk (s : State) : Prop :=
  s.cp ≤ s.env.stream.length

/-- The transitions of `PSTATE` (rules R172 to R179). -/
def PanelMove (p q : PanelState) : Prop :=
  match p, q with
  | .unpowered, .resetting => True
  | .resetting, .configuring => True
  | .resetting, .ready => True
  | .configuring, .ready => True
  | .ready, .deepCleaning => True
  | .ready, .rendering => True
  | .deepCleaning, .rendering => True
  | .ready, .refreshing => True
  | .deepCleaning, .refreshing => True
  | .rendering, .refreshing => True
  | .refreshing, .poweredDown => True
  | _, _ => False

/-! ## The ends of a run (rule R227) -/

/-- The run has ended successfully: every command of the stream has completed. -/
def EndedWell (s : State) : Prop :=
  s.cp = s.env.stream.length ∧ s.fault = .noFault ∧ s.wait = none

end Sys2Proof.Machine
end

