-- ==== Sys2Proof/Certificates/Slice0/Obligations.lean ====
section
/-! DEFINITION. The statements for the provers. Each docstring names the rules of spec/ it formalises; a premise
`s.wait = none` says that the command is at its beginning, which is the state between commands (log 3). -/

open Sys2Proof Sys2Proof.Machine

/-! ## Encoding -/

/-- Rules R72 to R80: the decoder reads back every well-formed command from its words, whatever follows them. -/
def Obligations.DecodeOfEncodeIsTheCommand : Prop :=
  ∀ (i : Instr) (rest : List Word), i.wf = true → decode (encode i ++ rest) = .ok i

/-- Rules R72 to R80: whatever decodes is well formed, and its words are exactly its encoding: no bit of a command is
dropped (reserved bits, `C`, `F`, counts and padding among them). -/
def Obligations.DecodedWordsAreTheEncoding : Prop :=
  ∀ (ws : List Word) (i : Instr), decode ws = .ok i →
    i.wf = true ∧ i.lengthWords ≤ ws.length ∧ encode i = ws.take i.lengthWords

/-- Rule R77: "Rows are disjoint." No header selects two rows. -/
def Obligations.OpcodeRowsAreDisjoint : Prop :=
  ∀ (h : Word) (r r' : OpcodeRow), r ∈ opcodeTable → r' ∈ opcodeTable →
    h &&& r.mask = r.pattern → h &&& r'.mask = r'.pattern → r = r'

/-- Rule R78: a header is refused exactly when it is not legal field by field. -/
def Obligations.HeadersAreLegalOrRefused : Prop :=
  ∀ (h : Word) (ws : List Word),
    (¬ LegalHeader h → decode (h :: ws) = .error .illegalHeader) ∧
    (LegalHeader h → decode (h :: ws) ≠ .error .illegalHeader)

/-- Rule R83: the worked encodings, decoded and encoded. -/
def Obligations.WorkedEncodingsAgree : Prop :=
  (decode [0x00000002, 0x00000000, 0x00000000] = .ok (.setPixel 0 0 .black) ∧
    encode (.setPixel 0 0 .black) = [0x00000002, 0x00000000, 0x00000000]) ∧
  (decode [0x00000002, 0x0000007F, 0x00000127] = .ok (.setPixel 127 295 .black) ∧
    encode (.setPixel 127 295 .black) = [0x00000002, 0x0000007F, 0x00000127]) ∧
  (decode [0x00000102, 0xFFFFFFFF, 0x00000005] = .ok (.setPixel (-1) 5 .white) ∧
    encode (.setPixel (-1) 5 .white) = [0x00000102, 0xFFFFFFFF, 0x00000005]) ∧
  (decode [0x00000012, 0x00000040, 0x00000094, 0x0000000A] = .ok (.drawCircle 64 148 10 .black false) ∧
    encode (.drawCircle 64 148 10 .black false) = [0x00000012, 0x00000040, 0x00000094, 0x0000000A]) ∧
  (decode [0x00000312, 0x00000040, 0x00000094, 0x0000000A] = .ok (.drawCircle 64 148 10 .white true) ∧
    encode (.drawCircle 64 148 10 .white true) = [0x00000312, 0x00000040, 0x00000094, 0x0000000A]) ∧
  (decode [0x00000104] = .ok (.fbFill .white) ∧ encode (.fbFill .white) = [0x00000104]) ∧
  (decode [0x00000041, 0x00000005, 0x78563412, 0x0000009A] = .ok (.sendData [0x12, 0x34, 0x56, 0x78, 0x9A]) ∧
    encode (.sendData [0x12, 0x34, 0x56, 0x78, 0x9A]) = [0x00000041, 0x00000005, 0x78563412, 0x0000009A]) ∧
  (decode [0x00000020, 0x00000001, 0x00000001, 0x00000007, 0x00000002, 0x0000004C, 0x00000069] =
      .ok (.drawText 1 1 7 [0x4C, 0x69] .black) ∧
    encode (.drawText 1 1 7 [0x4C, 0x69] .black) =
      [0x00000020, 0x00000001, 0x00000001, 0x00000007, 0x00000002, 0x0000004C, 0x00000069])

/-! ## The step -/

/-- Rules R12, R62, R80: a step executes the command decoded at `CP`; while the command is inside a wait (log 3), the same
command is decoded again. The step adds nothing around `exec`. -/
def Obligations.StepRunsTheDecodedCommand : Prop :=
  ∀ (s : State) (i : Instr), s.fault = .noFault → decode (s.env.stream.drop s.cp) = .ok i → step s = exec i s

/-- Rules R78, R192: an illegal command raises `IllegalCommand` with `CP` at its header word and changes nothing else. -/
def Obligations.IllegalCommandRaisesAndChangesNothingElse : Prop :=
  ∀ (s : State) (e : DecodeError), s.fault = .noFault → s.wait = none → s.cp < s.env.stream.length →
    decode (s.env.stream.drop s.cp) = .error e → step s = .next { s with fault := .illegalCommand }

/-- Rules R192, R193, R203, R227: the unit has a step unless it is halted or the run has ended, and then it stops for
exactly that reason; no command is left without a meaning. -/
def Obligations.StepStopsOnlyHaltedOrEnded : Prop :=
  ∀ s : State,
    ((∃ t, step s = .next t) ↔ s.fault = .noFault ∧ s.cp ≠ s.env.stream.length) ∧
    (step s = .fault .halted ↔ s.fault ≠ .noFault) ∧
    (step s = .fault .runEnded ↔ s.fault = .noFault ∧ s.cp = s.env.stream.length) ∧
    (∀ r, step s ≠ .refused r)

/-- Rule R24: a step of a command that ends without a fault and without being left inside its wait moves `CP` by the
command's length; every other step leaves `CP`. That a command can be left inside its wait between two steps is the model's
choice (log 3). -/
def Obligations.CpMovesByTheLengthOrStays : Prop :=
  ∀ (s t : State) (i : Instr), s.fault = .noFault → decode (s.env.stream.drop s.cp) = .ok i → step s = .next t →
    (t.fault = .noFault ∧ t.wait = none ∧ t.cp = s.cp + i.lengthWords) ∨
    ((t.fault ≠ .noFault ∨ t.wait ≠ none) ∧ t.cp = s.cp)

/-- Rules R24, R191, R203, R225: every one of the 19 commands, begun where rule R191 names no fault for it, with the busy
line read `High` at once where it waits, completes with its own effect: `CP` moves by its length, no fault, no wait left.
So does a waiting command found inside its wait; that one poll is one step is the model's choice (log 3). -/
def Obligations.EveryCommandCompletes : Prop :=
  ∀ (i : Instr) (s : State), (s.wait = none ∧ RaisesAtEntry s i .noFault ∨ s.wait ≠ none ∧ commandWaits i = true) →
    (commandWaits i = true → ∃ rest, s.env.busyIn = .high :: rest) →
    ∃ t, exec i s = .next t ∧ t.cp = s.cp + i.lengthWords ∧ t.fault = s.fault ∧ t.wait = none

/-- Rules R191, R192, R194: where rule R191's table names a fault for a command that begins, the command raises it: `FAULT`
takes the code and nothing else changes. That a negative value in a glyph row beyond the height is malformed is the model's
reading of rule R131 (log 13, DEDUCED); so it is in the two statements about fault conditions beside this one. -/
def Obligations.EntryFaultsArePrecise : Prop :=
  ∀ (i : Instr) (s : State) (f : FaultCode), s.wait = none → f ≠ .noFault → RaisesAtEntry s i f →
    exec i s = .next { s with fault := f }

/-- Rules R157, R191, R192: a command that begins raises no fault that rule R191 does not name for it, and begun or found
inside its wait it raises `PanelUnresponsive` only as a waiting command, at a `Low` read that reaches the bound of a busy
timeout. That the reads of a wait stand in `wait` from step to step is the model's choice (log 3). -/
def Obligations.OnlyTheTableRaisesFaults : Prop :=
  ∀ (i : Instr) (s t : State), s.fault = .noFault → exec i s = .next t → t.fault ≠ .noFault →
    ((commandWaits i = true → s.wait = none) ∧ RaisesAtEntry s i t.fault) ∨
    (t.fault = .panelUnresponsive ∧ commandWaits i = true ∧ t.trace.getLast? = some (.busyRead .low) ∧
      ∃ limit, s.env.platform.busyTimeoutPolls = some limit ∧ limit ≤ s.wait.getD 0 + 1)

/-! ## Framebuffer -/

/-- Rule R100: a legal `fb_create` sets the geometry, whitens every byte of the picture, leaves the bytes beyond it, and
changes nothing else. -/
def Obligations.FbCreateMakesAWhiteFramebuffer : Prop :=
  ∀ (s : State) (w h : Int), 0 < w → 0 < h → w % 8 = 0 → w * h / 8 ≤ 4736 →
    ∃ t, exec (.fbCreate w h) s = .next t ∧
      t = { s with
            width := w.toNat, height := h.toNat, fbValid := true, fb := t.fb, cp := s.cp + 3, wait := none } ∧
      (∀ a : Nat, t.fb.read a = if (a : Int) < w * h / 8 then some 0xFF else s.fb.read a)

/-- Rules R51, R54, R101: an in-range `set_pixel` writes bit `7 - (x mod 8)` of byte `(y*WIDTH + x)/8`: set for white,
cleared for black; the other bits of the byte, every other byte and the rest of the state are unchanged but for `CP` and
rule R176's `PSTATE`. -/
def Obligations.SetPixelWritesItsBit : Prop :=
  ∀ (s : State) (x y : Int) (c : Color), s.fbValid = true → 0 ≤ x → x < s.width → 0 ≤ y → y < s.height →
    ∃ t v, exec (.setPixel x y c) s = .next t ∧
      t = { s with
            fb := t.fb
            pstate := if s.pstate = .ready ∨ s.pstate = .deepCleaning then .rendering else s.pstate
            cp := s.cp + 3
            wait := none } ∧
      t.fb.read ((y * s.width + x) / 8).toNat = some v ∧
      v.getLsbD (7 - (x % 8).toNat) = (match c with | .white => true | .black => false) ∧
      (∀ k, k < 8 → k ≠ 7 - (x % 8).toNat →
        v.getLsbD k = (s.fb.byte ((y * s.width + x) / 8).toNat).getLsbD k) ∧
      (∀ a, a ≠ ((y * s.width + x) / 8).toNat → t.fb.read a = s.fb.read a)

/-- Rules R53, R104 (c): an out-of-range `set_pixel` is the identity but for `CP` and rule R176's `PSTATE`; no fault. -/
def Obligations.SetPixelOutOfRangeIsANoOp : Prop :=
  ∀ (s : State) (x y : Int) (c : Color), s.fbValid = true →
    (x < 0 ∨ (s.width : Int) ≤ x ∨ y < 0 ∨ (s.height : Int) ≤ y) →
    exec (.setPixel x y c) s = .next { s with
      pstate := if s.pstate = .ready ∨ s.pstate = .deepCleaning then .rendering else s.pstate
      cp := s.cp + 3
      wait := none }

/-- Rule R102: `get_pixel` puts the pixel's color into `RES`, or `RES.VALID = 0` out of range, and changes nothing else but
`CP`; it does not move `PSTATE`. -/
def Obligations.GetPixelReadsThePixel : Prop :=
  ∀ (s : State) (x y : Int), s.fbValid = true →
    (0 ≤ x ∧ x < s.width ∧ 0 ≤ y ∧ y < s.height →
      exec (.getPixel x y) s = .next { s with
        res := some (if (s.fb.byte ((y * s.width + x) / 8).toNat).getLsbD (7 - (x % 8).toNat) then .white else .black)
        cp := s.cp + 3
        wait := none }) ∧
    (x < 0 ∨ (s.width : Int) ≤ x ∨ y < 0 ∨ (s.height : Int) ≤ y →
      exec (.getPixel x y) s = .next { s with res := none, cp := s.cp + 3, wait := none })

/-- Rules R64 (a), R104 (a): `set_pixel` then `get_pixel` returns the color written. -/
def Obligations.SetThenGetReturnsTheColor : Prop :=
  ∀ (s : State) (x y : Int) (c : Color), s.fbValid = true → 0 ≤ x → x < s.width → 0 ≤ y → y < s.height →
    ∃ t u, exec (.setPixel x y c) s = .next t ∧ exec (.getPixel x y) t = .next u ∧ u.res = some c

/-- Rule R104 (d), (e): two `set_pixel` to different pixels commute; to the same pixel the later wins (so twice is once). -/
def Obligations.SetPixelsCommuteOrTheLaterWins : Prop :=
  ∀ (s : State) (x y x' y' : Int) (c c' : Color), Drawable s →
    ∃ t u t' u', exec (.setPixel x y c) s = .next t ∧ exec (.setPixel x' y' c') t = .next u ∧
      exec (.setPixel x' y' c') s = .next t' ∧ exec (.setPixel x y c) t' = .next u' ∧
      ((x, y) ≠ (x', y') → ∀ a, u.fb.read a = u'.fb.read a) ∧
      ((x, y) = (x', y') → ∀ a, u.fb.read a = t'.fb.read a)

/-- Rule R103: `fb_fill` writes every byte of the picture, `0x00` for black and `0xFF` for white, and nothing else but `CP`
and rule R176's `PSTATE`. -/
def Obligations.FbFillWritesEveryByte : Prop :=
  ∀ (s : State) (c : Color), s.fbValid = true →
    ∃ t, exec (.fbFill c) s = .next t ∧
      t = { s with
            fb := t.fb
            pstate := if s.pstate = .ready ∨ s.pstate = .deepCleaning then .rendering else s.pstate
            cp := s.cp + 1
            wait := none } ∧
      (∀ a, t.fb.read a =
        if a < s.width * s.height / 8 then some (match c with | .black => 0x00 | .white => 0xFF) else s.fb.read a)

/-! ## Raster -/

/-- Rules R110, R111 (b): `fill_rect` draws the half-open rectangle `[x, x+w) × [y, y+h)`; with a non-positive size nothing. -/
def Obligations.FillRectDrawsTheRectangle : Prop :=
  ∀ (s : State) (x y w h : Int) (c : Color), Drawable s →
    ∃ t, exec (.fillRect x y w h c) s = .next t ∧
      Draws s t 5 fun px py c' => x ≤ px ∧ px < x + w ∧ y ≤ py ∧ py < y + h ∧ c' = c

/-- Rule R110: the clipped loop of the model gives the same memory as the per-pixel loop `for py in y .. y+h-1: for px in
x .. x+w-1: set_pixel(px, py, color)`. -/
def Obligations.FillRectIsThePixelLoop : Prop :=
  ∀ (w h : Nat) (m : Memory) (x y rw rh : Int) (c : Color),
    fillRect w h m x y rw rh c =
      (List.range rh.toNat).foldl
        (fun m (j : Nat) => (List.range rw.toNat).foldl (fun m (i : Nat) => setPixel w h m (x + i) (y + j) c) m) m

/-- Rules R103, R111 (a): `fill_rect 0, 0, WIDTH, HEIGHT, c` gives all `0x00` bytes for black and all `0xFF` bytes for
white, which is what `fb_fill c` gives. -/
def Obligations.FillingTheWholeFrameIsFbFill : Prop :=
  ∀ (s : State) (c : Color), Drawable s →
    ∃ t u, exec (.fillRect 0 0 s.width s.height c) s = .next t ∧ exec (.fbFill c) s = .next u ∧
      (∀ a, a < s.width * s.height / 8 → t.fb.byte a = match c with | .black => 0x00 | .white => 0xFF) ∧
      (∀ a, t.fb.byte a = u.fb.byte a)

/-- Rules R112, R113, R114 (c), (d): `draw_line` draws exactly the pixels of the Bresenham line, here in closed form: one
pixel for each step of the driving axis, at the cross coordinate the error accumulator leads to; the horizontal and the
vertical case give the pixels of the general one. -/
def Obligations.DrawLineDrawsTheBresenhamPixels : Prop :=
  ∀ (s : State) (x0 y0 x1 y1 : Int) (c : Color), Drawable s →
    ∃ t, exec (.drawLine x0 y0 x1 y1 c) s = .next t ∧
      Draws s t 5 fun px py c' => OnLine x0 y0 x1 y1 px py ∧ c' = c

/-- Rules R112, R114 (a): a horizontal line is the `fill_rect` of its inclusive x-range, a vertical one that of its
inclusive y-range. -/
def Obligations.AxisLinesAreRectangles : Prop :=
  ∀ (s : State) (x x' y y' : Int) (c : Color),
    exec (.drawLine x y x' y c) s = exec (.fillRect (min x x') y ((x' - x).natAbs + 1) 1 c) s ∧
    exec (.drawLine x y x y' c) s = exec (.fillRect x (min y y') 1 ((y' - y).natAbs + 1) c) s

/-- Rule R114 (b): both end points of a line are plotted where they are in range. -/
def Obligations.LinesPlotBothEndPoints : Prop :=
  ∀ (s : State) (x0 y0 x1 y1 : Int) (c : Color), Drawable s →
    ∃ t, exec (.drawLine x0 y0 x1 y1 c) s = .next t ∧
      (InFrame s x0 y0 → pixelColor t x0 y0 = c) ∧ (InFrame s x1 y1 → pixelColor t x1 y1 = c)

/-- Rules R115 to R118: `draw_circle` draws the eight symmetric points, or the four symmetric spans, of every `(x, y)` that
the midpoint walk visits, and nothing else. -/
def Obligations.DrawCircleDrawsTheMidpointWalk : Prop :=
  ∀ (s : State) (cx cy r : Int) (c : Color) (filled : Bool), Drawable s →
    ∃ t, exec (.drawCircle cx cy r c filled) s = .next t ∧
      Draws s t 4 fun px py c' => (if filled then InDisc cx cy r px py else OnCircle cx cy r px py) ∧ c' = c

/-- Rule R116: a radius of 0 draws the one pixel `(cx, cy)` in both modes, a negative radius draws nothing. -/
def Obligations.SmallCirclesDrawOnePixelOrNone : Prop :=
  ∀ (s : State) (cx cy r : Int) (c : Color) (filled : Bool), Drawable s → r ≤ 0 →
    ∃ t, exec (.drawCircle cx cy r c filled) s = .next t ∧
      Draws s t 4 fun px py c' => r = 0 ∧ px = cx ∧ py = cy ∧ c' = c

/-- Rule R119 (a): the drawn set of an outline or a disc is symmetric under the eight symmetries of the square about its
center: drawn on a framebuffer of the other color, an in-range pixel and each of its eight images that is in range have one
color, whatever other images are clipped. -/
def Obligations.CirclesAreSymmetric : Prop :=
  ∀ (s : State) (cx cy r : Int) (c : Color) (filled : Bool), Drawable s →
    (∀ x y, InFrame s x y → pixelColor s x y = otherColor c) →
    ∃ t, exec (.drawCircle cx cy r c filled) s = .next t ∧
      ∀ dx dy ex ey : Int, (ex, ey) ∈ squareImages dx dy → InFrame s (cx + dx) (cy + dy) →
        InFrame s (cx + ex) (cy + ey) → pixelColor t (cx + ex) (cy + ey) = pixelColor t (cx + dx) (cy + dy)

/-- Rules R116, R119 (b): the disc contains the outline, neither paints a pixel farther than the radius from the center
along an axis, and an outline of radius at least 1 touches its four extreme points. -/
def Obligations.DiscContainsOutlineWithinTheRadius : Prop :=
  ∀ (s : State) (cx cy r : Int) (c : Color), Drawable s →
    ∃ t u, exec (.drawCircle cx cy r c false) s = .next t ∧ exec (.drawCircle cx cy r c true) s = .next u ∧
      (∀ x y, InFrame s x y → pixelColor t x y ≠ pixelColor s x y → pixelColor u x y = c) ∧
      (∀ x y, InFrame s x y → (r < (x - cx).natAbs ∨ r < (y - cy).natAbs) →
        pixelColor t x y = pixelColor s x y ∧ pixelColor u x y = pixelColor s x y) ∧
      (1 ≤ r → ∀ x y, InFrame s x y →
        (((x - cx).natAbs = r ∧ y = cy) ∨ (x = cx ∧ (y - cy).natAbs = r)) → pixelColor t x y = c)

/-! ## Text and grid -/

/-- Rules R131 to R133: with a well-formed answer, `draw_text` draws every cell opaquely: ink in `color`, the rest in the
other color, rows read bottom-first and columns MSB-first, the pen advancing by the widths. -/
def Obligations.DrawTextDrawsOpaqueCells : Prop :=
  ∀ (s : State) (x y font : Int) (chars : List Word) (c : Color), Drawable s →
    AnswerWellFormed chars.length (s.glyphAnswer font chars) →
    ∃ t, exec (.drawText x y font chars c) s = .next t ∧
      Draws s t (5 + chars.length) (InText (s.glyphAnswer font chars) x y 1 c)

/-- Rule R134: `draw_text_scaled` draws every logical pixel as a `scale` by `scale` block; with `scale <= 0` nothing. -/
def Obligations.DrawTextScaledDrawsBlocks : Prop :=
  ∀ (s : State) (x y font scale : Int) (chars : List Word) (c : Color), Drawable s →
    AnswerWellFormed chars.length (s.glyphAnswer font chars) →
    ∃ t, exec (.drawTextScaled x y font scale chars c) s = .next t ∧
      Draws s t (6 + chars.length) (InText (s.glyphAnswer font chars) x y scale c) ∧
      (scale ≤ 0 → ∀ a, t.fb.read a = s.fb.read a)

/-- Rule R135 (a): `draw_text_scaled` at scale 1 has exactly the effect on `FB` of `draw_text`. -/
def Obligations.ScaleOneTextIsPlainText : Prop :=
  ∀ (s : State) (x y font : Int) (chars : List Word) (c : Color),
    ∃ t u, exec (.drawTextScaled x y font 1 chars c) s = .next t ∧ exec (.drawText x y font chars c) s = .next u ∧
      t.fb = u.fb

/-- Rule R135 (c): inside the text's cells, drawing with white gives the complement of drawing with black. -/
def Obligations.WhiteTextComplementsBlackText : Prop :=
  ∀ (s : State) (x y font : Int) (chars : List Word), Drawable s →
    AnswerWellFormed chars.length (s.glyphAnswer font chars) →
    ∃ t u, exec (.drawText x y font chars .black) s = .next t ∧ exec (.drawText x y font chars .white) s = .next u ∧
      ∀ px py, InFrame s px py → (∃ c, InText (s.glyphAnswer font chars) x y 1 .black px py c) →
        pixelColor u px py = otherColor (pixelColor t px py)

/-- Rules R140, R141: with a payload that is large enough, `draw_module_grid` draws every cell as a `module_px` square
block, black for a 1 bit and white for a 0 bit, and nothing else. -/
def Obligations.DrawModuleGridDrawsItsCells : Prop :=
  ∀ (s : State) (x y modulePx sideN : Int) (bits : List Byte), Drawable s →
    (0 < sideN → sideN * sideN ≤ 8 * bits.length) →
    ∃ t, exec (.drawModuleGrid x y modulePx sideN bits) s = .next t ∧
      Draws s t (6 + (bits.length + 3) / 4) (InGrid bits x y modulePx sideN)

/-- Rule R143: after `draw_module_grid` with `module_px >= 1`, `get_pixel` at every in-range pixel of a cell's block, its
top-left pixel among them, returns the complement of the cell's bit. -/
def Obligations.ModuleGridRoundTrips : Prop :=
  ∀ (s : State) (x y modulePx sideN mx my : Int) (bits : List Byte) (px py : Int), Drawable s → 1 ≤ modulePx →
    sideN * sideN ≤ 8 * bits.length → 0 ≤ mx → mx < sideN → 0 ≤ my → my < sideN →
    x + mx * modulePx ≤ px → px < x + (mx + 1) * modulePx → y + my * modulePx ≤ py → py < y + (my + 1) * modulePx →
    InFrame s px py →
    ∃ t u, exec (.drawModuleGrid x y modulePx sideN bits) s = .next t ∧ exec (.getPixel px py) t = .next u ∧
      u.res = some (if CellBit bits sideN mx my then .black else .white)

/-! ## Display link -/

/-- Rule R151: `send_command` drives the mode line to command, asserts chip-select, sends the one byte and deasserts
chip-select, in any state; nothing else changes but `CP`. -/
def Obligations.SendCommandFramesItsByte : Prop :=
  ∀ (s : State) (opcode : Byte),
    exec (.sendCommand opcode) s = .next { s with
      dc := .command
      cs := .deasserted
      trace := s.trace ++ [.pinDc .command, .pinCs .asserted, .bus [opcode], .pinCs .deasserted]
      cp := s.cp + 2
      wait := none }

/-- Rule R152: `send_data` sends the payload in one write inside one chip-select window in data mode; an empty payload makes
no write. -/
def Obligations.SendDataFramesThePayload : Prop :=
  ∀ (s : State) (bytes : List Byte),
    exec (.sendData bytes) s = .next { s with
      dc := .data
      cs := .deasserted
      trace := s.trace ++ ([.pinDc .data, .pinCs .asserted] ++
        (if bytes = [] then [] else [.bus bytes]) ++ [.pinCs .deasserted])
      cp := s.cp + (2 + (bytes.length + 3) / 4)
      wait := none }

/-- Rule R153: `send_data_chunked` sends consecutive slices of the payload, none empty, each of exactly `chunk_size` bytes
but the last, inside one chip-select window in data mode. -/
def Obligations.SendDataChunkedSendsMaximalChunks : Prop :=
  ∀ (s : State) (k : Int) (bytes : List Byte), 0 < k →
    ∃ (t : State) (chunks : List (List Byte)), exec (.sendDataChunked k bytes) s = .next t ∧
      t = { s with
            dc := .data
            cs := .deasserted
            trace := s.trace ++ ([.pinDc .data, .pinCs .asserted] ++ chunks.map Event.bus ++ [.pinCs .deasserted])
            cp := s.cp + (3 + (bytes.length + 3) / 4)
            wait := none } ∧
      chunks.flatten = bytes ∧
      ∀ (n : Nat) (c : List Byte), chunks[n]? = some c →
        0 < c.length ∧ (c.length : Int) ≤ k ∧ (n + 1 < chunks.length → (c.length : Int) = k)

/-- Rule R154: for every payload and every `chunk_size >= 1`, the panel sees the same of `send_data_chunked` as of
`send_data`: the single transaction `(Data, bytes)`. -/
def Obligations.ChunksAreInvisibleOnTheWire : Prop :=
  ∀ (s : State) (k : Int) (bytes : List Byte), 1 ≤ k →
    ∃ t u es fs, exec (.sendDataChunked k bytes) s = .next t ∧ t.trace = s.trace ++ es ∧
      exec (.sendData bytes) s = .next u ∧ u.trace = s.trace ++ fs ∧
      wire s.dc es = [⟨.data, bytes⟩] ∧ wire s.dc fs = [⟨.data, bytes⟩]

/-- Rules R155, R157: when the busy line reads `Low` `n` times, fewer than a bound allows, and then `High`,
`wait_until_idle` completes after `n + 1` polls, each a sleep and then a read; nothing changes but `TRACE` and `CP` (and the
input, which is used up). That one poll is one step is the model's choice (log 3). -/
def Obligations.WaitCompletesAtTheFirstHigh : Prop :=
  ∀ (s : State) (n : Nat) (rest : List PinLevel), s.wait = none →
    (∀ limit, s.env.platform.busyTimeoutPolls = some limit → n < limit) →
    s.env.busyIn = List.replicate n .low ++ .high :: rest →
    execTimes .waitUntilIdle (n + 1) s = .next { s with
      trace := s.trace ++ pollEvents s.env.platform.pollMs n
      cp := s.cp + 1
      env := { s.env with busyIn := rest, busyReads := s.env.busyReads + (n + 1) } }

/-- Rules R155, R156, R172, R173, R175, R177: a read of `Low` below a bound, if there is one, leaves the command waiting. A
command found inside its wait keeps `CP`, `FAULT`, `PSTATE`, the lines and the framebuffer as they were, and adds one sleep
and one read to the trace; a command that begins, its entry tests passed, does its first part before that. With no bound and `Low` for ever this is the hang. That one poll is one step is the model's choice (log 3). -/
def Obligations.LowReadsKeepTheCommandWaiting : Prop :=
  ∀ (i : Instr) (s u : State) (n : Nat) (rest : List PinLevel), commandWaits i = true →
    (s.wait = some n ∧ u = s ∨ s.wait = none ∧ n = 0 ∧ RaisesAtEntry s i .noFault ∧ u = beforeWait i s) →
    (∀ limit, s.env.platform.busyTimeoutPolls = some limit → n + 1 < limit) → s.env.busyIn = .low :: rest →
    exec i s = .next { u with
      trace := u.trace ++ [.sleep s.env.platform.pollMs, .busyRead .low]
      wait := some (n + 1)
      env := { s.env with busyIn := rest, busyReads := s.env.busyReads + 1 } }

/-- Rules R157, R181: with `BUSY_TIMEOUT_POLLS = some N`, the `N`-th consecutive `Low` read of a wait raises
`PanelUnresponsive`: the events emitted stay, the lines and `PSTATE` keep the values they have at that moment, `CP` stays.
With `N = 1` it is the first read, after the command's first part: `PSTATE` is then the entry state, and `Configuring` in
`panel_configure`. That one poll is one step is the model's choice (log 3). -/
def Obligations.TimeoutRaisesPanelUnresponsive : Prop :=
  ∀ (i : Instr) (s u : State) (n : Nat) (rest : List PinLevel), commandWaits i = true →
    (s.wait = some n ∧ u = s ∨ s.wait = none ∧ n = 0 ∧ RaisesAtEntry s i .noFault ∧ u = beforeWait i s) →
    s.env.platform.busyTimeoutPolls = some (n + 1) → s.env.busyIn = .low :: rest →
    exec i s = .next { u with
      trace := u.trace ++ [.sleep s.env.platform.pollMs, .busyRead .low]
      fault := .panelUnresponsive
      wait := none
      env := { s.env with busyIn := rest, busyReads := s.env.busyReads + 1 } }

/-! ## Panel -/

/-- Rules R155, R172: `panel_reset` from `Unpowered` pulses the reset line with its two holds, waits through any number of
`Low` reads below a bound and ends in `Resetting`. That one poll is one step is the model's choice (log 3). -/
def Obligations.PanelResetPulsesTheResetLine : Prop :=
  ∀ (s : State) (n : Nat) (rest : List PinLevel), s.wait = none → s.pstate = .unpowered →
    (∀ limit, s.env.platform.busyTimeoutPolls = some limit → n < limit) →
    s.env.busyIn = List.replicate n .low ++ .high :: rest →
    execTimes .panelReset (n + 1) s = .next { s with
      rst := .high
      trace := s.trace ++ [.pinRst .low, .sleep 200, .pinRst .high, .sleep 200] ++ pollEvents s.env.platform.pollMs n
      pstate := .resetting
      cp := s.cp + 1
      env := { s.env with busyIn := rest, busyReads := s.env.busyReads + (n + 1) } }

/-- Rules R155, R171, R173: `panel_configure` from `Resetting` sends the eight panel commands in the fixed order with
one wait directly after panel-on, through any number of `Low` reads below a bound, and ends in `Ready`. That one poll is one
step is the model's choice (log 3). -/
def Obligations.PanelConfigureSendsTheSequence : Prop :=
  ∀ (s : State) (n : Nat) (rest : List PinLevel), s.wait = none → s.pstate = .resetting →
    (∀ limit, s.env.platform.busyTimeoutPolls = some limit → n < limit) →
    s.env.busyIn = List.replicate n .low ++ .high :: rest →
    execTimes .panelConfigure (n + 1) s = .next { s with
      cs := .deasserted
      dc := if s.env.platform.panelOps.payTcon = [] then .command else .data
      trace := s.trace ++ panelOnTrace s.env.platform.panelOps ++ pollEvents s.env.platform.pollMs n ++
        afterPanelOnTrace s.env.platform.panelOps
      pstate := .ready
      cp := s.cp + 1
      env := { s.env with busyIn := rest, busyReads := s.env.busyReads + (n + 1) } }

/-- Rules R153, R155, R171, R175: `panel_deep_clean` from `Ready` sends an all-black plane, an all-white plane and one
refresh, waits through any number of `Low` reads below a bound and ends in `DeepCleaning`; the framebuffer is neither read
nor written. That one poll is one step is the model's choice (log 3). -/
def Obligations.DeepCleanSendsBlackThenWhite : Prop :=
  ∀ (s : State) (n : Nat) (rest : List PinLevel), s.wait = none → s.pstate = .ready →
    (∀ limit, s.env.platform.busyTimeoutPolls = some limit → n < limit) →
    s.env.busyIn = List.replicate n .low ++ .high :: rest →
    let es := refreshTrace s.env.platform.panelOps blackPlane whitePlane
    execTimes .panelDeepClean (n + 1) s = .next { s with
      cs := .deasserted
      dc := .command
      trace := s.trace ++ es ++ pollEvents s.env.platform.pollMs n
      pstate := .deepCleaning
      cp := s.cp + 1
      env := { s.env with busyIn := rest, busyReads := s.env.busyReads + (n + 1) } } ∧
    wire s.dc es =
      [⟨.command, [s.env.platform.panelOps.opDataTransfer1]⟩, ⟨.data, List.replicate 4736 0x00⟩,
       ⟨.command, [s.env.platform.panelOps.opDataTransfer2]⟩, ⟨.data, List.replicate 4736 0xFF⟩,
       ⟨.command, [s.env.platform.panelOps.opDisplayRefresh]⟩] ∧
    (∀ bytes, Event.bus bytes ∈ es → bytes.length ≤ 1024)

/-- Rules R153, R155, R171, R177: `panel_refresh` sends an all-white plane, then the framebuffer's 4736 bytes verbatim, byte
0 first, then one refresh, waits through any number of `Low` reads below a bound, holds the settle delay and ends in
`Refreshing`; the framebuffer is not written. That one poll is one step is the model's choice (log 3). -/
def Obligations.RefreshSendsTheFramebuffer : Prop :=
  ∀ (s : State) (n : Nat) (rest : List PinLevel), s.wait = none →
    (s.pstate = .ready ∨ s.pstate = .deepCleaning ∨ s.pstate = .rendering) →
    s.fbValid = true → s.width = 128 → s.height = 296 →
    (∀ limit, s.env.platform.busyTimeoutPolls = some limit → n < limit) →
    s.env.busyIn = List.replicate n .low ++ .high :: rest →
    let es := refreshTrace s.env.platform.panelOps whitePlane (framePlane s)
    execTimes .panelRefresh (n + 1) s = .next { s with
      cs := .deasserted
      dc := .command
      trace := s.trace ++ es ++ pollEvents s.env.platform.pollMs n ++ [.sleep 1000]
      pstate := .refreshing
      cp := s.cp + 1
      env := { s.env with busyIn := rest, busyReads := s.env.busyReads + (n + 1) } } ∧
    wire s.dc es =
      [⟨.command, [s.env.platform.panelOps.opDataTransfer1]⟩, ⟨.data, List.replicate 4736 0xFF⟩,
       ⟨.command, [s.env.platform.panelOps.opDataTransfer2]⟩, ⟨.data, (List.range 4736).map s.fb.byte⟩,
       ⟨.command, [s.env.platform.panelOps.opDisplayRefresh]⟩] ∧
    (∀ bytes, Event.bus bytes ∈ es → bytes.length ≤ 1024)

/-- Rule R178: `panel_power_down` from `Refreshing` sends the power-off opcode, with no payload, wait or delay, and ends in
`PoweredDown`; elsewhere it raises `BadState`. -/
def Obligations.PowerDownSendsPowerOff : Prop :=
  ∀ s : State,
    (s.pstate = .refreshing →
      exec .panelPowerDown s = .next { s with
        dc := .command
        cs := .deasserted
        trace := s.trace ++ [.pinDc .command, .pinCs .asserted, .bus [s.env.platform.panelOps.opPowerOff],
          .pinCs .deasserted]
        pstate := .poweredDown
        cp := s.cp + 1
        wait := none }) ∧
    (s.pstate ≠ .refreshing → exec .panelPowerDown s = .next { s with fault := .badState, wait := none })

/-- Rule R179, its table: a `panel_*` command in a state that is not its entry state raises `BadState` and changes nothing;
a command that completes, at its first poll or found inside its wait, leaves `PSTATE` as the table says. That one poll is
one step is the model's choice (log 3). -/
def Obligations.PanelStateTable : Prop :=
  ∀ (i : Instr) (s : State),
    (s.wait = none →
      ((i = .panelReset ∧ s.pstate ≠ .unpowered) ∨ (i = .panelConfigure ∧ s.pstate ≠ .resetting) ∨
        (i = .panelDeepClean ∧ s.pstate ≠ .ready) ∨
        (i = .panelRefresh ∧ s.pstate ≠ .ready ∧ s.pstate ≠ .deepCleaning ∧ s.pstate ≠ .rendering) ∨
        (i = .panelPowerDown ∧ s.pstate ≠ .refreshing)) →
      exec i s = .next { s with fault := .badState }) ∧
    (∀ t, exec i s = .next t → t.cp = s.cp + i.lengthWords →
      t.pstate =
        match i with
        | .panelReset => .resetting
        | .panelConfigure => .ready
        | .panelDeepClean => .deepCleaning
        | .panelRefresh => .refreshing
        | .panelPowerDown => .poweredDown
        | .fbCreate _ _ | .getPixel _ _ | .sendCommand _ | .sendData _ | .sendDataChunked _ _ | .waitUntilIdle => s.pstate
        | .setPixel _ _ _ | .fbFill _ | .fillRect _ _ _ _ _ | .drawLine _ _ _ _ _ | .drawCircle _ _ _ _ _
        | .drawText _ _ _ _ _ | .drawTextScaled _ _ _ _ _ _ | .drawModuleGrid _ _ _ _ _ =>
            if s.pstate = .ready ∨ s.pstate = .deepCleaning then .rendering else s.pstate)

/-! ## Reset and invariants -/

/-- Rules R36, R211: the values that the spec gives for reset. -/
def Obligations.ResetValues : Prop :=
  (∀ a, State.reset.fb.read a = none) ∧ State.reset.width = 0 ∧ State.reset.height = 0 ∧ State.reset.fbValid = false ∧
  State.reset.res = none ∧ State.reset.pstate = .unpowered ∧ State.reset.fault = .noFault ∧ State.reset.cp = 0 ∧
  State.reset.trace = []

/-- The invariants hold after reset. The level of chip-select after reset, a part of `LinkOk`, is the model's choice by the
host's premise R213 (b) (log 9); that no command is inside a wait is the model's own (log 3). -/
def Obligations.ResetMeetsTheInvariants : Prop :=
  FramebufferOk State.reset ∧ LinkOk State.reset ∧ SessionOk State.reset ∧ CpOk State.reset

/-- Rules R22, R53, R56, R100, R104 (g): every step keeps the framebuffer well formed: canonical memory inside the capacity,
a legal geometry, and a value in every byte of the picture. -/
def Obligations.StepKeepsTheFramebufferWellFormed : Prop :=
  ∀ s t : State, FramebufferOk s → step s = .next t → FramebufferOk t

/-- Rules R150, R158: every step keeps the interface framed: chip-select deasserted, windows closed and never nested, the
mode line constant inside a window, no empty bus write, no sleep of no time. -/
def Obligations.StepKeepsTheLinkFramed : Prop :=
  ∀ s t : State, LinkOk s → step s = .next t → LinkOk t

/-- Rules R27, R173, R181 (and log 3): every step keeps the session consistent. -/
def Obligations.StepKeepsTheSessionConsistent : Prop :=
  ∀ s t : State, SessionOk s → step s = .next t → SessionOk t

/-- Rules R24, R74: every step keeps `CP` inside the stream or at its end. -/
def Obligations.StepKeepsCpInTheStream : Prop :=
  ∀ s t : State, CpOk s → step s = .next t → CpOk t

/-- Rules R172 to R180: a step moves `PSTATE` along the table's transitions only; nothing leaves `PoweredDown`. -/
def Obligations.PanelStateMovesAlongTheChain : Prop :=
  ∀ s t : State, SessionOk s → step s = .next t → t.pstate = s.pstate ∨ PanelMove s.pstate t.pstate

/-- Rules R21, R50, R62, R70: no step changes the command stream, the provider's answers or the parameters. -/
def Obligations.StepKeepsStreamAndParameters : Prop :=
  ∀ s t : State, step s = .next t →
    t.env.stream = s.env.stream ∧ t.env.glyphTable = s.env.glyphTable ∧ t.env.platform = s.env.platform

/-- Rules R28, R31: `TRACE` is append-only, and the state of a line is the level last written to it. -/
def Obligations.TraceGrowsAndLinesFollowIt : Prop :=
  ∀ s t : State, step s = .next t →
    ∃ es, t.trace = s.trace ++ es ∧ t.cs = csAfter s.cs es ∧ t.dc = dcAfter s.dc es ∧ t.rst = rstAfter s.rst es

/-- Rules R25, R32: only `get_pixel` writes `RES`; only `fb_create` writes `WIDTH`, `HEIGHT` and `FB_VALID`. -/
def Obligations.OnlyTheirCommandsWriteResAndGeometry : Prop :=
  ∀ (i : Instr) (s t : State), exec i s = .next t →
    ((∀ x y, i ≠ .getPixel x y) → t.res = s.res) ∧
    ((∀ w h, i ≠ .fbCreate w h) → t.width = s.width ∧ t.height = s.height ∧ t.fbValid = s.fbValid)

/-- Rules R32, R60: between commands the host reads the status registers 0 to 6 and the bytes of the picture, and nothing
else; inside a command it reads nothing. The model's own: the reads are functions of the state (log 14), a command is seen
to be inside its wait by `wait` (log 3), and a status word is the low 32 bits of its number (log 15). -/
def Obligations.HostReadsBetweenCommands : Prop :=
  ∀ s : State,
    (s.wait = none →
      s.hostStatus 0 = some (BitVec.ofNat 32 s.width) ∧ s.hostStatus 1 = some (BitVec.ofNat 32 s.height) ∧
      s.hostStatus 2 = some (if s.fbValid then 1 else 0) ∧
      s.hostStatus 3 = some (match s.pstate with
        | .unpowered => 0 | .resetting => 1 | .configuring => 2 | .ready => 3
        | .deepCleaning => 4 | .rendering => 5 | .refreshing => 6 | .poweredDown => 7) ∧
      s.hostStatus 4 = some (match s.fault with
        | .noFault => 0 | .illegalCommand => 1 | .noFramebuffer => 2 | .badGeometry => 3 | .glyphMalformed => 4
        | .gridUndersized => 5 | .badChunkSize => 6 | .badState => 7 | .panelUnresponsive => 8) ∧
      (∀ c, s.res = some c → s.hostStatus 5 = some (match c with | .black => 2 | .white => 3)) ∧
      (s.res = none → s.hostStatus 5 = some 0 ∨ s.hostStatus 5 = some 1) ∧
      s.hostStatus 6 = some (BitVec.ofNat 32 s.cp) ∧ (∀ n, 6 < n → s.hostStatus n = none) ∧
      (∀ a, a < s.width * s.height / 8 → s.hostFbByte a = some (s.fb.byte a)) ∧
      (∀ a, s.width * s.height / 8 ≤ a → s.hostFbByte a = none)) ∧
    (s.wait ≠ none → (∀ n, s.hostStatus n = none) ∧ ∀ a, s.hostFbByte a = none)
end

