-- ==== Sys2Proof/Laws/Memory.lean ====
section
/-! SUPPORT. The laws of framebuffer memory: a read after a write, and the canonical form that every operation keeps. -/

namespace Sys2Proof.Machine

/-- A read after a write: the value written at the same address, the old value at every other. -/
theorem Memory.read_write (m : Memory) (a b : Nat) (v : Byte) :
    (m.write a v).read b = if b = a then some v else m.read b := by
  induction m with
  | nil =>
      rcases Nat.lt_trichotomy a b with h | h | h <;>
        simp [Memory.write, Memory.read] <;> split_ifs <;> first | rfl | omega
  | cons cell m ih =>
      obtain ⟨k, u⟩ := cell
      simp only [Memory.write]
      split_ifs with h1 h2 h3 h4 h5 <;> simp only [Memory.read] <;>
        split_ifs <;> first | rfl | omega | simp_all

theorem Memory.byte_write (m : Memory) (a b : Nat) (v : Byte) :
    (m.write a v).byte b = if b = a then v else m.byte b := by
  unfold Memory.byte
  rw [Memory.read_write]
  split <;> rfl

/-- The addresses of a written memory: the one written and the old ones. -/
theorem Memory.mem_write {m : Memory} {a : Nat} {v : Byte} {cell : Host.Cell} (h : cell ∈ m.write a v) :
    cell.1 = a ∨ cell ∈ m := by
  induction m with
  | nil => left; simp [Memory.write] at h; simp [h]
  | cons c m ih =>
      obtain ⟨k, u⟩ := c
      simp only [Memory.write] at h
      split_ifs at h with h1 h2
      · rcases List.mem_cons.1 h with rfl | h
        · simp
        · rcases ih h with h | h
          · exact .inl h
          · exact .inr (List.mem_cons_of_mem _ h)
      · rcases List.mem_cons.1 h with rfl | h
        · exact .inl rfl
        · exact .inr (List.mem_cons_of_mem _ h)
      · rcases List.mem_cons.1 h with rfl | h
        · exact .inl rfl
        · exact .inr h

/-- A write keeps the canonical form. -/
theorem Memory.wf_write {m : Memory} (h : m.wf) (a : Nat) (v : Byte) : (m.write a v).wf := by
  induction m with
  | nil => simp [Memory.write, Memory.wf]
  | cons c m ih =>
      obtain ⟨k, u⟩ := c
      rw [Memory.wf, List.pairwise_cons] at h
      simp only [Memory.write]
      split_ifs with h1 h2
      · refine List.pairwise_cons.2 ⟨fun cell hc => ?_, ih h.2⟩
        rcases Memory.mem_write hc with hc | hc
        · simpa [hc] using h1
        · exact h.1 cell hc
      · subst h2
        exact List.pairwise_cons.2 ⟨h.1, h.2⟩
      · refine List.pairwise_cons.2 ⟨fun cell hc => ?_, List.pairwise_cons.2 ⟨h.1, h.2⟩⟩
        have hk : a < k := by omega
        rcases List.mem_cons.1 hc with rfl | hc
        · exact hk
        · exact hk.trans (h.1 cell hc)

/-- Reading past cells of lower addresses. -/
theorem Memory.read_append_of_lt (l m : Memory) (a : Nat) (h : ∀ cell ∈ l, cell.1 < a) :
    Memory.read (l ++ m) a = Memory.read m a := by
  induction l with
  | nil => rfl
  | cons c l ih =>
      obtain ⟨k, u⟩ := c
      have hk : k < a := h (k, u) (by simp)
      simp only [List.cons_append, Memory.read, hk, if_true]
      exact ih fun cell hc => h cell (List.mem_cons_of_mem _ hc)

theorem Memory.read_filter (m : Memory) (n a : Nat) (h : n ≤ a) :
    Memory.read (m.filter fun cell => n ≤ cell.1) a = m.read a := by
  induction m with
  | nil => rfl
  | cons c m ih =>
      obtain ⟨k, u⟩ := c
      by_cases hk : n ≤ k
      · simp only [List.filter_cons, hk, decide_true, if_true, Memory.read, ih]
      · have : k < a := by omega
        simp only [List.filter_cons, hk, decide_false, Bool.false_eq_true, if_false, Memory.read, this, if_true, ih]

theorem Memory.read_range (n k a : Nat) (v : Byte) (m : Memory) (h : a < n) :
    Memory.read ((List.range' k n).map (fun i => (i, v)) ++ m) (k + a) = some v := by
  induction n generalizing k a with
  | zero => omega
  | succ n ih =>
      rw [List.range'_succ]
      simp only [List.map_cons, List.cons_append, Memory.read]
      rcases Nat.eq_zero_or_pos a with rfl | ha
      · simp
      · have h1 : k < k + a := by omega
        simp only [h1, if_true]
        have := ih (k + 1) (a - 1) (by omega)
        rwa [show k + 1 + (a - 1) = k + a by omega] at this

/-- A filled memory: the value below the bound, the old value from the bound on. -/
theorem Memory.read_fill (m : Memory) (n a : Nat) (v : Byte) :
    (m.fill n v).read a = if a < n then some v else m.read a := by
  unfold Memory.fill
  split_ifs with h
  · have := Memory.read_range n 0 a v (m.filter fun cell => n ≤ cell.1) h
    rwa [Nat.zero_add, ← List.range_eq_range'] at this
  · rw [Memory.read_append_of_lt, Memory.read_filter _ _ _ (by omega)]
    intro cell hc
    simp only [List.mem_map, List.mem_range] at hc
    obtain ⟨i, hi, rfl⟩ := hc
    exact lt_of_lt_of_le hi (by omega)

theorem Memory.byte_fill (m : Memory) (n a : Nat) (v : Byte) :
    (m.fill n v).byte a = if a < n then v else m.byte a := by
  unfold Memory.byte
  rw [Memory.read_fill]
  split <;> rfl

/-- Filling keeps the canonical form. -/
theorem Memory.wf_fill {m : Memory} (h : m.wf) (n : Nat) (v : Byte) : (m.fill n v).wf := by
  unfold Memory.wf Memory.fill
  refine List.pairwise_append.2 ⟨?_, h.filter _, ?_⟩
  · exact List.Pairwise.map _ (fun _ _ hab => hab) List.pairwise_lt_range
  · intro x hx y hy
    simp only [List.mem_map, List.mem_range] at hx
    obtain ⟨i, hi, rfl⟩ := hx
    exact lt_of_lt_of_le hi (by simpa using (List.mem_filter.1 hy).2)

/-- The addresses of a filled memory. -/
theorem Memory.mem_fill {m : Memory} {n : Nat} {v : Byte} {cell : Host.Cell} (h : cell ∈ m.fill n v) :
    cell.1 < n ∨ cell ∈ m := by
  rcases List.mem_append.1 h with h | h
  · simp only [List.mem_map, List.mem_range] at h
    obtain ⟨i, hi, rfl⟩ := h
    exact .inl hi
  · exact .inr (List.mem_filter.1 h).1

/-- Cells already passed do not matter to a later read. -/
theorem Memory.read_dropWhile (m : Memory) (a b : Nat) (h : a < b) :
    Memory.read (m.dropWhile fun cell => cell.1 ≤ a) b = m.read b := by
  induction m with
  | nil => rfl
  | cons c m ih =>
      obtain ⟨k, u⟩ := c
      by_cases hk : k ≤ a
      · have : k < b := by omega
        simp only [List.dropWhile_cons, hk, decide_true, if_true, ih, Memory.read, this]
      · simp [hk]

/-- A run of bytes is the bytes of its addresses, in order. -/
theorem Memory.bytesFrom_eq (m : Memory) (a n : Nat) :
    m.bytesFrom a n = (List.range' a n).map m.byte := by
  induction n generalizing m a with
  | zero => rfl
  | succ n ih =>
      rw [Memory.bytesFrom, List.range'_succ, List.map_cons, ih]
      congr 1
      refine List.map_congr_left fun b hb => ?_
      have : a < b := by have := (List.mem_range'_1.1 hb).1; omega
      simp [Memory.byte, Memory.read_dropWhile m a b this]

@[simp] theorem Memory.length_bytesFrom (m : Memory) (a n : Nat) : (m.bytesFrom a n).length = n := by
  simp [Memory.bytesFrom_eq]

end Sys2Proof.Machine
end

