-- ==== Sys2Proof/Laws/Paint.lean ====
section
/-! SUPPORT. What a drawing subroutine does to the pixels and to the bytes, as one relation that composes: painting one
pixel, painting in sequence, painting in a loop. -/

namespace Sys2Proof.Machine

/-- The color of a pixel of a memory (rules R11, R51). -/
def pixelOf (w : Nat) (m : Memory) (x y : Int) : Color :=
  colorOfBit ((m.byte (byteIndex w x y)).getLsbD (bitIndex x))

/-- From `m` to `m'` exactly the in-range pixels of `painted` got their color; every other pixel, and every byte that holds
no painted pixel, is as before. -/
structure Paints (w h : Nat) (m m' : Memory) (painted : Int → Int → Color → Prop) : Prop where
  drawn : ∀ x y c, inRange w h x y → painted x y c → pixelOf w m' x y = c
  kept : ∀ x y, inRange w h x y → (∀ c, ¬ painted x y c) → pixelOf w m' x y = pixelOf w m x y
  bytes : ∀ a, (∀ x y c, inRange w h x y → painted x y c → byteIndex w x y ≠ a) → m'.read a = m.read a

theorem Paints.refl (w h : Nat) (m : Memory) : Paints w h m m fun _ _ _ => False :=
  ⟨fun _ _ _ _ hp => hp.elim, fun _ _ _ _ => rfl, fun _ _ => rfl⟩

/-- Only what is painted in range matters. -/
theorem Paints.congr {w h : Nat} {m m' : Memory} {p q : Int → Int → Color → Prop} (hp : Paints w h m m' p)
    (hpq : ∀ x y c, inRange w h x y → (p x y c ↔ q x y c)) : Paints w h m m' q :=
  ⟨fun x y c hr hq => hp.drawn x y c hr ((hpq x y c hr).2 hq),
   fun x y hr hq => hp.kept x y hr fun c hc => hq c ((hpq x y c hr).1 hc),
   fun a ha => hp.bytes a fun x y c hr hc => ha x y c hr ((hpq x y c hr).1 hc)⟩

/-- Painting twice: where both paint a pixel they agree on its color. -/
theorem Paints.trans {w h : Nat} {m m' m'' : Memory} {p q : Int → Int → Color → Prop} (hp : Paints w h m m' p)
    (hq : Paints w h m' m'' q) (hc : ∀ x y c c', inRange w h x y → p x y c → q x y c' → c = c') :
    Paints w h m m'' fun x y c => p x y c ∨ q x y c := by
  refine ⟨fun x y c hr hpq => ?_, fun x y hr hn => ?_, fun a ha => ?_⟩
  · by_cases hex : ∃ c', q x y c'
    · obtain ⟨c', hc'⟩ := hex
      rw [hq.drawn x y c' hr hc']
      rcases hpq with h1 | h1
      · exact (hc x y c c' hr h1 hc').symm
      · exact (hq.drawn x y c' hr hc').symm.trans (hq.drawn x y c hr h1)
    · have hex' : ∀ c', ¬ q x y c' := fun c' h1 => hex ⟨c', h1⟩
      rw [hq.kept x y hr hex']
      rcases hpq with h1 | h1
      · exact hp.drawn x y c hr h1
      · exact (hex' c h1).elim
  · rw [hq.kept x y hr fun c h1 => hn c (.inr h1), hp.kept x y hr fun c h1 => hn c (.inl h1)]
  · rw [hq.bytes a fun x y c hr h1 => ha x y c hr (.inr h1), hp.bytes a fun x y c hr h1 => ha x y c hr (.inl h1)]

/-- A loop of paintings that agree on colors paints what its turns paint. -/
theorem Paints.foldl {α : Type} {w h : Nat} (step : Memory → α → Memory) (p : α → Int → Int → Color → Prop)
    (l : List α) (hs : ∀ m, ∀ i ∈ l, Paints w h m (step m i) (p i))
    (hc : ∀ i ∈ l, ∀ j ∈ l, ∀ x y c c', inRange w h x y → p i x y c → p j x y c' → c = c') (m : Memory) :
    Paints w h m (l.foldl step m) fun x y c => ∃ i ∈ l, p i x y c := by
  induction l generalizing m with
  | nil => exact (Paints.refl w h m).congr fun _ _ _ _ => by simp
  | cons i l ih =>
      have h1 := hs m i (by simp)
      have h2 := ih (fun m j hj => hs m j (List.mem_cons_of_mem _ hj))
        (fun j hj k hk => hc j (List.mem_cons_of_mem _ hj) k (List.mem_cons_of_mem _ hk)) (step m i)
      refine (h1.trans h2 ?_).congr fun x y c _ => by simp
      rintro x y c c' hr hp ⟨j, hj, hq⟩
      exact hc i (by simp) j (List.mem_cons_of_mem _ hj) x y c c' hr hp hq

/-! ## One pixel -/

/-- With rows of whole bytes, two in-range pixels on one bit are one pixel (rules R51, R57). -/
theorem pixel_unique {w h : Nat} (hw : w % 8 = 0) {x y px py : Int} (h1 : inRange w h x y) (h2 : inRange w h px py)
    (hb : byteIndex w x y = byteIndex w px py) (hk : bitIndex x = bitIndex px) : x = px ∧ y = py := by
  obtain ⟨hx0, hxw, hy0, -⟩ := h1
  obtain ⟨hp0, hpw, hq0, -⟩ := h2
  obtain ⟨n, rfl⟩ : ∃ n : Nat, w = 8 * n := ⟨w / 8, by omega⟩
  unfold byteIndex at hb
  unfold bitIndex at hk
  have hcast : ((8 * n : Nat) : Int) = 8 * (n : Int) := by push_cast; ring
  rw [hcast] at hb hxw hpw
  have e1 : (y * (8 * (n : Int)) + x) / 8 = y * n + x / 8 := by
    rw [show y * (8 * (n : Int)) + x = x + 8 * (y * n) by ring, Int.add_mul_ediv_left _ _ (by norm_num)]
    ring
  have e2 : (py * (8 * (n : Int)) + px) / 8 = py * n + px / 8 := by
    rw [show py * (8 * (n : Int)) + px = px + 8 * (py * n) by ring, Int.add_mul_ediv_left _ _ (by norm_num)]
    ring
  rw [e1, e2] at hb
  have hyn : 0 ≤ y * (n : Int) := by positivity
  have hqn : 0 ≤ py * (n : Int) := by positivity
  have hx8 : 0 ≤ x / 8 := by omega
  have hp8 : 0 ≤ px / 8 := by omega
  have hb' : y * n + x / 8 = py * n + px / 8 := by omega
  have hxn : x / 8 < n := by omega
  have hpn : px / 8 < n := by omega
  have hy : y = py := by
    rcases lt_trichotomy y py with hlt | heq | hgt
    · nlinarith
    · exact heq
    · nlinarith
  subst hy
  constructor
  · omega
  · rfl

theorem paintBit_getLsbD (v : Byte) (k j : Nat) (c : Color) (hk : k < 8) (hj : j < 8) :
    (paintBit v k c).getLsbD j = if j = k then bitOfColor c else v.getLsbD j := by
  interval_cases k <;> interval_cases j <;> cases c <;> simp [paintBit, bitOfColor]

theorem colorOfBit_bitOfColor (c : Color) : colorOfBit (bitOfColor c) = c := by
  cases c <;> rfl

theorem bitIndex_lt (x : Int) : bitIndex x < 8 := by
  unfold bitIndex; omega

/-- `set_pixel` paints its pixel (rule R101). -/
theorem paints_setPixel {w h : Nat} (hw : w % 8 = 0) (m : Memory) (x y : Int) (c : Color) :
    Paints w h m (setPixel w h m x y c) fun px py c' => px = x ∧ py = y ∧ c' = c := by
  by_cases hr : inRange w h x y
  · have hs : setPixel w h m x y c =
        m.write (byteIndex w x y) (paintBit (m.byte (byteIndex w x y)) (bitIndex x) c) := if_pos hr
    refine ⟨?_, ?_, ?_⟩
    · rintro px py c' - ⟨rfl, rfl, rfl⟩
      rw [hs, pixelOf, Memory.byte_write, if_pos rfl, paintBit_getLsbD _ _ _ _ (bitIndex_lt _) (bitIndex_lt _),
        if_pos rfl, colorOfBit_bitOfColor]
    · intro px py hp hn
      rw [hs, pixelOf, pixelOf, Memory.byte_write]
      split_ifs with hb
      · rw [paintBit_getLsbD _ _ _ _ (bitIndex_lt _) (bitIndex_lt _), if_neg, hb]
        intro hk
        obtain ⟨h1, h2⟩ := pixel_unique hw hp hr hb hk
        exact hn c ⟨h1, h2, rfl⟩
      · rfl
    · intro a ha
      rw [hs, Memory.read_write, if_neg]
      rintro rfl
      exact ha x y c hr ⟨rfl, rfl, rfl⟩ rfl
  · have hs : setPixel w h m x y c = m := if_neg hr
    rw [hs]
    refine (Paints.refl w h m).congr fun px py c' hp => ?_
    constructor
    · exact False.elim
    · rintro ⟨rfl, rfl, rfl⟩
      exact hr hp

/-! ## Rectangles -/

theorem mem_clipped (a n : Int) (limit i : Nat) : i ∈ clipped a n limit ↔ a ≤ i ∧ (i : Int) < a + n ∧ i < limit := by
  unfold clipped
  rw [List.mem_range'_1]
  omega

/-- `fill_rect` paints the half-open rectangle (rule R110). -/
theorem paints_fillRect {w h : Nat} (hw : w % 8 = 0) (m : Memory) (x y rw rh : Int) (c : Color) :
    Paints w h m (fillRect w h m x y rw rh c) fun px py c' =>
      x ≤ px ∧ px < x + rw ∧ y ≤ py ∧ py < y + rh ∧ c' = c := by
  unfold fillRect
  have hrow : ∀ (m : Memory) (py : Nat), Paints w h m
      ((clipped x rw w).foldl (fun m (px : Nat) => setPixel w h m px py c) m)
      fun qx qy c' => ∃ i ∈ clipped x rw w, qx = (i : Int) ∧ qy = (py : Int) ∧ c' = c := fun m py =>
    Paints.foldl (fun m (px : Nat) => setPixel w h m px py c) (fun i qx qy c' => qx = (i : Int) ∧ qy = (py : Int) ∧ c' = c)
      (clipped x rw w) (fun m i _ => paints_setPixel hw m i py c)
      (fun i _ j _ qx qy c1 c2 _ h1 h2 => h1.2.2.trans h2.2.2.symm) m
  refine (Paints.foldl _ (fun (py : Nat) qx qy c' => ∃ i ∈ clipped x rw w, qx = (i : Int) ∧ qy = (py : Int) ∧ c' = c)
    (clipped y rh h) (fun m py _ => hrow m py) ?_ m).congr ?_
  · rintro i - j - qx qy c1 c2 - ⟨_, -, -, -, rfl⟩ ⟨_, -, -, -, rfl⟩
    rfl
  · rintro qx qy c' ⟨h1, h2, h3, h4⟩
    constructor
    · rintro ⟨j, hj, i, hi, rfl, rfl, rfl⟩
      rw [mem_clipped] at hi hj
      exact ⟨hi.1, hi.2.1, hj.1, hj.2.1, rfl⟩
    · rintro ⟨e1, e2, e3, e4, rfl⟩
      refine ⟨qy.toNat, (mem_clipped ..).2 ⟨?_, ?_, ?_⟩, qx.toNat, (mem_clipped ..).2 ⟨?_, ?_, ?_⟩, ?_, ?_, rfl⟩ <;> omega

end Sys2Proof.Machine
end

