-- ==== Sys2Proof/Laws/Raster.lean ====
section
/-! SUPPORT. What the line and circle subroutines paint. -/

namespace Sys2Proof.Machine

/-! ## Lines -/

/-- The loop of rule R113 plots, `k` turns on, the driving coordinate `k` steps on and the cross coordinate as many steps on
as the error has gone negative. -/
theorem paints_lineLoop {w h : Nat} (plot : Memory → Int → Int → Memory) (p : Int → Int → Int → Int → Prop) (c : Color)
    (hplot : ∀ m dr cr, Paints w h m (plot m dr cr) fun x y c' => p dr cr x y ∧ c' = c)
    (aD aC sD sC : Int) (hC : 0 ≤ aC) (hCD : aC ≤ aD) :
    ∀ (turns : Nat) (m : Memory) (dr cr err : Int), 0 ≤ err → err < aD →
      Paints w h m (lineLoop plot aD aC sD sC turns m dr cr err) fun x y c' =>
        ∃ k : Int, 0 ≤ k ∧ k ≤ turns ∧
          p (dr + sD * k) (cr + sC * ((k * aC + (aD - 1 - err)) / aD)) x y ∧ c' = c := by
  have hz : ∀ err : Int, 0 ≤ err → err < aD → (aD - 1 - err) / aD = 0 := fun err h0 h1 =>
    Int.ediv_eq_zero_of_lt (by omega) (by omega)
  intro turns
  induction turns with
  | zero =>
      intro m dr cr err h0 h1
      refine (hplot m dr cr).congr fun x y c' _ => ?_
      constructor
      · rintro ⟨hp, rfl⟩
        exact ⟨0, le_rfl, le_rfl, by simpa [hz err h0 h1] using hp, rfl⟩
      · rintro ⟨k, hk0, hk1, hp, rfl⟩
        obtain rfl : k = 0 := by omega
        exact ⟨by simpa [hz err h0 h1] using hp, rfl⟩
  | succ n ih =>
      intro m dr cr err h0 h1
      have haD : 0 < aD := by omega
      -- the position `k` turns after the first one is the position `k + 1` turns after the start
      have shift : ∀ (q : Int → Int → Int → Int → Prop) (cr' err' : Int) (x y : Int) (c' : Color),
          (∀ k : Int, 0 ≤ k → cr' + sC * ((k * aC + (aD - 1 - err')) / aD) =
            cr + sC * (((k + 1) * aC + (aD - 1 - err)) / aD)) →
          (((p dr cr x y ∧ c' = c) ∨ ∃ k : Int, 0 ≤ k ∧ k ≤ n ∧
            p (dr + sD + sD * k) (cr' + sC * ((k * aC + (aD - 1 - err')) / aD)) x y ∧ c' = c) ↔
          ∃ k : Int, 0 ≤ k ∧ k ≤ ((n + 1 : Nat) : Int) ∧
            p (dr + sD * k) (cr + sC * ((k * aC + (aD - 1 - err)) / aD)) x y ∧ c' = c) := by
        intro _ cr' err' x y c' heq
        constructor
        · rintro (⟨hp, rfl⟩ | ⟨k, hk0, hk1, hp, rfl⟩)
          · exact ⟨0, le_rfl, by omega, by simpa [hz err h0 h1] using hp, rfl⟩
          · refine ⟨k + 1, by omega, by push_cast; omega, ?_, rfl⟩
            rw [heq k hk0] at hp
            rwa [show dr + sD * (k + 1) = dr + sD + sD * k by ring]
        · rintro ⟨k, hk0, hk1, hp, rfl⟩
          rcases eq_or_lt_of_le hk0 with rfl | hk
          · exact .inl ⟨by simpa [hz err h0 h1] using hp, rfl⟩
          · refine .inr ⟨k - 1, by omega, by push_cast at hk1; omega, ?_, rfl⟩
            rw [heq (k - 1) (by omega), sub_add_cancel]
            rwa [show dr + sD + sD * (k - 1) = dr + sD * k by ring]
      rw [lineLoop]
      split_ifs with hneg
      · refine ((hplot m dr cr).trans (ih (plot m dr cr) (dr + sD) (cr + sC) (err - aC + aD) (by omega) (by omega))
          ?_).congr fun x y c' _ => shift p (cr + sC) (err - aC + aD) x y c' fun k _ => ?_
        · rintro x y c1 c2 - ⟨-, rfl⟩ ⟨_, -, -, -, rfl⟩
          rfl
        · rw [show (k + 1) * aC + (aD - 1 - err) = k * aC + (aD - 1 - (err - aC + aD)) + aD by ring,
            Int.add_ediv_of_dvd_right (dvd_refl aD), Int.ediv_self haD.ne']
          ring
      · refine ((hplot m dr cr).trans (ih (plot m dr cr) (dr + sD) cr (err - aC) (by omega) (by omega))
          ?_).congr fun x y c' _ => shift p cr (err - aC) x y c' fun k _ => ?_
        · rintro x y c1 c2 - ⟨-, rfl⟩ ⟨_, -, -, -, rfl⟩
          rfl
        · rw [show (k + 1) * aC + (aD - 1 - err) = k * aC + (aD - 1 - (err - aC)) by ring]

theorem OnLine_horizontal (x0 x1 y px py : Int) :
    OnLine x0 y x1 y px py ↔ min x0 x1 ≤ px ∧ px < min x0 x1 + ((x1 - x0).natAbs + 1) ∧ y ≤ py ∧ py < y + 1 := by
  unfold OnLine
  simp only [sub_self, Int.natAbs_zero, Nat.cast_zero, Int.sign_zero, mul_zero, zero_add, zero_mul, add_zero,
    Int.natCast_nonneg, if_true]
  constructor
  · rintro ⟨k, hk0, hk1, rfl, rfl⟩
    rcases lt_trichotomy (x1 - x0) 0 with h | h | h
    · rw [Int.sign_eq_neg_one_of_neg h]; omega
    · rw [h, Int.sign_zero]; omega
    · rw [Int.sign_eq_one_of_pos h]; omega
  · rintro ⟨h1, h2, h3, h4⟩
    rcases lt_trichotomy (x1 - x0) 0 with h | h | h
    · rw [Int.sign_eq_neg_one_of_neg h]; exact ⟨x0 - px, by omega, by omega, by omega, by omega⟩
    · rw [h, Int.sign_zero]; exact ⟨0, by omega, by omega, by omega, by omega⟩
    · rw [Int.sign_eq_one_of_pos h]; exact ⟨px - x0, by omega, by omega, by omega, by omega⟩

theorem OnLine_vertical {y0 y1 : Int} (hy : y1 - y0 ≠ 0) (x px py : Int) :
    OnLine x y0 x y1 px py ↔ x ≤ px ∧ px < x + 1 ∧ min y0 y1 ≤ py ∧ py < min y0 y1 + ((y1 - y0).natAbs + 1) := by
  unfold OnLine
  have hn : ¬ ((y1 - y0).natAbs : Int) ≤ 0 := by omega
  simp only [sub_self, Int.natAbs_zero, Nat.cast_zero, Int.sign_zero, mul_zero, zero_mul, add_zero, hn, if_false]
  constructor
  · rintro ⟨k, hk0, hk1, rfl, rfl⟩
    rcases lt_trichotomy (y1 - y0) 0 with h | h | h
    · rw [Int.sign_eq_neg_one_of_neg h]; omega
    · exact (hy h).elim
    · rw [Int.sign_eq_one_of_pos h]; omega
  · rintro ⟨h1, h2, h3, h4⟩
    rcases lt_trichotomy (y1 - y0) 0 with h | h | h
    · rw [Int.sign_eq_neg_one_of_neg h]; exact ⟨y0 - py, by omega, by omega, by omega, by omega⟩
    · exact (hy h).elim
    · rw [Int.sign_eq_one_of_pos h]; exact ⟨py - y0, by omega, by omega, by omega, by omega⟩

/-- `draw_line` paints the line's pixels: the horizontal and vertical cases as well as the general one (rules R112 to
R114). -/
theorem paints_drawLine {w h : Nat} (hw : w % 8 = 0) (m : Memory) (x0 y0 x1 y1 : Int) (c : Color) :
    Paints w h m (drawLine w h m x0 y0 x1 y1 c) fun px py c' => OnLine x0 y0 x1 y1 px py ∧ c' = c := by
  unfold drawLine
  split_ifs with hy hx
  · obtain rfl : y1 = y0 := by omega
    refine (paints_fillRect hw m _ _ _ _ c).congr fun px py c' _ => ?_
    rw [OnLine_horizontal]
    tauto
  · obtain rfl : x1 = x0 := by omega
    refine (paints_fillRect hw m _ _ _ _ c).congr fun px py c' _ => ?_
    rw [OnLine_vertical hy]
    tauto
  · unfold bresenham OnLine
    simp only
    split_ifs with hd
    · refine (paints_lineLoop (fun m dr cr => setPixel w h m dr cr c) (fun dr cr x y => x = dr ∧ y = cr) c
        (fun m dr cr => (paints_setPixel hw m dr cr c).congr fun _ _ _ _ => by tauto) _ _ _ _ (by omega) hd
        _ m x0 y0 _ (by omega) (by omega)).congr fun px py c' _ => ?_
      constructor
      · rintro ⟨k, h1, h2, ⟨h3, h4⟩, h5⟩
        exact ⟨⟨k, h1, by omega, h3, h4⟩, h5⟩
      · rintro ⟨⟨k, h1, h2, h3, h4⟩, h5⟩
        exact ⟨k, h1, by omega, ⟨h3, h4⟩, h5⟩
    · refine (paints_lineLoop (fun m dr cr => setPixel w h m cr dr c) (fun dr cr x y => x = cr ∧ y = dr) c
        (fun m dr cr => (paints_setPixel hw m cr dr c).congr fun _ _ _ _ => by tauto) _ _ _ _ (by omega) (by omega)
        _ m y0 x0 _ (by omega) (by omega)).congr fun px py c' _ => ?_
      constructor
      · rintro ⟨k, h1, h2, ⟨h3, h4⟩, h5⟩
        exact ⟨⟨k, h1, by omega, h4, h3⟩, h5⟩
      · rintro ⟨⟨k, h1, h2, h3, h4⟩, h5⟩
        exact ⟨k, h1, by omega, ⟨h4, h3⟩, h5⟩

/-! ## Circles -/

/-- The walk of rule R115 from `(x, y, d)` on, read forwards: `WalkFrom x y d x' y' d'` says that it visits
`(x', y', d')`. -/
inductive WalkFrom : Int → Int → Int → Int → Int → Int → Prop where
  | here {x y d : Int} : y ≤ x → WalkFrom x y d x y d
  | straight {x y d x' y' d' : Int} : y ≤ x → d < 0 → WalkFrom x (y + 1) (d + 4 * y + 6) x' y' d' →
      WalkFrom x y d x' y' d'
  | inward {x y d x' y' d' : Int} : y ≤ x → 0 ≤ d → WalkFrom (x - 1) (y + 1) (d + 4 * (y - x) + 10) x' y' d' →
      WalkFrom x y d x' y' d'

theorem WalkFrom.bounds {x y d x' y' d' : Int} (hw : WalkFrom x y d x' y' d') : y ≤ y' ∧ y' ≤ x' ∧ x' ≤ x := by
  induction hw with
  | here h => exact ⟨le_rfl, h, le_rfl⟩
  | straight _ _ _ ih => omega
  | inward _ _ _ ih => omega

theorem CircleVisits.bounds {r x y d : Int} (hv : CircleVisits r x y d) : 0 ≤ y ∧ y ≤ x ∧ x ≤ r := by
  induction hv with
  | start h => omega
  | straight _ _ _ ih => omega
  | inward _ _ _ ih => omega

theorem CircleVisits.of_walkFrom {r x y d x' y' d' : Int} (hv : CircleVisits r x y d) (hw : WalkFrom x y d x' y' d') :
    CircleVisits r x' y' d' := by
  induction hw with
  | here _ => exact hv
  | straight _ hd hw' ih => exact ih (.straight hv hd (by have := hw'.bounds; omega))
  | inward _ hd hw' ih => exact ih (.inward hv hd (by have := hw'.bounds; omega))

/-- What the forward walk visits is what rule R115 visits. -/
theorem walkFrom_iff_circleVisits (r x y d : Int) : WalkFrom r 0 (3 - 2 * r) x y d ↔ CircleVisits r x y d := by
  constructor
  · intro h
    exact (CircleVisits.start (by have := h.bounds; omega)).of_walkFrom h
  · intro h
    have extend : ∀ {a b e x y d x' y' d' : Int}, WalkFrom a b e x y d → WalkFrom x y d x' y' d' →
        WalkFrom a b e x' y' d' := by
      intro a b e x y d x' y' d' h1 h2
      induction h1 with
      | here _ => exact h2
      | straight h3 h4 _ ih => exact .straight h3 h4 (ih h2)
      | inward h3 h4 _ ih => exact .inward h3 h4 (ih h2)
    induction h with
    | start h => exact .here h
    | straight hv hd hb ih => exact extend ih (.straight hv.bounds.2.1 hd (.here hb))
    | inward hv hd hb ih => exact extend ih (.inward hv.bounds.2.1 hd (.here hb))

/-- A walk whose body paints in one color paints what the bodies of the visited `(x, y)` paint. -/
theorem paints_circleLoop {w h : Nat} (body : Memory → Int → Int → Memory) (p : Int → Int → Int → Int → Prop) (c : Color)
    (hbody : ∀ m x y, 0 ≤ y → y ≤ x → Paints w h m (body m x y) fun px py c' => p x y px py ∧ c' = c) :
    ∀ (turns : Nat) (m : Memory) (x y d : Int), 0 ≤ y → x - y + 1 ≤ turns →
      Paints w h m (circleLoop body turns m x y d) fun px py c' =>
        (∃ x' y' d', WalkFrom x y d x' y' d' ∧ p x' y' px py) ∧ c' = c := by
  intro turns
  induction turns with
  | zero =>
      intro m x y d hy ht
      refine (Paints.refl w h m).congr fun px py c' _ => ?_
      constructor
      · exact False.elim
      · rintro ⟨⟨x', y', d', hw, -⟩, -⟩
        have := hw.bounds
        push_cast at ht
        omega
  | succ n ih =>
      intro m x y d hy ht
      push_cast at ht
      rw [circleLoop]
      split_ifs with hxy hd
      · refine ((hbody m x y hy hxy).trans (ih (body m x y) x (y + 1) (d + 4 * y + 6) (by omega) (by omega)) ?_).congr
          fun px py c' _ => ?_
        · rintro _ _ _ _ - ⟨-, rfl⟩ ⟨-, rfl⟩; rfl
        · constructor
          · rintro (⟨hp, rfl⟩ | ⟨⟨x', y', d', hw, hp⟩, rfl⟩)
            · exact ⟨⟨x, y, d, .here hxy, hp⟩, rfl⟩
            · exact ⟨⟨x', y', d', .straight hxy hd hw, hp⟩, rfl⟩
          · rintro ⟨⟨x', y', d', hw, hp⟩, rfl⟩
            cases hw with
            | here _ => exact .inl ⟨hp, rfl⟩
            | straight _ _ hw => exact .inr ⟨⟨x', y', d', hw, hp⟩, rfl⟩
            | inward _ hd' _ => omega
      · refine ((hbody m x y hy hxy).trans
          (ih (body m x y) (x - 1) (y + 1) (d + 4 * (y - x) + 10) (by omega) (by omega)) ?_).congr
          fun px py c' _ => ?_
        · rintro _ _ _ _ - ⟨-, rfl⟩ ⟨-, rfl⟩; rfl
        · constructor
          · rintro (⟨hp, rfl⟩ | ⟨⟨x', y', d', hw, hp⟩, rfl⟩)
            · exact ⟨⟨x, y, d, .here hxy, hp⟩, rfl⟩
            · exact ⟨⟨x', y', d', .inward hxy (by omega) hw, hp⟩, rfl⟩
          · rintro ⟨⟨x', y', d', hw, hp⟩, rfl⟩
            cases hw with
            | here _ => exact .inl ⟨hp, rfl⟩
            | straight _ hd' _ => omega
            | inward _ _ hw => exact .inr ⟨⟨x', y', d', hw, hp⟩, rfl⟩
      · refine (Paints.refl w h m).congr fun px py c' _ => ?_
        constructor
        · exact False.elim
        · rintro ⟨⟨x', y', d', hw, -⟩, -⟩
          have := hw.bounds
          omega

/-- The walk from the start paints what the bodies of the visited `(x, y)` paint (rule R115). -/
theorem paints_circleWalk {w h : Nat} (body : Memory → Int → Int → Memory) (p : Int → Int → Int → Int → Prop) (c : Color)
    (hbody : ∀ m x y, 0 ≤ y → y ≤ x → Paints w h m (body m x y) fun px py c' => p x y px py ∧ c' = c) (m : Memory)
    (r : Int) :
    Paints w h m (circleWalk body m r) fun px py c' => (∃ x y d, CircleVisits r x y d ∧ p x y px py) ∧ c' = c := by
  unfold circleWalk
  refine (paints_circleLoop body p c hbody (r + 1).toNat m r 0 (3 - 2 * r) le_rfl (by omega)).congr fun px py c' _ => ?_
  simp only [walkFrom_iff_circleVisits]

/-- Two paintings in one color. -/
theorem Paints.trans_one {w h : Nat} {m m' m'' : Memory} {p q : Int → Int → Prop} {c : Color}
    (hp : Paints w h m m' fun x y c' => p x y ∧ c' = c) (hq : Paints w h m' m'' fun x y c' => q x y ∧ c' = c) :
    Paints w h m m'' fun x y c' => (p x y ∨ q x y) ∧ c' = c := by
  refine (hp.trans hq ?_).congr fun x y c' _ => by tauto
  rintro x y c1 c2 - ⟨-, rfl⟩ ⟨-, rfl⟩
  rfl

theorem paints_outlineStep {w h : Nat} (hw : w % 8 = 0) (cx cy : Int) (c : Color) (m : Memory) (x y : Int) (hy : 0 ≤ y)
    (hx : y ≤ x) :
    Paints w h m (outlineStep w h cx cy c m x y) fun px py c' =>
      (((px - cx).natAbs = x ∧ (py - cy).natAbs = y) ∨ ((px - cx).natAbs = y ∧ (py - cy).natAbs = x)) ∧ c' = c := by
  have one : ∀ (m : Memory) (a b : Int), Paints w h m (setPixel w h m a b c) fun px py c' => (px = a ∧ py = b) ∧ c' = c :=
    fun m a b => (paints_setPixel hw m a b c).congr fun _ _ _ _ => by tauto
  unfold outlineStep
  simp only
  have h12 := (one m (cx + x) (cy + y)).trans_one (one _ (cx - x) (cy + y))
  split_ifs with h1 h2 h2
  all_goals
    try have h34 := (h12.trans_one (one _ (cx + x) (cy - y))).trans_one (one _ (cx - x) (cy - y))
  · refine (((((h34.trans_one (one _ (cx + y) (cy + x))).trans_one (one _ (cx - y) (cy + x))).trans_one
      (one _ (cx + y) (cy - x))).trans_one (one _ (cx - y) (cy - x)))).congr fun px py c' _ => ?_
    refine and_congr_left fun _ => ?_
    omega
  · refine (((((h12.trans_one (one _ (cx + y) (cy + x))).trans_one (one _ (cx - y) (cy + x))).trans_one
      (one _ (cx + y) (cy - x))).trans_one (one _ (cx - y) (cy - x)))).congr fun px py c' _ => ?_
    refine and_congr_left fun _ => ?_
    omega
  · refine h34.congr fun px py c' _ => and_congr_left fun _ => ?_
    omega
  · refine h12.congr fun px py c' _ => and_congr_left fun _ => ?_
    omega

theorem paints_filledStep {w h : Nat} (hw : w % 8 = 0) (cx cy : Int) (c : Color) (m : Memory) (x y : Int) (hy : 0 ≤ y)
    (hx : y ≤ x) :
    Paints w h m (filledStep w h cx cy c m x y) fun px py c' =>
      (((px - cx).natAbs ≤ x ∧ (py - cy).natAbs = y) ∨ ((px - cx).natAbs ≤ y ∧ (py - cy).natAbs = x)) ∧ c' = c := by
  have one : ∀ (m : Memory) (a b e : Int), Paints w h m (drawLine w h m a e b e c) fun px py c' =>
      (min a b ≤ px ∧ px < min a b + ((b - a).natAbs + 1) ∧ e ≤ py ∧ py < e + 1) ∧ c' = c :=
    fun m a b e => (paints_drawLine hw m a e b e c).congr fun _ _ _ _ => by rw [OnLine_horizontal]
  unfold filledStep
  simp only
  have h1 := one m (cx - x) (cx + x) (cy + y)
  split_ifs with hy0 hxy hxy
  all_goals
    try have h2 := h1.trans_one (one _ (cx - x) (cx + x) (cy - y))
  · refine ((h2.trans_one (one _ (cx - y) (cx + y) (cy + x))).trans_one (one _ (cx - y) (cx + y) (cy - x))).congr
      fun px py c' _ => and_congr_left fun _ => ?_
    omega
  · refine ((h1.trans_one (one _ (cx - y) (cx + y) (cy + x))).trans_one (one _ (cx - y) (cx + y) (cy - x))).congr
      fun px py c' _ => and_congr_left fun _ => ?_
    omega
  · refine h2.congr fun px py c' _ => and_congr_left fun _ => ?_
    omega
  · refine h1.congr fun px py c' _ => and_congr_left fun _ => ?_
    omega

/-- `draw_circle` paints the outline or the disc (rules R116 to R118). -/
theorem paints_drawCircle {w h : Nat} (hw : w % 8 = 0) (m : Memory) (cx cy r : Int) (c : Color) (filled : Bool) :
    Paints w h m (drawCircle w h m cx cy r c filled) fun px py c' =>
      (if filled then InDisc cx cy r px py else OnCircle cx cy r px py) ∧ c' = c := by
  unfold drawCircle
  cases filled
  · simpa [OnCircle] using paints_circleWalk _ _ c (fun m x y hy hx => paints_outlineStep hw cx cy c m x y hy hx) m r
  · simpa [InDisc] using paints_circleWalk _ _ c (fun m x y hy hx => paints_filledStep hw cx cy c m x y hy hx) m r

end Sys2Proof.Machine
end

