-- ==== Sys2Proof/Laws/Blocks.lean ====
section
/-! SUPPORT. What the text and grid subroutines paint: blocks of pixels that never overlap. -/

namespace Sys2Proof.Machine

/-- A pixel lies in the block of one index only. -/
theorem block_unique {a s p i j : Int} (h1 : a + i * s ≤ p) (h2 : p < a + (i + 1) * s) (h3 : a + j * s ≤ p)
    (h4 : p < a + (j + 1) * s) : i = j := by
  have hs : 0 < s := by nlinarith
  rcases lt_trichotomy i j with h | h | h
  · nlinarith
  · exact h
  · nlinarith

/-! ## Glyphs -/

theorem inkColor_eq (c : Color) (bit : Bool) : inkColor c bit = if bit then c else otherColor c := by
  cases c <;> cases bit <;> rfl

theorem glyphBit_eq (gh : Nat) (g : GlyphRecord) (r c : Nat) (hr : r < gh) (hc : (c : Int) < g.width) :
    glyphBit gh g.width.toNat g.rows r c = LogicalBit gh g r c := by
  unfold glyphBit LogicalBit
  rw [show ((gh : Int) - 1 - r).toNat = gh - 1 - r by omega,
    show (g.width - 1 - (c : Int)).toNat = g.width.toNat - 1 - c by omega]
  cases h : g.rows[gh - 1 - r]? <;> simp [List.getD_eq_getElem?_getD, h]

/-- The block of logical pixel `(col, row)` of a glyph whose pen is at `pen`. -/
def InBlock (pen y scale row col px py : Int) : Prop :=
  pen + col * scale ≤ px ∧ px < pen + (col + 1) * scale ∧ y + row * scale ≤ py ∧ py < y + (row + 1) * scale

theorem paints_drawGlyph {w h : Nat} (cell : Memory → Nat → Nat → Bool → Memory) (pen y scale : Int) (color : Color)
    (hcell : ∀ m (c r : Nat) bit, Paints w h m (cell m c r bit) fun px py c' =>
      InBlock pen y scale r c px py ∧ c' = inkColor color bit) (gh : Nat) (g : GlyphRecord) (m : Memory) :
    Paints w h m (drawGlyph cell gh g m) fun px py c' => ∃ row col : Int, 0 ≤ row ∧ row < gh ∧ 0 ≤ col ∧ col < g.width ∧
      InBlock pen y scale row col px py ∧
      c' = if LogicalBit gh g row col then color else otherColor color := by
  unfold drawGlyph
  have hrow : ∀ (m : Memory) (r : Nat), Paints w h m
      ((List.range g.width.toNat).foldl (fun m c => cell m c r (glyphBit gh g.width.toNat g.rows r c)) m)
      fun px py c' => ∃ c ∈ List.range g.width.toNat, InBlock pen y scale r c px py ∧
        c' = inkColor color (glyphBit gh g.width.toNat g.rows r c) := fun m r =>
    Paints.foldl (fun m c => cell m c r (glyphBit gh g.width.toNat g.rows r c))
      (fun (c : Nat) px py c' => InBlock pen y scale r c px py ∧
        c' = inkColor color (glyphBit gh g.width.toNat g.rows r c)) _ (fun m c _ => hcell m c r _)
      (by
        rintro i - j - px py c1 c2 - ⟨⟨a1, a2, -, -⟩, rfl⟩ ⟨⟨b1, b2, -, -⟩, rfl⟩
        have := block_unique a1 a2 b1 b2
        obtain rfl : i = j := by exact_mod_cast this
        rfl) m
  refine (Paints.foldl _ (fun (r : Nat) px py c' => ∃ c ∈ List.range g.width.toNat, InBlock pen y scale r c px py ∧
    c' = inkColor color (glyphBit gh g.width.toNat g.rows r c)) (List.range gh) (fun m r _ => hrow m r) ?_ m).congr ?_
  · rintro i - j - px py c1 c2 - ⟨c, -, ⟨a1, a2, a3, a4⟩, rfl⟩ ⟨d, -, ⟨b1, b2, b3, b4⟩, rfl⟩
    have e1 := block_unique a1 a2 b1 b2
    have e2 := block_unique a3 a4 b3 b4
    obtain rfl : c = d := by exact_mod_cast e1
    obtain rfl : i = j := by exact_mod_cast e2
    rfl
  · rintro px py c' -
    constructor
    · rintro ⟨r, hr, c, hc, hb, rfl⟩
      rw [List.mem_range] at hr hc
      refine ⟨r, c, by omega, by omega, by omega, by omega, hb, ?_⟩
      rw [inkColor_eq, glyphBit_eq gh g r c hr (by omega)]
    · rintro ⟨row, col, h1, h2, h3, h4, hb, rfl⟩
      obtain ⟨r, rfl⟩ := Int.eq_ofNat_of_zero_le h1
      obtain ⟨c, rfl⟩ := Int.eq_ofNat_of_zero_le h3
      refine ⟨r, by rw [List.mem_range]; omega, c, by rw [List.mem_range]; omega, hb, ?_⟩
      rw [inkColor_eq, glyphBit_eq gh g r c (by omega) h4]

theorem penOffset_zero (gs : List GlyphRecord) : penOffset gs 0 = 0 := by
  simp [penOffset]

theorem penOffset_succ (g : GlyphRecord) (gs : List GlyphRecord) (i : Nat) :
    penOffset (g :: gs) (i + 1) = g.width + penOffset gs i := by
  simp [penOffset]

theorem penOffset_nonneg (gs : List GlyphRecord) (h : ∀ g ∈ gs, 0 ≤ g.width) (i : Nat) : 0 ≤ penOffset gs i := by
  unfold penOffset
  refine List.sum_nonneg fun x hx => ?_
  obtain ⟨g, hg, rfl⟩ := List.mem_map.1 hx
  exact h g (List.mem_of_mem_take hg)

/-- The glyph loop paints the text's cells (rules R133, R134). -/
theorem paints_drawGlyphs {w h : Nat} (cell : Int → Memory → Nat → Nat → Bool → Memory) (y scale : Int) (color : Color)
    (hcell : ∀ pen m (c r : Nat) bit, Paints w h m (cell pen m c r bit) fun px py c' =>
      InBlock pen y scale r c px py ∧ c' = inkColor color bit) (gh : Nat) (gs : List GlyphRecord)
    (hgs : ∀ g ∈ gs, 0 ≤ g.width) (pen : Int) (m : Memory) :
    Paints w h m (drawGlyphs cell scale gh gs pen m) (InText ⟨gh, gs⟩ pen y scale color) := by
  induction gs generalizing pen m with
  | nil => exact (Paints.refl w h m).congr fun px py c' _ => by simp [InText]
  | cons g gs ih =>
      rw [drawGlyphs]
      refine ((paints_drawGlyph (cell pen) pen y scale color (hcell pen) gh g m).trans
        (ih (fun g' hg' => hgs g' (List.mem_cons_of_mem _ hg')) (pen + g.width * scale) _) ?_).congr ?_
      · rintro px py c1 c2 - ⟨row, col, -, -, -, h4, ⟨b1, b2, -, -⟩, -⟩ ⟨i, g', row', col', -, -, -, h7, -, d1, -⟩
        exfalso
        have hs : 0 < scale := by nlinarith
        have hp := penOffset_nonneg gs (fun g' hg' => hgs g' (List.mem_cons_of_mem _ hg')) i
        simp only at d1
        nlinarith
      · intro px py c' _
        constructor
        · rintro (⟨row, col, h1, h2, h3, h4, ⟨b1, b2, b3, b4⟩, hc⟩ |
            ⟨i, g', row, col, hi, h1, h2, h3, h4, b1, b2, b3, b4, hc⟩)
          · exact ⟨0, g, row, col, rfl, h1, h2, h3, h4, by simpa [penOffset_zero] using b1,
              by simpa [penOffset_zero] using b2, b3, b4, hc⟩
          · refine ⟨i + 1, g', row, col, by simpa using hi, h1, h2, h3, h4, ?_, ?_, b3, b4, hc⟩
            · rw [penOffset_succ]; linarith
            · rw [penOffset_succ]; linarith
        · rintro ⟨i, g', row, col, hi, h1, h2, h3, h4, b1, b2, b3, b4, hc⟩
          cases i with
          | zero =>
              simp only [List.getElem?_cons_zero, Option.some.injEq] at hi
              subst hi
              exact .inl ⟨row, col, h1, h2, h3, h4, ⟨by simpa [penOffset_zero] using b1,
                by simpa [penOffset_zero] using b2, b3, b4⟩, hc⟩
          | succ i =>
              rw [penOffset_succ] at b1 b2
              refine .inr ⟨i, g', row, col, by simpa using hi, h1, h2, h3, h4, ?_, ?_, b3, b4, hc⟩
              · linarith
              · linarith

/-- `draw_text` paints the text at scale 1 (rule R133). -/
theorem paints_drawText {w h : Nat} (hw : w % 8 = 0) (m : Memory) (x y : Int) (answer : GlyphAnswer) (color : Color)
    (hh : 0 ≤ answer.height) (hgs : ∀ g ∈ answer.glyphs, 0 ≤ g.width) :
    Paints w h m (drawText w h m x y answer color) (InText answer x y 1 color) := by
  have hcell : ∀ pen m (c r : Nat) bit, Paints w h m (setPixel w h m (pen + c) (y + r) (inkColor color bit))
      fun px py c' => InBlock pen y 1 r c px py ∧ c' = inkColor color bit := fun pen m c r bit =>
    (paints_setPixel hw m _ _ _).congr fun px py c' _ => by
      unfold InBlock
      constructor
      · rintro ⟨rfl, rfl, rfl⟩; exact ⟨by omega, rfl⟩
      · rintro ⟨h1, rfl⟩; exact ⟨by omega, by omega, rfl⟩
  have := paints_drawGlyphs (fun pen m c r bit => setPixel w h m (pen + c) (y + r) (inkColor color bit)) y 1 color hcell
    answer.height.toNat answer.glyphs hgs x m
  rwa [Int.toNat_of_nonneg hh] at this

/-- `draw_text_scaled` paints the text at its scale (rule R134). -/
theorem paints_drawTextScaled {w h : Nat} (hw : w % 8 = 0) (m : Memory) (x y : Int) (answer : GlyphAnswer) (color : Color)
    (scale : Int) (hh : 0 ≤ answer.height) (hgs : ∀ g ∈ answer.glyphs, 0 ≤ g.width) :
    Paints w h m (drawTextScaled w h m x y answer color scale) (InText answer x y scale color) := by
  have hcell : ∀ pen m (c r : Nat) bit, Paints w h m
      (fillRect w h m (pen + c * scale) (y + r * scale) scale scale (inkColor color bit))
      fun px py c' => InBlock pen y scale r c px py ∧ c' = inkColor color bit := fun pen m c r bit =>
    (paints_fillRect hw m _ _ _ _ _).congr fun px py c' _ => by
      unfold InBlock
      rw [show pen + ((c : Int) + 1) * scale = pen + c * scale + scale by ring,
        show y + ((r : Int) + 1) * scale = y + r * scale + scale by ring]
      tauto
  have := paints_drawGlyphs
    (fun pen m c r bit => fillRect w h m (pen + c * scale) (y + r * scale) scale scale (inkColor color bit)) y scale color
    hcell answer.height.toNat answer.glyphs hgs x m
  rwa [Int.toNat_of_nonneg hh] at this

theorem glyphAnswerWf_iff (n : Nat) (a : GlyphAnswer) : glyphAnswerWf n a = true ↔ AnswerWellFormed n a := by
  simp [glyphAnswerWf, glyphRecordWf, AnswerWellFormed, and_assoc]

/-! ## Module grid -/

theorem gridBit_eq (bits : List Byte) (sideN mx my : Nat) : gridBit bits (my * sideN + mx) = CellBit bits sideN mx my := by
  unfold gridBit CellBit
  rw [show (((my : Int) * sideN + mx) / 8).toNat = (my * sideN + mx) / 8 by
      rw [← Nat.cast_mul, ← Nat.cast_add]; norm_cast,
    show (((my : Int) * sideN + mx) % 8).toNat = (my * sideN + mx) % 8 by
      rw [← Nat.cast_mul, ← Nat.cast_add]; norm_cast]
  cases h : bits[(my * sideN + mx) / 8]? <;> simp [List.getD_eq_getElem?_getD, h]

/-- `draw_module_grid` paints its cells' blocks (rule R141). -/
theorem paints_drawModuleGrid {w h : Nat} (hw : w % 8 = 0) (m : Memory) (x y modulePx : Int) (sideN : Nat)
    (bits : List Byte) :
    Paints w h m (drawModuleGrid w h m x y modulePx sideN bits) (InGrid bits x y modulePx sideN) := by
  unfold drawModuleGrid
  have hcell : ∀ (m : Memory) (mx my : Nat) (c : Color), Paints w h m
      (fillRect w h m (x + mx * modulePx) (y + my * modulePx) modulePx modulePx c)
      fun px py c' => InBlock x y modulePx my mx px py ∧ c' = c := fun m mx my c =>
    (paints_fillRect hw m _ _ _ _ _).congr fun px py c' _ => by
      unfold InBlock
      rw [show x + ((mx : Int) + 1) * modulePx = x + mx * modulePx + modulePx by ring,
        show y + ((my : Int) + 1) * modulePx = y + my * modulePx + modulePx by ring]
      tauto
  have hrow : ∀ (m : Memory) (my : Nat), Paints w h m
      ((List.range sideN).foldl (fun m (mx : Nat) =>
        fillRect w h m (x + mx * modulePx) (y + my * modulePx) modulePx modulePx
          (if gridBit bits (my * sideN + mx) then .black else .white)) m)
      fun px py c' => ∃ mx ∈ List.range sideN, InBlock x y modulePx my mx px py ∧
        c' = if gridBit bits (my * sideN + mx) then .black else .white := fun m my =>
    Paints.foldl (fun m (mx : Nat) => fillRect w h m (x + mx * modulePx) (y + my * modulePx) modulePx modulePx
        (if gridBit bits (my * sideN + mx) then .black else .white))
      (fun (mx : Nat) px py c' => InBlock x y modulePx my mx px py ∧
        c' = if gridBit bits (my * sideN + mx) then .black else .white) _ (fun m mx _ => hcell m mx my _)
      (by
        rintro i - j - px py c1 c2 - ⟨⟨a1, a2, -, -⟩, rfl⟩ ⟨⟨b1, b2, -, -⟩, rfl⟩
        have := block_unique a1 a2 b1 b2
        obtain rfl : i = j := by exact_mod_cast this
        rfl) m
  refine (Paints.foldl _ (fun (my : Nat) px py c' => ∃ mx ∈ List.range sideN, InBlock x y modulePx my mx px py ∧
    c' = if gridBit bits (my * sideN + mx) then .black else .white) (List.range sideN) (fun m my _ => hrow m my) ?_
    m).congr ?_
  · rintro i - j - px py c1 c2 - ⟨c, -, ⟨a1, a2, a3, a4⟩, rfl⟩ ⟨d, -, ⟨b1, b2, b3, b4⟩, rfl⟩
    have e1 := block_unique a1 a2 b1 b2
    have e2 := block_unique a3 a4 b3 b4
    obtain rfl : c = d := by exact_mod_cast e1
    obtain rfl : i = j := by exact_mod_cast e2
    rfl
  · rintro px py c' -
    constructor
    · rintro ⟨my, hy, mx, hx, ⟨b1, b2, b3, b4⟩, rfl⟩
      rw [List.mem_range] at hy hx
      exact ⟨mx, my, by omega, by omega, by omega, by omega, b1, b2, b3, b4, by rw [gridBit_eq]⟩
    · rintro ⟨mx, my, h1, h2, h3, h4, b1, b2, b3, b4, rfl⟩
      obtain ⟨i, rfl⟩ := Int.eq_ofNat_of_zero_le h1
      obtain ⟨j, rfl⟩ := Int.eq_ofNat_of_zero_le h3
      exact ⟨j, by rw [List.mem_range]; omega, i, by rw [List.mem_range]; omega, ⟨b1, b2, b3, b4⟩, by rw [gridBit_eq]⟩

end Sys2Proof.Machine
end

