-- ==== Sys2Proof/Laws/Decode.lean ====
section
/-! SUPPORT. The small laws of decoding and encoding: operands, headers, packed bytes, lengths. -/

namespace Sys2Proof

/-! ## Operands (rule R72) -/

theorem operand_operandWord {v : Int} (h : inSigned32 v = true) : operand (operandWord v) = v := by
  simp only [inSigned32, Bool.and_eq_true, decide_eq_true_eq] at h
  unfold operand operandWord
  rw [BitVec.toInt_ofInt]
  exact Int.bmod_eq_of_le (by omega) (by omega)

theorem operandWord_operand (w : Word) : operandWord (operand w) = w :=
  BitVec.ofInt_toInt

theorem inSigned32_operand (w : Word) : inSigned32 (operand w) = true := by
  have h1 := BitVec.toInt_lt (x := w)
  have h2 := BitVec.le_toInt (x := w)
  unfold operand
  simp only [inSigned32, Bool.and_eq_true, decide_eq_true_eq]
  constructor <;> omega

theorem operand_countWord {n : Nat} (h : inCount n = true) : operand (countWord n) = n := by
  simp only [inCount, decide_eq_true_eq] at h
  unfold operand countWord
  rw [BitVec.toInt_eq_toNat_of_lt] <;> rw [BitVec.toNat_ofNat] <;> omega

theorem countWord_operand {w : Word} (h : 0 ≤ operand w) : countWord (operand w).toNat = w := by
  have e : BitVec.ofInt 32 ((operand w).toNat : Int) = w := by
    rw [Int.toNat_of_nonneg h]
    exact operandWord_operand w
  rw [BitVec.ofInt_natCast] at e
  exact e

theorem inCount_operand (w : Word) : inCount (operand w).toNat = true := by
  have := inSigned32_operand w
  simp only [inSigned32, Bool.and_eq_true, decide_eq_true_eq] at this
  simp only [inCount, decide_eq_true_eq]
  omega

/-! ## Packed bytes (rule R75) -/

theorem ceil4_add_four (n : Nat) : ceil4 (n + 4) = ceil4 n + 1 := by
  unfold ceil4; omega

theorem length_packBytes (bytes : List Byte) : (packBytes bytes).length = ceil4 bytes.length := by
  fun_induction packBytes bytes with
  | case1 => rfl
  | case2 => simp [ceil4]
  | case3 => simp [ceil4]
  | case4 => simp [ceil4]
  | case5 b0 b1 b2 b3 rest ih => simp [ih, ceil4_add_four]

theorem wordBytes_append (b0 b1 b2 b3 : Byte) : wordBytes (b3 ++ b2 ++ b1 ++ b0) = [b0, b1, b2, b3] := by
  unfold wordBytes
  simp only [List.cons.injEq, and_true]
  refine ⟨?_, ?_, ?_, ?_⟩ <;> ext i hi <;> simp <;> grind

theorem append_wordBytes (w : Word) :
    w.extractLsb' 24 8 ++ w.extractLsb' 16 8 ++ w.extractLsb' 8 8 ++ w.extractLsb' 0 8 = w := by
  ext i hi
  simp only [BitVec.getElem_append, BitVec.getElem_extractLsb']
  split_ifs <;> simp <;> grind

/-- Packing and unpacking: the bytes come back, followed by zeros only. -/
theorem flatMap_wordBytes_packBytes (bytes : List Byte) :
    ∃ k, (packBytes bytes).flatMap wordBytes = bytes ++ List.replicate k 0 := by
  fun_induction packBytes bytes with
  | case1 => exact ⟨0, rfl⟩
  | case2 b0 => exact ⟨3, by rw [List.flatMap_singleton, wordBytes_append]; rfl⟩
  | case3 b0 b1 => exact ⟨2, by rw [List.flatMap_singleton, wordBytes_append]; rfl⟩
  | case4 b0 b1 b2 => exact ⟨1, by rw [List.flatMap_singleton, wordBytes_append]; rfl⟩
  | case5 b0 b1 b2 b3 rest ih =>
      obtain ⟨k, hk⟩ := ih
      exact ⟨k, by simp [wordBytes_append, hk]⟩

/-- Unpacked words, cut where only zeros follow, pack to the words again. -/
theorem packBytes_take (ws : List Word) (n : Nat) (hn : ceil4 n = ws.length)
    (hz : ∀ b ∈ (ws.flatMap wordBytes).drop n, b = 0) : packBytes ((ws.flatMap wordBytes).take n) = ws := by
  induction ws generalizing n with
  | nil =>
      obtain rfl : n = 0 := by unfold ceil4 at hn; simp at hn; omega
      rfl
  | cons w ws ih =>
      have e : ((w :: ws).flatMap wordBytes) = w.extractLsb' 0 8 :: w.extractLsb' 8 8 :: w.extractLsb' 16 8 ::
          w.extractLsb' 24 8 :: ws.flatMap wordBytes := rfl
      rw [e] at hz ⊢
      have ew := append_wordBytes w
      match n, hn, hz with
      | 0, hn, _ => simp [ceil4] at hn
      | 1, hn, hz =>
          obtain rfl : ws = [] := by unfold ceil4 at hn; simpa using hn
          simp only [List.drop_succ_cons, List.drop_zero, List.mem_cons] at hz
          rw [hz _ (.inl rfl), hz _ (.inr (.inl rfl)), hz _ (.inr (.inr (.inl rfl)))] at ew
          simp only [List.take_succ_cons, List.take_zero, packBytes]
          exact congrArg (fun x => [x]) ew
      | 2, hn, hz =>
          obtain rfl : ws = [] := by unfold ceil4 at hn; simpa using hn
          simp only [List.drop_succ_cons, List.drop_zero, List.mem_cons] at hz
          rw [hz _ (.inl rfl), hz _ (.inr (.inl rfl))] at ew
          simp only [List.take_succ_cons, List.take_zero, packBytes]
          exact congrArg (fun x => [x]) ew
      | 3, hn, hz =>
          obtain rfl : ws = [] := by unfold ceil4 at hn; simpa using hn
          simp only [List.drop_succ_cons, List.drop_zero, List.mem_cons] at hz
          rw [hz _ (.inl rfl)] at ew
          simp only [List.take_succ_cons, List.take_zero, packBytes]
          exact congrArg (fun x => [x]) ew
      | n + 4, hn, hz =>
          rw [ceil4_add_four, List.length_cons, Nat.add_right_cancel_iff] at hn
          simp only [List.take_succ_cons, packBytes]
          rw [ih n hn hz, ew]

/-- What `takeBytes` can answer. -/
theorem takeBytes_ok {n : Int} {ws : List Word} {bytes : List Byte} (h : takeBytes n ws = .ok bytes) :
    n = bytes.length ∧ ceil4 bytes.length ≤ ws.length ∧ packBytes bytes = ws.take (ceil4 bytes.length) := by
  unfold takeBytes at h
  simp only at h
  split_ifs at h with h1 h2 h3
  obtain rfl := Except.ok.inj h
  have hlen : ((ws.take (ceil4 n.toNat)).flatMap wordBytes).length = 4 * ceil4 n.toNat := by
    have : ∀ l : List Word, (l.flatMap wordBytes).length = 4 * l.length := by
      intro l
      induction l with
      | nil => rfl
      | cons w l ih => simp only [List.flatMap_cons, List.length_append, ih, List.length_cons]; simp [wordBytes]; omega
    rw [this, List.length_take]
    omega
  have hn : (((ws.take (ceil4 n.toNat)).flatMap wordBytes).take n.toNat).length = n.toNat := by
    rw [List.length_take, hlen]
    unfold ceil4
    omega
  rw [hn]
  refine ⟨by omega, by omega, packBytes_take _ _ (by rw [List.length_take]; omega) fun b hb => ?_⟩
  have := List.all_eq_true.1 h3 b hb
  simpa using this

/-- The packed bytes are read back, whatever follows them. -/
theorem takeBytes_packBytes (bytes : List Byte) (rest : List Word) :
    takeBytes bytes.length (packBytes bytes ++ rest) = .ok bytes := by
  obtain ⟨k, hk⟩ := flatMap_wordBytes_packBytes bytes
  have hl := length_packBytes bytes
  have ht : (packBytes bytes ++ rest).take (ceil4 bytes.length) = packBytes bytes := by
    rw [← hl]; exact List.take_left
  unfold takeBytes
  simp only [Int.toNat_natCast]
  rw [if_neg (by omega), if_neg (by rw [List.length_append, hl]; omega), ht, hk, if_pos]
  · rw [List.take_left]
  · rw [List.drop_left]
    simp

/-- What `takeChars` can answer. -/
theorem takeChars_ok {n : Int} {ws chars : List Word} (h : takeChars n ws = .ok chars) :
    n = chars.length ∧ chars.length ≤ ws.length ∧ chars = ws.take chars.length := by
  unfold takeChars at h
  split_ifs at h with h1 h2
  obtain rfl := Except.ok.inj h
  rw [List.length_take, Nat.min_eq_left (by omega)]
  exact ⟨by omega, by omega, rfl⟩

theorem takeChars_append (chars rest : List Word) : takeChars chars.length (chars ++ rest) = .ok chars := by
  unfold takeChars
  rw [if_neg (by omega), if_neg (by rw [Int.toNat_natCast, List.length_append]; omega), Int.toNat_natCast, List.take_left]

/-! ## Headers (rules R72, R77) -/

/-- The header word of a row of the opcode map. -/
def headerWord (op : Op) (color : Color) (filled : Bool) : Word :=
  match op with
  | .fbCreate => 0x01
  | .setPixel => 0x02 ||| colorBit color
  | .getPixel => 0x03
  | .fbFill => 0x04 ||| colorBit color
  | .fillRect => 0x10 ||| colorBit color
  | .drawLine => 0x11 ||| colorBit color
  | .drawCircle => 0x12 ||| colorBit color ||| filledBit filled
  | .drawText => 0x20 ||| colorBit color
  | .drawTextScaled => 0x21 ||| colorBit color
  | .drawModuleGrid => 0x30
  | .sendCommand => 0x40
  | .sendData => 0x41
  | .sendDataChunked => 0x42
  | .waitUntilIdle => 0x43
  | .panelReset => 0x50
  | .panelConfigure => 0x51
  | .panelDeepClean => 0x52
  | .panelRefresh => 0x53
  | .panelPowerDown => 0x54

/-- A row's header selects the row. -/
theorem headerOp_headerWord (op : Op) (color : Color) (filled : Bool) :
    headerOp (headerWord op color filled) = some op := by
  cases op <;> cases color <;> cases filled <;> rfl

/-- A word that matches a row is the row's pattern with the bits outside the mask its own. -/
theorem eq_of_masked {h mask pattern : Word} (hm : h &&& mask = pattern) : h = pattern ||| (h &&& ~~~mask) := by
  rw [← hm]
  ext i hi
  simp
  cases h[i] <;> cases mask[i] <;> rfl

/-- A word that selects a row is the row's header with the word's own `C` and `F`. -/
theorem headerWord_of_headerOp {h : Word} {op : Op} (ho : headerOp h = some op) :
    headerWord op (headerColor h) (headerFilled h) = h := by
  unfold headerOp at ho
  obtain ⟨row, hr, rfl⟩ := Option.map_eq_some_iff.1 ho
  have hmem := List.mem_of_find?_eq_some hr
  have hm : h &&& row.mask = row.pattern := by simpa using List.find?_some hr
  have color : h &&& 0x00000100#32 = colorBit (headerColor h) := by
    have : h &&& 0x00000100#32 = if h.getLsbD 8 then 0x00000100#32 else 0#32 := by
      ext i hi
      by_cases e : i = 8
      · subst e; cases hb : h.getLsbD 8 <;> simp_all
      · have : (0x00000100#32)[i] = false := by
          rw [← BitVec.getLsbD_eq_getElem]
          exact (by decide : ∀ j : Fin 32, j.val ≠ 8 → (0x00000100#32).getLsbD j.val = false) ⟨i, hi⟩ e
        cases hb : h.getLsbD 8 <;> simp [this]
    rw [this]
    unfold headerColor
    cases h.getLsbD 8 <;> rfl
  have filled : h &&& 0x00000200#32 = filledBit (headerFilled h) := by
    have : h &&& 0x00000200#32 = if h.getLsbD 9 then 0x00000200#32 else 0#32 := by
      ext i hi
      by_cases e : i = 9
      · subst e; cases hb : h.getLsbD 9 <;> simp_all
      · have : (0x00000200#32)[i] = false := by
          rw [← BitVec.getLsbD_eq_getElem]
          exact (by decide : ∀ j : Fin 32, j.val ≠ 9 → (0x00000200#32).getLsbD j.val = false) ⟨i, hi⟩ e
        cases hb : h.getLsbD 9 <;> simp [this]
    rw [this]
    unfold headerFilled
    cases h.getLsbD 9 <;> rfl
  have none : ∀ p : Word, h &&& 0xFFFFFFFF#32 = p → p = h := fun p hp => by
    rw [← hp]
    have : (0xFFFFFFFF#32) = BitVec.allOnes 32 := by decide
    rw [this, BitVec.and_allOnes]
  have onlyColor : ∀ p : Word, h &&& 0xFFFFFEFF#32 = p → p ||| colorBit (headerColor h) = h := fun p hp => by
    rw [← color]
    exact (eq_of_masked hp).symm
  have both : ∀ p : Word, h &&& 0xFFFFFCFF#32 = p →
      p ||| colorBit (headerColor h) ||| filledBit (headerFilled h) = h := fun p hp => by
    rw [← color, ← filled, BitVec.or_assoc, ← BitVec.and_or_distrib_left]
    exact (eq_of_masked hp).symm
  simp only [opcodeTable, List.mem_cons, List.not_mem_nil, or_false] at hmem
  rcases hmem with rfl | rfl | rfl | rfl | rfl | rfl | rfl | rfl | rfl | rfl | rfl | rfl | rfl | rfl | rfl | rfl | rfl |
    rfl | rfl <;>
    first
    | exact none _ hm
    | exact onlyColor _ hm
    | exact both _ hm

end Sys2Proof
end

