-- ==== Sys2Proof/Laws/State.lean ====
section
/-! SUPPORT. What each named update of the state does to each field, one lemma per field, so that no later proof unfolds a
record update. -/

namespace Sys2Proof.Machine

/-! ## Raising a fault -/

@[simp] theorem State.raise_fb (s : State) (code : FaultCode) : (s.raise code).fb = s.fb := rfl
@[simp] theorem State.raise_width (s : State) (code : FaultCode) : (s.raise code).width = s.width := rfl
@[simp] theorem State.raise_height (s : State) (code : FaultCode) : (s.raise code).height = s.height := rfl
@[simp] theorem State.raise_fbValid (s : State) (code : FaultCode) : (s.raise code).fbValid = s.fbValid := rfl
@[simp] theorem State.raise_res (s : State) (code : FaultCode) : (s.raise code).res = s.res := rfl
@[simp] theorem State.raise_pstate (s : State) (code : FaultCode) : (s.raise code).pstate = s.pstate := rfl
@[simp] theorem State.raise_fault (s : State) (code : FaultCode) : (s.raise code).fault = code := rfl
@[simp] theorem State.raise_cp (s : State) (code : FaultCode) : (s.raise code).cp = s.cp := rfl
@[simp] theorem State.raise_cs (s : State) (code : FaultCode) : (s.raise code).cs = s.cs := rfl
@[simp] theorem State.raise_dc (s : State) (code : FaultCode) : (s.raise code).dc = s.dc := rfl
@[simp] theorem State.raise_rst (s : State) (code : FaultCode) : (s.raise code).rst = s.rst := rfl
@[simp] theorem State.raise_trace (s : State) (code : FaultCode) : (s.raise code).trace = s.trace := rfl
@[simp] theorem State.raise_wait (s : State) (code : FaultCode) : (s.raise code).wait = none := rfl
@[simp] theorem State.raise_env (s : State) (code : FaultCode) : (s.raise code).env = s.env := rfl

/-! ## Completing -/

@[simp] theorem State.complete_fb (s : State) (len : Nat) : (s.complete len).fb = s.fb := rfl
@[simp] theorem State.complete_width (s : State) (len : Nat) : (s.complete len).width = s.width := rfl
@[simp] theorem State.complete_height (s : State) (len : Nat) : (s.complete len).height = s.height := rfl
@[simp] theorem State.complete_fbValid (s : State) (len : Nat) : (s.complete len).fbValid = s.fbValid := rfl
@[simp] theorem State.complete_res (s : State) (len : Nat) : (s.complete len).res = s.res := rfl
@[simp] theorem State.complete_pstate (s : State) (len : Nat) : (s.complete len).pstate = s.pstate := rfl
@[simp] theorem State.complete_fault (s : State) (len : Nat) : (s.complete len).fault = s.fault := rfl
@[simp] theorem State.complete_cp (s : State) (len : Nat) : (s.complete len).cp = s.cp + len := rfl
@[simp] theorem State.complete_cs (s : State) (len : Nat) : (s.complete len).cs = s.cs := rfl
@[simp] theorem State.complete_dc (s : State) (len : Nat) : (s.complete len).dc = s.dc := rfl
@[simp] theorem State.complete_rst (s : State) (len : Nat) : (s.complete len).rst = s.rst := rfl
@[simp] theorem State.complete_trace (s : State) (len : Nat) : (s.complete len).trace = s.trace := rfl
@[simp] theorem State.complete_wait (s : State) (len : Nat) : (s.complete len).wait = none := rfl
@[simp] theorem State.complete_env (s : State) (len : Nat) : (s.complete len).env = s.env := rfl

/-! ## Reading the busy line -/

@[simp] theorem State.drawBusy_fb (s : State) : (s.drawBusy).fb = s.fb := rfl
@[simp] theorem State.drawBusy_width (s : State) : (s.drawBusy).width = s.width := rfl
@[simp] theorem State.drawBusy_height (s : State) : (s.drawBusy).height = s.height := rfl
@[simp] theorem State.drawBusy_fbValid (s : State) : (s.drawBusy).fbValid = s.fbValid := rfl
@[simp] theorem State.drawBusy_res (s : State) : (s.drawBusy).res = s.res := rfl
@[simp] theorem State.drawBusy_pstate (s : State) : (s.drawBusy).pstate = s.pstate := rfl
@[simp] theorem State.drawBusy_fault (s : State) : (s.drawBusy).fault = s.fault := rfl
@[simp] theorem State.drawBusy_cp (s : State) : (s.drawBusy).cp = s.cp := rfl
@[simp] theorem State.drawBusy_cs (s : State) : (s.drawBusy).cs = s.cs := rfl
@[simp] theorem State.drawBusy_dc (s : State) : (s.drawBusy).dc = s.dc := rfl
@[simp] theorem State.drawBusy_rst (s : State) : (s.drawBusy).rst = s.rst := rfl
@[simp] theorem State.drawBusy_trace (s : State) : (s.drawBusy).trace = s.trace := rfl
@[simp] theorem State.drawBusy_wait (s : State) : (s.drawBusy).wait = s.wait := rfl
@[simp] theorem State.drawBusy_env (s : State) : (s.drawBusy).env = { s.env with busyIn := s.env.busyIn.tail, busyReads := s.env.busyReads + 1 } := rfl

/-! ## Placing an instruction -/

@[simp] theorem State.withFetchWord_fb (s : State) (nbits w : Nat) : (s.withFetchWord nbits w).fb = s.fb := rfl
@[simp] theorem State.withFetchWord_width (s : State) (nbits w : Nat) : (s.withFetchWord nbits w).width = s.width := rfl
@[simp] theorem State.withFetchWord_height (s : State) (nbits w : Nat) : (s.withFetchWord nbits w).height = s.height := rfl
@[simp] theorem State.withFetchWord_fbValid (s : State) (nbits w : Nat) : (s.withFetchWord nbits w).fbValid = s.fbValid := rfl
@[simp] theorem State.withFetchWord_res (s : State) (nbits w : Nat) : (s.withFetchWord nbits w).res = s.res := rfl
@[simp] theorem State.withFetchWord_pstate (s : State) (nbits w : Nat) : (s.withFetchWord nbits w).pstate = s.pstate := rfl
@[simp] theorem State.withFetchWord_fault (s : State) (nbits w : Nat) : (s.withFetchWord nbits w).fault = .noFault := rfl
@[simp] theorem State.withFetchWord_cp (s : State) (nbits w : Nat) : (s.withFetchWord nbits w).cp = s.cp := rfl
@[simp] theorem State.withFetchWord_cs (s : State) (nbits w : Nat) : (s.withFetchWord nbits w).cs = s.cs := rfl
@[simp] theorem State.withFetchWord_dc (s : State) (nbits w : Nat) : (s.withFetchWord nbits w).dc = s.dc := rfl
@[simp] theorem State.withFetchWord_rst (s : State) (nbits w : Nat) : (s.withFetchWord nbits w).rst = s.rst := rfl
@[simp] theorem State.withFetchWord_trace (s : State) (nbits w : Nat) : (s.withFetchWord nbits w).trace = s.trace := rfl
@[simp] theorem State.withFetchWord_wait (s : State) (nbits w : Nat) : (s.withFetchWord nbits w).wait = none := rfl
@[simp] theorem State.withFetchWord_env (s : State) (nbits w : Nat) : (s.withFetchWord nbits w).env = { s.env with stream := placeWords s.env.stream s.cp (tableWords nbits w) } := rfl

/-! ## The host's reset -/

@[simp] theorem State.hostReset_fb (s : State) : (s.hostReset).fb = State.reset.fb := rfl
@[simp] theorem State.hostReset_width (s : State) : (s.hostReset).width = State.reset.width := rfl
@[simp] theorem State.hostReset_height (s : State) : (s.hostReset).height = State.reset.height := rfl
@[simp] theorem State.hostReset_fbValid (s : State) : (s.hostReset).fbValid = State.reset.fbValid := rfl
@[simp] theorem State.hostReset_res (s : State) : (s.hostReset).res = State.reset.res := rfl
@[simp] theorem State.hostReset_pstate (s : State) : (s.hostReset).pstate = State.reset.pstate := rfl
@[simp] theorem State.hostReset_fault (s : State) : (s.hostReset).fault = State.reset.fault := rfl
@[simp] theorem State.hostReset_cp (s : State) : (s.hostReset).cp = State.reset.cp := rfl
@[simp] theorem State.hostReset_cs (s : State) : (s.hostReset).cs = State.reset.cs := rfl
@[simp] theorem State.hostReset_dc (s : State) : (s.hostReset).dc = State.reset.dc := rfl
@[simp] theorem State.hostReset_rst (s : State) : (s.hostReset).rst = State.reset.rst := rfl
@[simp] theorem State.hostReset_trace (s : State) : (s.hostReset).trace = State.reset.trace := rfl
@[simp] theorem State.hostReset_wait (s : State) : (s.hostReset).wait = State.reset.wait := rfl
@[simp] theorem State.hostReset_env (s : State) : (s.hostReset).env = s.env := rfl

/-! ## Emitting events -/

@[simp] theorem State.emit_fb (s : State) (e : Event) : (s.emit e).fb = s.fb := by cases e <;> rfl
@[simp] theorem State.emit_width (s : State) (e : Event) : (s.emit e).width = s.width := by cases e <;> rfl
@[simp] theorem State.emit_height (s : State) (e : Event) : (s.emit e).height = s.height := by cases e <;> rfl
@[simp] theorem State.emit_fbValid (s : State) (e : Event) : (s.emit e).fbValid = s.fbValid := by cases e <;> rfl
@[simp] theorem State.emit_res (s : State) (e : Event) : (s.emit e).res = s.res := by cases e <;> rfl
@[simp] theorem State.emit_pstate (s : State) (e : Event) : (s.emit e).pstate = s.pstate := by cases e <;> rfl
@[simp] theorem State.emit_fault (s : State) (e : Event) : (s.emit e).fault = s.fault := by cases e <;> rfl
@[simp] theorem State.emit_cp (s : State) (e : Event) : (s.emit e).cp = s.cp := by cases e <;> rfl
@[simp] theorem State.emit_wait (s : State) (e : Event) : (s.emit e).wait = s.wait := by cases e <;> rfl
@[simp] theorem State.emit_env (s : State) (e : Event) : (s.emit e).env = s.env := by cases e <;> rfl
@[simp] theorem State.emit_trace (s : State) (e : Event) : (s.emit e).trace = s.trace ++ [e] := by cases e <;> rfl
@[simp] theorem State.emit_cs (s : State) (e : Event) : (s.emit e).cs = csAfter s.cs [e] := by cases e <;> rfl
@[simp] theorem State.emit_dc (s : State) (e : Event) : (s.emit e).dc = dcAfter s.dc [e] := by cases e <;> rfl
@[simp] theorem State.emit_rst (s : State) (e : Event) : (s.emit e).rst = rstAfter s.rst [e] := by cases e <;> rfl

@[simp] theorem State.emitAll_fb (s : State) (es : List Event) : (s.emitAll es).fb = s.fb := by
  induction es generalizing s with
  | nil => rfl
  | cons e es ih => exact (ih (s.emit e)).trans (s.emit_fb e)

@[simp] theorem State.emitAll_width (s : State) (es : List Event) : (s.emitAll es).width = s.width := by
  induction es generalizing s with
  | nil => rfl
  | cons e es ih => exact (ih (s.emit e)).trans (s.emit_width e)

@[simp] theorem State.emitAll_height (s : State) (es : List Event) : (s.emitAll es).height = s.height := by
  induction es generalizing s with
  | nil => rfl
  | cons e es ih => exact (ih (s.emit e)).trans (s.emit_height e)

@[simp] theorem State.emitAll_fbValid (s : State) (es : List Event) : (s.emitAll es).fbValid = s.fbValid := by
  induction es generalizing s with
  | nil => rfl
  | cons e es ih => exact (ih (s.emit e)).trans (s.emit_fbValid e)

@[simp] theorem State.emitAll_res (s : State) (es : List Event) : (s.emitAll es).res = s.res := by
  induction es generalizing s with
  | nil => rfl
  | cons e es ih => exact (ih (s.emit e)).trans (s.emit_res e)

@[simp] theorem State.emitAll_pstate (s : State) (es : List Event) : (s.emitAll es).pstate = s.pstate := by
  induction es generalizing s with
  | nil => rfl
  | cons e es ih => exact (ih (s.emit e)).trans (s.emit_pstate e)

@[simp] theorem State.emitAll_fault (s : State) (es : List Event) : (s.emitAll es).fault = s.fault := by
  induction es generalizing s with
  | nil => rfl
  | cons e es ih => exact (ih (s.emit e)).trans (s.emit_fault e)

@[simp] theorem State.emitAll_cp (s : State) (es : List Event) : (s.emitAll es).cp = s.cp := by
  induction es generalizing s with
  | nil => rfl
  | cons e es ih => exact (ih (s.emit e)).trans (s.emit_cp e)

@[simp] theorem State.emitAll_wait (s : State) (es : List Event) : (s.emitAll es).wait = s.wait := by
  induction es generalizing s with
  | nil => rfl
  | cons e es ih => exact (ih (s.emit e)).trans (s.emit_wait e)

@[simp] theorem State.emitAll_env (s : State) (es : List Event) : (s.emitAll es).env = s.env := by
  induction es generalizing s with
  | nil => rfl
  | cons e es ih => exact (ih (s.emit e)).trans (s.emit_env e)

@[simp] theorem State.emitAll_trace (s : State) (es : List Event) : (s.emitAll es).trace = s.trace ++ es := by
  induction es generalizing s with
  | nil => simp [State.emitAll]
  | cons e es ih => exact (ih (s.emit e)).trans (by simp)

@[simp] theorem State.emitAll_cs (s : State) (es : List Event) : (s.emitAll es).cs = csAfter s.cs es := by
  induction es generalizing s with
  | nil => rfl
  | cons e es ih => exact (ih (s.emit e)).trans (by cases e <;> rfl)

@[simp] theorem State.emitAll_dc (s : State) (es : List Event) : (s.emitAll es).dc = dcAfter s.dc es := by
  induction es generalizing s with
  | nil => rfl
  | cons e es ih => exact (ih (s.emit e)).trans (by cases e <;> rfl)

@[simp] theorem State.emitAll_rst (s : State) (es : List Event) : (s.emitAll es).rst = rstAfter s.rst es := by
  induction es generalizing s with
  | nil => rfl
  | cons e es ih => exact (ih (s.emit e)).trans (by cases e <;> rfl)

theorem State.emitAll_append (s : State) (es fs : List Event) : s.emitAll (es ++ fs) = (s.emitAll es).emitAll fs := by
  simp [State.emitAll]

/-- A list of events changes the trace and the lines only. -/
theorem State.emitAll_eq (s : State) (es : List Event) :
    s.emitAll es =
      { s with
        cs := csAfter s.cs es, dc := dcAfter s.dc es, rst := rstAfter s.rst es, trace := s.trace ++ es } := by
  induction es generalizing s with
  | nil => simp [State.emitAll, csAfter, dcAfter, rstAfter]
  | cons e es ih => exact (ih (s.emit e)).trans (by cases e <;> simp [State.emit, csAfter, dcAfter, rstAfter])

@[simp] theorem csAfter_append (level : CsLevel) (es fs : List Event) :
    csAfter level (es ++ fs) = csAfter (csAfter level es) fs := List.foldl_append

@[simp] theorem dcAfter_append (level : DcLevel) (es fs : List Event) :
    dcAfter level (es ++ fs) = dcAfter (dcAfter level es) fs := List.foldl_append

@[simp] theorem rstAfter_append (level : PinLevel) (es fs : List Event) :
    rstAfter level (es ++ fs) = rstAfter (rstAfter level es) fs := List.foldl_append

end Sys2Proof.Machine
end

