-- ==== Sys2Proof/Laws/Ops.lean ====
section
/-! SUPPORT. Everything each shared operation can do, once: a rendering command, a poll, a wait, a fetch, a step. -/

namespace Sys2Proof.Machine

/-- A rendering command without a framebuffer raises `NoFramebuffer`. -/
theorem State.render_invalid {s : State} (h : s.fbValid = false) (len : Nat) (paint : Memory → Memory) :
    s.render len paint = s.raise .noFramebuffer := by
  simp [State.render, h]

/-- A rendering command with a framebuffer paints, moves `PSTATE` and completes. -/
theorem State.render_valid {s : State} (h : s.fbValid = true) (len : Nat) (paint : Memory → Memory) :
    s.render len paint =
      { s with fb := paint s.fb, pstate := s.pstate.afterRendering, cp := s.cp + len, wait := none } := by
  simp [State.render, h, State.complete]

/-- The panel state after a rendering command, as rule R176 words it. -/
theorem PanelState.afterRendering_eq (p : PanelState) :
    p.afterRendering = if p = .ready ∨ p = .deepCleaning then .rendering else p := by
  cases p <;> rfl

/-- The state after the sleep and the read of one poll. -/
def State.polled (s : State) : State :=
  ((s.emit (.sleep s.env.platform.pollMs)).drawBusy).emit (.busyRead s.busyLevel)

/-- A poll uses up one input and adds its sleep and its read to the trace; it changes nothing else. -/
theorem State.polled_eq (s : State) :
    s.polled =
      { s with
        trace := s.trace ++ [.sleep s.env.platform.pollMs, .busyRead s.busyLevel]
        env := { s.env with busyIn := s.env.busyIn.tail, busyReads := s.env.busyReads + 1 } } := by
  simp [State.polled, State.emit, State.drawBusy]

/-- A read of `High` ends the wait. -/
theorem State.pollBusy_high {s : State} (h : s.busyLevel = .high) (after : State → State) :
    s.pollBusy after = after s.polled := by
  simp [State.pollBusy, h, State.polled]

/-- A read of `Low` keeps the command waiting, or reaches the bound. -/
theorem State.pollBusy_low {s : State} (h : s.busyLevel = .low) (after : State → State) :
    s.pollBusy after =
      if timedOut s.env.platform (s.wait.getD 0 + 1) then s.polled.raise .panelUnresponsive
      else { s.polled with wait := some (s.wait.getD 0 + 1) } := by
  simp [State.pollBusy, h, State.polled]

/-- The next read of the busy line takes the state's next input. -/
theorem State.busyLevel_cons {s : State} {level : PinLevel} {rest : List PinLevel} (h : s.env.busyIn = level :: rest) :
    s.busyLevel = level := by
  simp [State.busyLevel, h]

/-- A command inside its wait polls again. -/
theorem State.waitBetween_waiting {s : State} {n : Nat} (h : s.wait = some n) (check : FaultCode)
    (before after : State → State) : s.waitBetween check before after = s.pollBusy after := by
  simp [State.waitBetween, h]

/-- A command whose entry test fails raises that fault and nothing else. -/
theorem State.waitBetween_refused {s : State} (h : s.wait = none) {check : FaultCode} (hc : check ≠ .noFault)
    (before after : State → State) : s.waitBetween check before after = s.raise check := by
  simp [State.waitBetween, h, hc]

/-- A command whose entry test passes does its first part and polls. -/
theorem State.waitBetween_begins {s : State} (h : s.wait = none) (before after : State → State) :
    s.waitBetween .noFault before after = (before s).pollBusy after := by
  simp [State.waitBetween, h]

/-- The entry test passes in the entry states only (rule R179). -/
theorem State.entryCheck_eq (s : State) (entry : List PanelState) :
    s.entryCheck entry = if s.pstate ∈ entry then .noFault else .badState := by
  simp [State.entryCheck]

/-- The tests of `panel_refresh`, in their order (rule R177). -/
theorem State.refreshCheck_eq (s : State) :
    s.refreshCheck =
      if s.pstate = .ready ∨ s.pstate = .deepCleaning ∨ s.pstate = .rendering then
        if s.fbValid = false then .noFramebuffer
        else if s.width ≠ 128 ∨ s.height ≠ 296 then .badGeometry else .noFault
      else .badState := by
  unfold State.refreshCheck
  rw [State.entryCheck_eq]
  by_cases h : s.pstate = .ready ∨ s.pstate = .deepCleaning ∨ s.pstate = .rendering
  · cases hv : s.fbValid
    · simp [h]
    · simp only [List.mem_cons, List.not_mem_nil, or_false, h]
      rfl
  · simp [h]

/-- Every command has a next state in every state: none faults the model and none is refused (rule R203). -/
theorem exec_next (i : Instr) (s : State) : ∃ t, exec i s = .next t := by
  cases i <;> exact ⟨_, rfl⟩

/-- What a step can do. -/
theorem step_cases {s t : State} (h : step s = .next t) :
    s.fault = .noFault ∧ s.cp ≠ s.env.stream.length ∧
    ((∃ i, decode (s.env.stream.drop s.cp) = .ok i ∧ exec i s = .next t) ∨
      (∃ e, decode (s.env.stream.drop s.cp) = .error e ∧ t = s.raise .illegalCommand)) := by
  unfold step State.fetch at h
  by_cases hf : s.fault = .noFault
  · by_cases hc : s.cp = s.env.stream.length
    · simp [hf, hc] at h
    · refine ⟨hf, hc, ?_⟩
      cases hd : decode (s.env.stream.drop s.cp) with
      | ok i => left; refine ⟨i, rfl, ?_⟩; simpa [hf, hc, hd] using h
      | error e =>
          right
          refine ⟨e, rfl, ?_⟩
          simp [hf, hc, hd] at h
          exact h.symm
  · simp [hf] at h

end Sys2Proof.Machine
end

