-- ==== Sys2Proof/Laws/Draw.lean ====
section
/-! SUPPORT. What a rendering command does to the state, from what its subroutine paints; and that the subroutines write
framebuffer memory through `setPixel` only (rule R104 (g)). -/

namespace Sys2Proof.Machine

/-- A rendering command whose subroutine paints `p` draws `p`. -/
theorem draws_render {s : State} (hd : Drawable s) (len : Nat) (paint : Memory → Memory) {p : Int → Int → Color → Prop}
    (hp : Paints s.width s.height s.fb (paint s.fb) p) : Draws s (s.render len paint) len p := by
  rw [State.render_valid hd.1]
  exact ⟨by simp only [PanelState.afterRendering_eq], hp.drawn, hp.kept, hp.bytes⟩

/-- What `fold` keeps of memory when every turn keeps it. -/
theorem keeps_foldl {α : Type} {P : Memory → Prop} {step : Memory → α → Memory} (hs : ∀ m i, P m → P (step m i))
    (l : List α) {m : Memory} (hm : P m) : P (l.foldl step m) := by
  induction l generalizing m with
  | nil => exact hm
  | cons i l ih => exact ih (hs m i hm)

section Keeps

variable {w h : Nat} {P : Memory → Prop} (hP : ∀ m x y c, P m → P (setPixel w h m x y c))

include hP

theorem keeps_fillRect {m : Memory} (x y rw rh : Int) (c : Color) (hm : P m) : P (fillRect w h m x y rw rh c) :=
  keeps_foldl (fun _ _ hm => keeps_foldl (fun _ _ hm => hP _ _ _ _ hm) _ hm) _ hm

omit hP in
theorem keeps_lineLoop {plot : Memory → Int → Int → Memory} (hplot : ∀ m a b, P m → P (plot m a b)) (aD aC sD sC : Int)
    (turns : Nat) {m : Memory} (dr cr err : Int) (hm : P m) : P (lineLoop plot aD aC sD sC turns m dr cr err) := by
  induction turns generalizing m dr cr err with
  | zero => exact hplot m dr cr hm
  | succ n ih => rw [lineLoop]; split_ifs <;> exact ih _ _ _ (hplot m dr cr hm)

theorem keeps_drawLine {m : Memory} (x0 y0 x1 y1 : Int) (c : Color) (hm : P m) : P (drawLine w h m x0 y0 x1 y1 c) := by
  unfold drawLine bresenham
  simp only
  split_ifs
  · exact keeps_fillRect hP _ _ _ _ _ hm
  · exact keeps_fillRect hP _ _ _ _ _ hm
  · exact keeps_lineLoop (fun _ _ _ hm => hP _ _ _ _ hm) _ _ _ _ _ _ _ _ hm
  · exact keeps_lineLoop (fun _ _ _ hm => hP _ _ _ _ hm) _ _ _ _ _ _ _ _ hm

omit hP in
theorem keeps_circleWalk {body : Memory → Int → Int → Memory} (hb : ∀ m a b, P m → P (body m a b)) {m : Memory}
    (r : Int) (hm : P m) : P (circleWalk body m r) := by
  have loop : ∀ (turns : Nat) (m : Memory) (x y d : Int), P m → P (circleLoop body turns m x y d) := by
    intro turns
    induction turns with
    | zero => exact fun _ _ _ _ hm => hm
    | succ n ih => intro m x y d hm; rw [circleLoop]; split_ifs <;> first | exact hm | exact ih _ _ _ _ (hb _ _ _ hm)
  exact loop _ _ _ _ _ hm

theorem keeps_drawCircle {m : Memory} (cx cy r : Int) (c : Color) (filled : Bool) (hm : P m) :
    P (drawCircle w h m cx cy r c filled) := by
  unfold drawCircle
  split
  · refine keeps_circleWalk (fun m a b hm => ?_) r hm
    unfold filledStep
    simp only
    split_ifs <;> repeat' first | assumption | apply keeps_drawLine hP
  · refine keeps_circleWalk (fun m a b hm => ?_) r hm
    unfold outlineStep
    simp only
    split_ifs <;> repeat' first | assumption | apply hP

omit hP in
theorem keeps_drawGlyphs {cell : Int → Memory → Nat → Nat → Bool → Memory}
    (hc : ∀ pen m c r bit, P m → P (cell pen m c r bit)) (scale : Int) (gh : Nat) (gs : List GlyphRecord) (pen : Int)
    {m : Memory} (hm : P m) : P (drawGlyphs cell scale gh gs pen m) := by
  induction gs generalizing pen m with
  | nil => exact hm
  | cons g gs ih => exact ih _ (keeps_foldl (fun _ _ hm => keeps_foldl (fun _ _ hm => hc _ _ _ _ _ hm) _ hm) _ hm)

theorem keeps_drawText {m : Memory} (x y : Int) (answer : GlyphAnswer) (c : Color) (hm : P m) :
    P (drawText w h m x y answer c) :=
  keeps_drawGlyphs (fun _ _ _ _ _ hm => hP _ _ _ _ hm) _ _ _ _ hm

theorem keeps_drawTextScaled {m : Memory} (x y : Int) (answer : GlyphAnswer) (c : Color) (scale : Int) (hm : P m) :
    P (drawTextScaled w h m x y answer c scale) :=
  keeps_drawGlyphs (fun _ _ _ _ _ hm => keeps_fillRect hP _ _ _ _ _ hm) _ _ _ _ hm

theorem keeps_drawModuleGrid {m : Memory} (x y modulePx : Int) (sideN : Nat) (bits : List Byte) (hm : P m) :
    P (drawModuleGrid w h m x y modulePx sideN bits) :=
  keeps_foldl (fun _ _ hm => keeps_foldl (fun _ _ hm => keeps_fillRect hP _ _ _ _ _ hm) _ hm) _ hm

end Keeps

end Sys2Proof.Machine
end

