-- ==== Sys2Proof/Laws/Panel.lean ====
section
/-! SUPPORT. The events of the panel controller in the closed forms that claims use, and what a waiting command does when it
begins and when it is found inside its wait. -/

namespace Sys2Proof.Machine

/-- One panel command, as claims write it. -/
theorem panelCmdEvents_eq (op : Byte) (payload : List Byte) : panelCmdEvents op payload = panelCmdTrace op payload := by
  cases payload <;> rfl

/-- The lines after one panel command. -/
@[simp] theorem csAfter_panelCmdTrace (level : CsLevel) (op : Byte) (payload : List Byte) :
    csAfter level (panelCmdTrace op payload) = .deasserted := by
  cases payload <;> rfl

@[simp] theorem dcAfter_panelCmdTrace (level : DcLevel) (op : Byte) (payload : List Byte) :
    dcAfter level (panelCmdTrace op payload) = if payload = [] then .command else .data := by
  cases payload <;> rfl

@[simp] theorem rstAfter_panelCmdTrace (level : PinLevel) (op : Byte) (payload : List Byte) :
    rstAfter level (panelCmdTrace op payload) = level := by
  cases payload <;> rfl

/-- The configuration commands before and after panel-on's wait. -/
theorem configureEventsToPanelOn_eq (ops : PanelOps) : configureEventsToPanelOn ops = panelOnTrace ops := by
  simp only [configureEventsToPanelOn, panelOnTrace, panelCmdEvents_eq]

theorem configureEventsAfterPanelOn_eq (ops : PanelOps) : configureEventsAfterPanelOn ops = afterPanelOnTrace ops := by
  simp only [configureEventsAfterPanelOn, afterPanelOnTrace, panelCmdEvents_eq]

/-- A payload that is not empty gives its first chunk, then the chunks of the rest. -/
theorem chunksUpTo_of_ne_nil (turns k : Nat) {bytes : List Byte} (h : bytes ≠ []) :
    chunksUpTo (turns + 1) k bytes = bytes.take k :: chunksUpTo turns k (bytes.drop k) := by
  cases bytes with
  | nil => exact (h rfl).elim
  | cons b bs => rfl

@[simp] theorem chunksUpTo_nil (turns k : Nat) : chunksUpTo turns k [] = [] := by
  cases turns <;> rfl

/-- A full plane goes in five bus writes. -/
theorem planeEvents_eq (op : Byte) {plane : List Byte} (h : plane.length = 4736) :
    planeEvents op plane = planeTrace op plane := by
  have rest : ∀ n, n < 4736 → plane.drop n ≠ [] := fun n hn he => by
    have := congrArg List.length he
    simp [h] at this
    omega
  have chunks : chunksOf 1024 plane =
      [plane.take 1024, (plane.drop 1024).take 1024, (plane.drop 2048).take 1024, (plane.drop 3072).take 1024,
        plane.drop 4096] := by
    unfold chunksOf
    rw [h, show 4736 = 4731 + 1 + 1 + 1 + 1 + 1 from rfl, chunksUpTo_of_ne_nil _ _ (by simpa using rest 0 (by omega)),
      chunksUpTo_of_ne_nil _ _ (rest 1024 (by omega))]
    simp only [List.drop_drop]
    rw [chunksUpTo_of_ne_nil _ _ (rest _ (by omega)), chunksUpTo_of_ne_nil _ _ (by simpa using rest 3072 (by omega)),
      chunksUpTo_of_ne_nil _ _ (by simpa using rest 4096 (by omega))]
    simp only [List.drop_drop, Nat.reduceAdd, List.drop_eq_nil_of_le (show plane.length ≤ 5120 by omega), chunksUpTo_nil]
    rw [List.take_of_length_le (l := plane.drop 4096) (by simp [h])]
  unfold planeEvents chunkedEvents
  rw [show Config.panelChunk = 1024 from rfl, chunks]
  rfl

/-- Two full planes and the refresh. -/
theorem refreshEvents_eq (ops : PanelOps) {old new : List Byte} (ho : old.length = 4736) (hn : new.length = 4736) :
    refreshEvents ops old new = refreshTrace ops old new := by
  rw [refreshEvents, refreshTrace, planeEvents_eq _ ho, planeEvents_eq _ hn]
  rfl

theorem blackPlane_length : blackPlane.length = 4736 := List.length_replicate

theorem whitePlane_length : whitePlane.length = 4736 := List.length_replicate

/-- The constant planes of the controller. -/
theorem solidPlane_black : solidPlane .black = blackPlane := rfl

theorem solidPlane_white : solidPlane .white = whitePlane := rfl

theorem framePlane_length (s : State) : (framePlane s).length = 4736 := (List.length_map _).trans List.length_range

/-- The framebuffer as the refresh reads it is the plane of its bytes. -/
theorem bytesFrom_eq_framePlane (s : State) : s.fb.bytesFrom 0 Config.panelBytes = framePlane s := by
  rw [Memory.bytesFrom_eq, framePlane, List.range_eq_range']
  rfl

/-- The lines after two planes and the refresh. -/
@[simp] theorem csAfter_refreshTrace (level : CsLevel) (ops : PanelOps) (old new : List Byte) :
    csAfter level (refreshTrace ops old new) = .deasserted := rfl

@[simp] theorem dcAfter_refreshTrace (level : DcLevel) (ops : PanelOps) (old new : List Byte) :
    dcAfter level (refreshTrace ops old new) = .command := rfl

@[simp] theorem rstAfter_refreshTrace (level : PinLevel) (ops : PanelOps) (old new : List Byte) :
    rstAfter level (refreshTrace ops old new) = level := rfl

/-- The first part of a command leaves the inputs and the wait. -/
@[simp] theorem beforeWait_env (i : Instr) (s : State) : (beforeWait i s).env = s.env := by
  cases i <;> rfl

@[simp] theorem beforeWait_wait (i : Instr) (s : State) : (beforeWait i s).wait = s.wait := by
  cases i <;> rfl

/-- A waiting command found inside its wait polls. -/
theorem exec_inside_wait {i : Instr} {s : State} {n : Nat} (hi : commandWaits i = true) (h : s.wait = some n) :
    ∃ after, exec i s = .next (s.pollBusy after) := by
  cases i <;> first | contradiction | exact ⟨_, congrArg Host.Outcome.next (State.waitBetween_waiting h _ _ _)⟩

/-- A wait that begins, its entry test passed, polls in the state its first part leads to. -/
theorem State.waitBetween_from {s u : State} {check : FaultCode} {before after : State → State} (hw : s.wait = none)
    (hc : check = .noFault) (hu : before s = u) : s.waitBetween check before after = u.pollBusy after := by
  subst hc hu
  exact State.waitBetween_begins hw _ _

/-- A waiting command that begins where rule R191 names no fault for it does its first part and polls. -/
theorem exec_begins_wait {i : Instr} {s : State} (hi : commandWaits i = true) (hw : s.wait = none)
    (h : RaisesAtEntry s i .noFault) : ∃ after, exec i s = .next ((beforeWait i s).pollBusy after) := by
  have entry : ∀ p : PanelState, ((s.pstate ≠ p ∧ FaultCode.noFault = .badState) ∨
      (¬ s.pstate ≠ p ∧ FaultCode.noFault = .noFault)) → s.entryCheck [p] = .noFault := by
    rintro p (⟨_, hp⟩ | ⟨hp, _⟩)
    · cases hp
    · rw [State.entryCheck_eq, if_pos (by simpa using hp)]
  cases i <;> try contradiction
  case waitUntilIdle => exact ⟨_, congrArg Host.Outcome.next (State.waitBetween_begins hw _ _)⟩
  case panelReset =>
    refine ⟨_, congrArg Host.Outcome.next (State.waitBetween_from hw (entry _ h) ?_)⟩
    rw [State.emitAll_eq]
    rfl
  case panelConfigure =>
    refine ⟨_, congrArg Host.Outcome.next (State.waitBetween_from hw (entry _ h) ?_)⟩
    simp only [State.emitAll_eq, configureEventsToPanelOn_eq, beforeWait, panelOnTrace, csAfter_append, dcAfter_append,
      rstAfter_append, csAfter_panelCmdTrace, dcAfter_panelCmdTrace, rstAfter_panelCmdTrace]
  case panelDeepClean =>
    refine ⟨_, congrArg Host.Outcome.next (State.waitBetween_from hw (entry _ h) ?_)⟩
    rw [solidPlane_black, solidPlane_white, refreshEvents_eq _ blackPlane_length whitePlane_length, State.emitAll_eq]
    rfl
  case panelRefresh =>
    rcases h with ⟨_, h⟩ | ⟨hp, ⟨_, h⟩ | ⟨hv, ⟨_, h⟩ | ⟨hg, _⟩⟩⟩
    · cases h
    · cases h
    · cases h
    · refine ⟨_, congrArg Host.Outcome.next (State.waitBetween_from hw ?_ ?_)⟩
      · rw [State.refreshCheck_eq, if_pos hp, if_neg (by simp [hv]), if_neg hg]
      · rw [bytesFrom_eq_framePlane, solidPlane_white,
          refreshEvents_eq _ whitePlane_length (framePlane_length s), State.emitAll_eq]
        rfl

end Sys2Proof.Machine
end

