-- ==== Sys2Proof/Laws/PerInstr.lean ====
section
/-! SUPPORT. A statement about every command as syntax: its words are as many as rule R73 gives its format. -/

namespace Sys2Proof.Laws.EncodeLength

/-- The encoding of `i` has the length of its format (rule R73). -/
def Statement (i : Instr) : Prop :=
  (encode i).length = i.lengthWords

theorem fbCreate (width height : Int) : Statement (.fbCreate width height) := rfl

theorem setPixel (x y : Int) (color : Color) : Statement (.setPixel x y color) := rfl

theorem getPixel (x y : Int) : Statement (.getPixel x y) := rfl

theorem fbFill (color : Color) : Statement (.fbFill color) := rfl

theorem fillRect (x y w h : Int) (color : Color) : Statement (.fillRect x y w h color) := rfl

theorem drawLine (x0 y0 x1 y1 : Int) (color : Color) : Statement (.drawLine x0 y0 x1 y1 color) := rfl

theorem drawCircle (cx cy r : Int) (color : Color) (filled : Bool) : Statement (.drawCircle cx cy r color filled) := rfl

theorem drawText (x y font : Int) (chars : List Word) (color : Color) : Statement (.drawText x y font chars color) := by
  simp [Statement, encode, Instr.lengthWords]
  omega

theorem drawTextScaled (x y font scale : Int) (chars : List Word) (color : Color) :
    Statement (.drawTextScaled x y font scale chars color) := by
  simp [Statement, encode, Instr.lengthWords]
  omega

theorem drawModuleGrid (x y modulePx sideN : Int) (bits : List Byte) :
    Statement (.drawModuleGrid x y modulePx sideN bits) := by
  simp [Statement, encode, Instr.lengthWords, length_packBytes]
  omega

theorem sendCommand (opcode : Byte) : Statement (.sendCommand opcode) := rfl

theorem sendData (bytes : List Byte) : Statement (.sendData bytes) := by
  simp [Statement, encode, Instr.lengthWords, length_packBytes]
  omega

theorem sendDataChunked (chunkSize : Int) (bytes : List Byte) : Statement (.sendDataChunked chunkSize bytes) := by
  simp [Statement, encode, Instr.lengthWords, length_packBytes]
  omega

theorem waitUntilIdle : Statement .waitUntilIdle := rfl

theorem panelReset : Statement .panelReset := rfl

theorem panelConfigure : Statement .panelConfigure := rfl

theorem panelDeepClean : Statement .panelDeepClean := rfl

theorem panelRefresh : Statement .panelRefresh := rfl

theorem panelPowerDown : Statement .panelPowerDown := rfl

end Sys2Proof.Laws.EncodeLength
end

