-- ==== Sys2Proof/Tests/Slice0.lean ====
section
/-! SUPPORT. The model's own tests. Expected values are the spec's: rule R83's worked encodings, the fields of rules R72 to
R77 written out, and the vectors of spec/95_test_vectors.md (their numbers stand in the docstrings). A `witness_` theorem
shows a concrete state and operands that meet all premises of the statement it is named after. -/

namespace Sys2Proof.Tests

open Sys2Proof.Machine

-- One test after another: elaborated side by side, the tests ask for one thread each.
set_option Elab.async false

/-! ## Small states -/

/-- Opcode bytes and payloads, made up; the third and the last payload are empty. -/
def panelOps : PanelOps :=
  { opPanelSetting := 0x01, payPanelSetting := [0xA1]
    opPowerSetting := 0x02, payPowerSetting := [0xA2, 0xB2]
    opBoosterSoftStart := 0x03, payBoosterSoftStart := []
    opPll := 0x04, payPll := [0xA4]
    opPanelOn := 0x05, payPanelOn := [0xA5]
    opResolution := 0x06, payResolution := [0xA6]
    opVcomDataInterval := 0x07, payVcomDataInterval := [0xA7]
    opTcon := 0x08, payTcon := []
    opDataTransfer1 := 0x09, opDataTransfer2 := 0x0A, opDisplayRefresh := 0x0B, opPowerOff := 0x0C }

/-- The answer of the made-up provider for "Li" (spec/95_test_vectors.md V5). -/
def answerLi : GlyphAnswer :=
  ⟨5, [⟨4, [15, 8, 8, 8, 8]⟩, ⟨2, [2, 2, 2, 0, 2]⟩]⟩

/-- A platform with a poll interval of 10 ms and no timeout, given answers, a stream and the next busy reads. -/
def env (stream : List Word) (busyIn : List PinLevel) : Environment :=
  { stream := stream
    busyIn := busyIn
    busyReads := 0
    glyphTable :=
      [⟨7, [0x4C, 0x69], answerLi⟩, ⟨7, [0x4C], ⟨5, [⟨4, [15, 8, 8, 8, 8]⟩]⟩⟩, ⟨7, [1], ⟨1, [⟨3, [0xFD]⟩]⟩⟩,
        ⟨7, [2], ⟨5, [⟨4, [15, 8, 8, 8]⟩]⟩⟩]
    platform :=
      { pollMs := 10, busyTimeoutPolls := none, panelOps := panelOps, csAssertLevel := .low, dcCommandLevel := .low } }

/-- The same environment with a busy timeout. -/
def envLimit (busyIn : List PinLevel) (limit : Nat) : Environment :=
  { env [] busyIn with platform := { (env [] []).platform with busyTimeoutPolls := some limit } }

/-- After reset, in a panel state, with a stream and the next busy reads. -/
def panel (p : PanelState) (stream : List Word) (busyIn : List PinLevel) : State :=
  { State.reset with pstate := p, env := env stream busyIn }

/-- A framebuffer of `w` by `h` pixels with every byte `v`. -/
def frame (w h : Nat) (v : Byte) : State :=
  { panel .unpowered [] [] with width := w, height := h, fbValid := true, fb := Memory.fill [] (w * h / 8) v }

/-- A view of the next state, if the outcome is one. -/
def view {α : Type} (f : State → α) (o : Host.Outcome State Fault Refusal) : Option α :=
  match o with
  | .next t => some (f t)
  | .fault _ => none
  | .refused _ => none

/-- The bytes of the picture. -/
def picture (s : State) : List Byte :=
  (List.range s.fbBytes).map s.fb.byte

/-- The header word field by field: bits 31 to 10 zero, then `F`, `C` and `OPC` (rule R72). -/
def header (f c : BitVec 1) (opc : Byte) : Word :=
  0#22 ++ f ++ c ++ opc

/-! ## Well-formedness: an ill-formed command for each check -/

theorem test_wf_operand_too_large : inSigned32 2147483648 = false := by decide

theorem test_wf_operand_too_small : inSigned32 (-2147483649) = false := by decide

theorem test_wf_extremes :
    (Instr.setPixel (-2147483648) 2147483647 .black).wf = true := by decide

theorem test_wf_fb_create : (Instr.fbCreate 2147483648 8).wf = false ∧ (Instr.fbCreate 8 2147483648).wf = false := by
  decide

theorem test_wf_set_pixel :
    (Instr.setPixel 2147483648 0 .black).wf = false ∧ (Instr.setPixel 0 (-2147483649) .black).wf = false := by decide

theorem test_wf_get_pixel :
    (Instr.getPixel 2147483648 0).wf = false ∧ (Instr.getPixel 0 2147483648).wf = false := by decide

theorem test_wf_fill_rect :
    (Instr.fillRect 2147483648 0 0 0 .black).wf = false ∧ (Instr.fillRect 0 2147483648 0 0 .black).wf = false ∧
    (Instr.fillRect 0 0 2147483648 0 .black).wf = false ∧ (Instr.fillRect 0 0 0 2147483648 .black).wf = false := by decide

theorem test_wf_draw_line :
    (Instr.drawLine 2147483648 0 0 0 .black).wf = false ∧ (Instr.drawLine 0 2147483648 0 0 .black).wf = false ∧
    (Instr.drawLine 0 0 2147483648 0 .black).wf = false ∧ (Instr.drawLine 0 0 0 2147483648 .black).wf = false := by decide

theorem test_wf_draw_circle :
    (Instr.drawCircle 2147483648 0 0 .black true).wf = false ∧
    (Instr.drawCircle 0 2147483648 0 .black true).wf = false ∧
    (Instr.drawCircle 0 0 2147483648 .black true).wf = false := by decide

theorem test_wf_draw_text :
    (Instr.drawText 2147483648 0 0 [] .black).wf = false ∧ (Instr.drawText 0 2147483648 0 [] .black).wf = false ∧
    (Instr.drawText 0 0 2147483648 [] .black).wf = false := by decide

theorem test_wf_draw_text_scaled :
    (Instr.drawTextScaled 2147483648 0 0 1 [] .black).wf = false ∧
    (Instr.drawTextScaled 0 2147483648 0 1 [] .black).wf = false ∧
    (Instr.drawTextScaled 0 0 2147483648 1 [] .black).wf = false ∧
    (Instr.drawTextScaled 0 0 0 2147483648 [] .black).wf = false := by decide

theorem test_wf_draw_module_grid :
    (Instr.drawModuleGrid 2147483648 0 1 1 []).wf = false ∧ (Instr.drawModuleGrid 0 2147483648 1 1 []).wf = false ∧
    (Instr.drawModuleGrid 0 0 2147483648 1 []).wf = false ∧ (Instr.drawModuleGrid 0 0 1 2147483648 []).wf = false := by
  decide

theorem test_wf_send_data_chunked : (Instr.sendDataChunked 2147483648 []).wf = false := by decide

/-- A payload longer than a count operand can say. -/
theorem test_wf_counts (chars : List Word) (bytes : List Byte) (hc : 2147483647 < chars.length)
    (hb : 2147483647 < bytes.length) :
    (Instr.drawText 0 0 0 chars .black).wf = false ∧ (Instr.drawTextScaled 0 0 0 1 chars .black).wf = false ∧
    (Instr.drawModuleGrid 0 0 1 1 bytes).wf = false ∧ (Instr.sendData bytes).wf = false ∧
    (Instr.sendDataChunked 1 bytes).wf = false := by
  have h1 : inCount chars.length = false := decide_eq_false (by omega)
  have h2 : inCount bytes.length = false := decide_eq_false (by omega)
  simp only [Instr.wf, h1, h2, Bool.and_false, and_self]

/-! ## Decoding: every command's words, from the fields of rules R72 to R77 -/

theorem test_decode_fb_create :
    decode [header 0 0 0x01, 0x00000080, 0x00000128] = .ok (.fbCreate 128 296) := by decide

theorem test_decode_set_pixel :
    decode [header 0 1 0x02, 0xFFFFFFFF, 0x00000005] = .ok (.setPixel (-1) 5 .white) := by decide

theorem test_decode_get_pixel :
    decode [header 0 0 0x03, 0x0000007F, 0x00000127] = .ok (.getPixel 127 295) := by decide

theorem test_decode_fb_fill :
    decode [header 0 1 0x04] = .ok (.fbFill .white) ∧ decode [header 0 0 0x04] = .ok (.fbFill .black) := by decide

theorem test_decode_fill_rect :
    decode [header 0 0 0x10, 0x00000001, 0x00000002, 0x0000000E, 0x00000006] = .ok (.fillRect 1 2 14 6 .black) := by
  decide

theorem test_decode_draw_line :
    decode [header 0 1 0x11, 0x80000000, 0x00000002, 0x0000000D, 0x7FFFFFFF] =
      .ok (.drawLine (-2147483648) 2 13 2147483647 .white) := by decide

theorem test_decode_draw_circle :
    decode [header 1 1 0x12, 0x00000040, 0x00000094, 0x0000000A] = .ok (.drawCircle 64 148 10 .white true) ∧
    decode [header 1 0 0x12, 0x00000040, 0x00000094, 0x0000000A] = .ok (.drawCircle 64 148 10 .black true) := by decide

theorem test_decode_draw_text :
    decode [header 0 0 0x20, 1, 2, 7, 2, 0x0000004C, 0x00000069, 0xDEADBEEF] =
      .ok (.drawText 1 2 7 [0x4C, 0x69] .black) := by decide

theorem test_decode_draw_text_scaled :
    decode [header 0 1 0x21, 1, 2, 7, 3, 1, 0x0000004C] = .ok (.drawTextScaled 1 2 7 3 [0x4C] .white) := by decide

theorem test_decode_draw_module_grid :
    decode [header 0 0 0x30, 1, 2, 4, 3, 2, 0x0000BBAA] = .ok (.drawModuleGrid 1 2 4 3 [0xAA, 0xBB]) := by decide

theorem test_decode_send_command : decode [header 0 0 0x40, 0x000000FF] = .ok (.sendCommand 0xFF) := by decide

theorem test_decode_send_data :
    decode [header 0 0 0x41, 5, 0x78563412, 0x0000009A] = .ok (.sendData [0x12, 0x34, 0x56, 0x78, 0x9A]) := by decide

theorem test_decode_send_data_chunked :
    decode [header 0 0 0x42, 2, 5, 0x04030201, 0x00000005] = .ok (.sendDataChunked 2 [1, 2, 3, 4, 5]) := by decide

theorem test_decode_wait_until_idle : decode [header 0 0 0x43] = .ok .waitUntilIdle := by decide

theorem test_decode_panel_reset : decode [header 0 0 0x50] = .ok .panelReset := by decide

theorem test_decode_panel_configure : decode [header 0 0 0x51] = .ok .panelConfigure := by decide

theorem test_decode_panel_deep_clean : decode [header 0 0 0x52] = .ok .panelDeepClean := by decide

theorem test_decode_panel_refresh : decode [header 0 0 0x53] = .ok .panelRefresh := by decide

theorem test_decode_panel_power_down : decode [header 0 0 0x54] = .ok .panelPowerDown := by decide

/-- V8: the illegal streams. -/
theorem test_decode_illegal :
    decode [0x00000000] = .error .illegalHeader ∧
    decode [0x00000005] = .error .illegalHeader ∧
    decode [0x00000103, 0, 0] = .error .illegalHeader ∧
    decode [0x00000202, 0, 0] = .error .illegalHeader ∧
    decode [0x00000402, 0, 0] = .error .illegalHeader ∧
    decode [0x00000040, 0x00000100] = .error .opcodeOutOfRange ∧
    decode [0x00000040, 0xFFFFFFFF] = .error .opcodeOutOfRange ∧
    decode [0x00000041, 5, 0x78563412] = .error .truncated ∧
    decode [0x00000041, 5, 0x78563412, 0x0000FF9A] = .error .paddingNotZero ∧
    decode [0x00000020, 0, 0, 7, 0xFFFFFFFF] = .error .negativeCount := by decide

/-- Rule R71: a stored stream is little-endian. -/
theorem test_decode_bytes :
    decodeBytes [0x02, 0x01, 0x00, 0x00, 0xFF, 0xFF, 0xFF, 0xFF, 0x05, 0x00, 0x00, 0x00] =
      .ok (.setPixel (-1) 5 .white) := by decide

theorem test_table_word : decodeTableWord 96 0x000000050000000300000102 = some (.setPixel 3 5 .white) := by decide

theorem test_fetch_word :
    view (fun t => (t.fault, t.cp)) (step (State.reset.withFetchWord 32 0x40)) = some (.noFault, 2) := by decide +kernel

/-! ## One step of each command -/

/-- V1 and rule R100's corner cases. -/
theorem test_fb_create :
    view (fun t => (t.width, t.height, picture t, t.cp)) (exec (.fbCreate 8 2) (panel .ready [] [])) =
      some (8, 2, [0xFF, 0xFF], 3) ∧
    view (fun t => t) (exec (.fbCreate 12 2) (panel .ready [] [])) =
      some { panel .ready [] [] with fault := .badGeometry } := by decide +kernel

theorem test_fb_create_bounds :
    view State.fault (exec (.fbCreate 128 297) (panel .ready [] [])) = some .badGeometry ∧
    view State.fault (exec (.fbCreate (-8) 8) (panel .ready [] [])) = some .badGeometry ∧
    view State.fault (exec (.fbCreate 0 296) (panel .ready [] [])) = some .badGeometry := by decide +kernel

/-- V1: pixel (127, 295) of the panel is bit 0 of `FB[4735]`; here the same corner of a small framebuffer. -/
theorem test_set_pixel :
    view picture (exec (.setPixel 15 1 .black) (frame 16 2 0xFF)) = some [0xFF, 0xFF, 0xFF, 0xFE] ∧
    view picture (exec (.setPixel 0 0 .black) (frame 16 2 0xFF)) = some [0x7F, 0xFF, 0xFF, 0xFF] := by decide +kernel

theorem test_set_pixel_no_framebuffer :
    view State.fault (exec (.setPixel 0 0 .black) (panel .ready [] [])) = some .noFramebuffer := by decide +kernel

theorem test_get_pixel :
    view State.res (exec (.getPixel 15 1) (frame 16 2 0xFE)) = some (some .black) ∧
    view State.res (exec (.getPixel 14 1) (frame 16 2 0xFE)) = some (some .white) := by decide +kernel

theorem test_get_pixel_out_of_range :
    view State.res (exec (.getPixel 16 0) { frame 16 2 0xFE with res := some .black }) = some none := by decide +kernel

theorem test_fb_fill :
    view picture (exec (.fbFill .black) (frame 8 2 0xFF)) = some [0x00, 0x00] ∧
    view picture (exec (.fbFill .white) (frame 8 2 0x00)) = some [0xFF, 0xFF] := by decide +kernel

/-- V2, first row. -/
theorem test_fill_rect :
    view picture (exec (.fillRect 3 1 7 3 .black) (frame 16 8 0xFF)) =
      some [0xFF, 0xFF, 0xE0, 0x3F, 0xE0, 0x3F, 0xE0, 0x3F, 0xFF, 0xFF, 0xFF, 0xFF, 0xFF, 0xFF, 0xFF, 0xFF] := by
  decide +kernel

/-- V2: clipped left and bottom. -/
theorem test_fill_rect_clipped :
    view picture (exec (.fillRect (-2) 6 5 9 .black) (frame 16 8 0xFF)) =
      some [0xFF, 0xFF, 0xFF, 0xFF, 0xFF, 0xFF, 0xFF, 0xFF, 0xFF, 0xFF, 0xFF, 0xFF, 0x1F, 0xFF, 0x1F, 0xFF] := by
  decide +kernel

/-- V3.14. -/
theorem test_draw_line :
    view picture (exec (.drawLine 0 0 1 2 .black) (frame 16 3 0xFF)) =
      some [0x7F, 0xFF, 0x7F, 0xFF, 0xBF, 0xFF] := by decide +kernel

/-- V3.15: a line is not its reverse. -/
theorem test_draw_line_reversed :
    view picture (exec (.drawLine 1 2 0 0 .black) (frame 16 3 0xFF)) =
      some [0x7F, 0xFF, 0xBF, 0xFF, 0xBF, 0xFF] := by decide +kernel

/-- V4.8: clipped outline of radius 3 about (0, 0). -/
theorem test_draw_circle_outline :
    view picture (exec (.drawCircle 0 0 3 .black false) (frame 16 4 0xFF)) =
      some [0xEF, 0xFF, 0xEF, 0xFF, 0xDF, 0xFF, 0x3F, 0xFF] := by decide +kernel

/-- V4.8: clipped disc of radius 3 about (0, 0). -/
theorem test_draw_circle_filled :
    view picture (exec (.drawCircle 0 0 3 .black true) (frame 16 4 0xFF)) =
      some [0x0F, 0xFF, 0x0F, 0xFF, 0x1F, 0xFF, 0x3F, 0xFF] := by decide +kernel

/-- V5.5: opaque text, rows bottom-first. -/
theorem test_draw_text :
    view picture (exec (.drawText 1 1 7 [0x4C, 0x69] .black) (frame 16 8 0x00)) =
      some [0x00, 0x00, 0x3A, 0x00, 0x3E, 0x00, 0x3A, 0x00, 0x3A, 0x00, 0x02, 0x00, 0x00, 0x00, 0x00, 0x00] := by
  decide +kernel

/-- V5.13: a record with 4 rows when `gh = 5`. -/
theorem test_draw_text_malformed :
    view (fun t => t) (exec (.drawText 1 1 7 [2] .black) (frame 16 8 0xFF)) =
      some { frame 16 8 0xFF with fault := .glyphMalformed } := by
  decide +kernel

/-- V5.10, its first four rows: the "L" and the "i" at scale 2. -/
theorem test_draw_text_scaled :
    view (fun t => (picture t).take 12) (exec (.drawTextScaled 1 2 7 2 [0x4C, 0x69] .black) (frame 16 16 0xFF)) =
      some [0xFF, 0xFF, 0xFF, 0xFF, 0x9F, 0x9F, 0x9F, 0x9F, 0x9F, 0xFF, 0x9F, 0xFF] := by decide +kernel

/-- V5.12. -/
theorem test_draw_text_scaled_zero :
    view (fun t => (picture t, t.cp)) (exec (.drawTextScaled 1 1 7 0 [0x4C] .black) (frame 8 1 0xFF)) =
      some ([0xFF], 7) := by decide +kernel

/-- V6.4. -/
theorem test_draw_module_grid :
    view picture (exec (.drawModuleGrid 0 0 1 3 [0xAB, 0x00]) (frame 16 3 0xFF)) =
      some [0x5F, 0xFF, 0xBF, 0xFF, 0x3F, 0xFF] := by decide +kernel

/-- V6.8. -/
theorem test_draw_module_grid_undersized :
    view (fun t => t) (exec (.drawModuleGrid 0 0 2 3 [0xAB]) (frame 8 1 0xFF)) =
      some { frame 8 1 0xFF with fault := .gridUndersized } := by
  decide +kernel

/-- V7.1. -/
theorem test_send_command :
    view (fun t => (t.trace, t.dc, t.cp)) (exec (.sendCommand 0x12) (panel .ready [] [])) =
      some ([.pinDc .command, .pinCs .asserted, .bus [0x12], .pinCs .deasserted], .command, 2) := by decide +kernel

/-- V7.2 and V7.3. -/
theorem test_send_data :
    view (fun t => (t.trace, t.cp)) (exec (.sendData [0x0F, 0x0A]) (panel .ready [] [])) =
      some ([.pinDc .data, .pinCs .asserted, .bus [0x0F, 0x0A], .pinCs .deasserted], 3) ∧
    view State.trace (exec (.sendData []) (panel .ready [] [])) =
      some [.pinDc .data, .pinCs .asserted, .pinCs .deasserted] := by decide +kernel

/-- V7.4. -/
theorem test_send_data_chunked :
    view State.trace (exec (.sendDataChunked 2 [1, 2, 3, 4, 5]) (panel .ready [] [])) =
      some [.pinDc .data, .pinCs .asserted, .bus [1, 2], .bus [3, 4], .bus [5], .pinCs .deasserted] := by decide +kernel

/-- V7.8. -/
theorem test_send_data_chunked_bad :
    view (fun t => t) (exec (.sendDataChunked (-5) [1]) (panel .ready [] [])) =
      some { panel .ready [] [] with fault := .badChunkSize } := by
  decide +kernel

/-- V7.9. -/
theorem test_wait_until_idle :
    view (fun t => (t.trace, t.cp, t.wait)) (exec .waitUntilIdle (panel .ready [] [.high])) =
      some ([.sleep 10, .busyRead .high], 1, none) := by decide +kernel

/-- V7.12: the third `Low` of three. -/
theorem test_wait_until_idle_timeout :
    view (fun t => (t.trace, t.cp, t.fault))
        (exec .waitUntilIdle { panel .ready [] [] with wait := some 2, env := envLimit [.low] 3 }) =
      some ([.sleep 10, .busyRead .low], 0, .panelUnresponsive) := by decide +kernel

/-- Rule R172's example. -/
theorem test_panel_reset :
    view (fun t => (t.trace, t.pstate, t.rst)) (exec .panelReset (panel .unpowered [] [.high])) =
      some ([.pinRst .low, .sleep 200, .pinRst .high, .sleep 200, .sleep 10, .busyRead .high], .resetting, .high) := by
  decide +kernel

/-- V8: `panel_configure` at reset. -/
theorem test_panel_configure_bad_state :
    view (fun t => t) (exec .panelConfigure (panel .unpowered [] [])) =
      some { panel .unpowered [] [] with fault := .badState } := by
  decide +kernel

/-- Rule R173's order, as the panel sees it; an empty payload has no data phase. -/
theorem test_panel_configure :
    view (fun t => (wire .data t.trace, t.pstate)) (exec .panelConfigure (panel .resetting [] [.high])) =
      some
        ([⟨.command, [0x01]⟩, ⟨.data, [0xA1]⟩, ⟨.command, [0x02]⟩, ⟨.data, [0xA2, 0xB2]⟩, ⟨.command, [0x03]⟩,
          ⟨.command, [0x04]⟩, ⟨.data, [0xA4]⟩, ⟨.command, [0x05]⟩, ⟨.data, [0xA5]⟩, ⟨.command, [0x06]⟩, ⟨.data, [0xA6]⟩,
          ⟨.command, [0x07]⟩, ⟨.data, [0xA7]⟩, ⟨.command, [0x08]⟩], .ready) := by decide +kernel

/-- Rule R175: the bus writes of the two planes, and the state afterwards. -/
theorem test_panel_deep_clean :
    view
        (fun t =>
          ((wire .data t.trace).map fun x => (x.mode, x.bytes.length, x.bytes.take 1),
            (t.trace.filterMap fun e =>
              match e with
              | .bus bytes => some bytes.length
              | .pinCs _ => none
              | .pinDc _ => none
              | .pinRst _ => none
              | .busyRead _ => none
              | .sleep _ => none),
            t.pstate))
        (exec .panelDeepClean (panel .ready [] [.high])) =
      some
        ([(.command, 1, [0x09]), (.data, 4736, [0x00]), (.command, 1, [0x0A]), (.data, 4736, [0xFF]),
          (.command, 1, [0x0B])],
          [1, 1024, 1024, 1024, 1024, 640, 1, 1024, 1024, 1024, 1024, 640, 1], .deepCleaning) := by decide +kernel

/-- Rule R177's order of tests: state, then framebuffer, then geometry. -/
theorem test_panel_refresh_faults :
    view State.fault (exec .panelRefresh (panel .unpowered [] [])) = some .badState ∧
    view State.fault (exec .panelRefresh (panel .ready [] [])) = some .noFramebuffer ∧
    view State.fault (exec .panelRefresh { frame 16 8 0xFF with pstate := .rendering }) = some .badGeometry := by
  decide +kernel

/-- Rule R177: found inside its wait, the command ends with the settle delay and in `Refreshing`. -/
theorem test_panel_refresh_ends :
    view (fun t => (t.trace, t.pstate, t.cp))
        (exec .panelRefresh { panel .rendering [] [.high] with wait := some 4 }) =
      some ([.sleep 10, .busyRead .high, .sleep 1000], .refreshing, 1) := by decide +kernel

theorem test_panel_power_down :
    view (fun t => (t.trace, t.pstate)) (exec .panelPowerDown (panel .refreshing [] [])) =
      some ([.pinDc .command, .pinCs .asserted, .bus [0x0C], .pinCs .deasserted], .poweredDown) := by decide +kernel

theorem test_panel_power_down_bad_state :
    view State.fault (exec .panelPowerDown (panel .poweredDown [] [])) = some .badState := by decide +kernel

/-- Rule R192: a halted unit has no step; rule R227: nor has a run that has ended. -/
theorem test_step_ends :
    step { panel .ready [0x54] [] with fault := .badState } = .fault .halted ∧
    step (panel .ready [] []) = .fault .runEnded := ⟨rfl, rfl⟩

/-- Rule R154's wire view of a chunked payload. -/
theorem test_wire :
    wire .command (chunkedEvents [1, 2, 3] 2) = [⟨.data, [1, 2, 3]⟩] := by decide +kernel

/-! ## Witnesses: concrete states that meet the premises of the statements -/

theorem frame_drawable : Drawable (frame 16 8 0xFF) := ⟨rfl, rfl⟩

theorem frame_ok : FramebufferOk (frame 16 1 0xFF) := by unfold FramebufferOk; decide +kernel

theorem no_limit {limit n : Nat} (h : (none : Option Nat) = some limit) : n < limit := nomatch h

theorem answerLi_wf : AnswerWellFormed 2 answerLi := by unfold AnswerWellFormed; decide

theorem witness_DecodeOfEncodeIsTheCommand :
    (Instr.drawModuleGrid (-2147483648) 2147483647 0 (-1) [1, 2, 3]).wf = true ∧
    (Instr.sendDataChunked 2147483647 []).wf = true := by decide

theorem witness_DecodedWordsAreTheEncoding :
    decode [0x20, 0, 0, 7, 1, 0x4C, 0x54] = .ok (.drawText 0 0 7 [0x4C] .black) := by decide

theorem witness_OpcodeRowsAreDisjoint :
    let row : OpcodeRow := ⟨.fillRect, 0x00000010, 0xFFFFFEFF⟩
    row ∈ opcodeTable ∧ (0x00000110 : Word) &&& row.mask = row.pattern := by decide

/-- A legal header, and an illegal one of each kind: no opcode, a reserved bit, a stray `C`, a stray `F`. -/
theorem witness_HeadersAreLegalOrRefused :
    LegalHeader 0x312 ∧ LegalHeader 0x54 ∧ ¬ LegalHeader 0x00 ∧ ¬ LegalHeader 0x402 ∧ ¬ LegalHeader 0x103 ∧
    ¬ LegalHeader 0x202 := by
  refine ⟨?_, ?_, ?_, ?_, ?_, ?_⟩ <;> unfold LegalHeader <;> decide

theorem witness_StepRunsTheDecodedCommand :
    (panel .ready [0x104] []).fault = .noFault ∧
    decode ((panel .ready [0x104] []).env.stream.drop (panel .ready [0x104] []).cp) = .ok (.fbFill .white) := by decide

theorem witness_IllegalCommandRaisesAndChangesNothingElse :
    let s := panel .ready [0x00] []
    s.fault = .noFault ∧ s.wait = none ∧ s.cp < s.env.stream.length ∧
      decode (s.env.stream.drop s.cp) = .error .illegalHeader := by decide

theorem witness_CpMovesByTheLengthOrStays :
    let s := panel .ready [0x43] [.high]
    s.fault = .noFault ∧ decode (s.env.stream.drop s.cp) = .ok .waitUntilIdle ∧
      view (fun t => (t.cp, t.wait)) (step s) = some (1, none) ∧
      view (fun t => (t.cp, t.wait)) (step (panel .ready [0x43] [.low])) = some (0, some 1) := by decide +kernel

/-- A command that does not wait, one with a check of its own, and a waiting one. -/
theorem witness_EveryCommandCompletes :
    ((frame 16 8 0xFF).wait = none ∧ RaisesAtEntry (frame 16 8 0xFF) (.setPixel 1 1 .black) .noFault) ∧
    RaisesAtEntry (frame 16 8 0xFF) (.drawModuleGrid 0 0 1 3 [0xAB, 0x00]) .noFault ∧
    RaisesAtEntry (frame 16 8 0xFF) (.drawText 0 0 7 [0x4C, 0x69] .black) .noFault ∧
    ((panel .unpowered [] [.high]).wait = none ∧ RaisesAtEntry (panel .unpowered [] [.high]) .panelReset .noFault ∧
      ∃ rest, (panel .unpowered [] [.high]).env.busyIn = .high :: rest) ∧
    RaisesAtEntry { frame 128 296 0xFF with pstate := .rendering } .panelRefresh .noFault ∧
    ({ panel .configuring [] [.high] with wait := some 3 }.wait ≠ none ∧ commandWaits .panelConfigure = true ∧
      ∃ rest, { panel .configuring [] [.high] with wait := some 3 }.env.busyIn = .high :: rest) :=
  ⟨⟨rfl, .inr ⟨rfl, rfl⟩⟩, .inr ⟨rfl, .inr ⟨by decide, rfl⟩⟩, .inr ⟨rfl, .inr ⟨fun h => h answerLi_wf, rfl⟩⟩,
    ⟨rfl, .inr ⟨fun h => h rfl, rfl⟩, [], rfl⟩,
    .inr ⟨.inr (.inr rfl), .inr ⟨rfl, .inr ⟨(fun h => h.elim (fun h => h rfl) fun h => h rfl), rfl⟩⟩⟩,
    by decide, rfl, [], rfl⟩

/-- One command for each of the codes 2 to 7. -/
theorem witness_EntryFaultsArePrecise :
    ((panel .ready [] []).wait = none ∧ RaisesAtEntry (panel .ready [] []) (.fbFill .black) .noFramebuffer) ∧
    RaisesAtEntry (panel .ready [] []) (.fbCreate 8 0) .badGeometry ∧
    RaisesAtEntry (frame 16 8 0xFF) (.drawText 0 0 7 [2] .black) .glyphMalformed ∧
    RaisesAtEntry (frame 16 8 0xFF) (.drawModuleGrid 0 0 1 3 [0xAB]) .gridUndersized ∧
    RaisesAtEntry (panel .ready [] []) (.sendDataChunked 0 [1]) .badChunkSize ∧
    RaisesAtEntry (panel .configuring [] []) .panelConfigure .badState ∧
    RaisesAtEntry { frame 16 8 0xFF with pstate := .ready } .panelRefresh .badGeometry :=
  ⟨⟨rfl, .inl ⟨rfl, rfl⟩⟩, .inl ⟨.inr (.inl (by decide)), rfl⟩,
    .inr ⟨rfl, .inl ⟨(by show ¬ AnswerWellFormed 1 _; unfold AnswerWellFormed; decide), rfl⟩⟩,
    .inr ⟨rfl, .inl ⟨by decide, rfl⟩⟩, .inl ⟨by decide, rfl⟩, .inl ⟨by decide, rfl⟩,
    .inr ⟨.inl rfl, .inr ⟨rfl, .inl ⟨.inl (by decide), rfl⟩⟩⟩⟩

/-- A bound reached at the first read and at the third one, and a fault of the table. -/
theorem witness_OnlyTheTableRaisesFaults :
    let s := { panel .ready [] [] with env := envLimit [.low] 1 }
    let s' := { panel .configuring [] [] with wait := some 2, env := envLimit [.low] 3 }
    s.fault = .noFault ∧ view State.fault (exec .waitUntilIdle s) = some .panelUnresponsive ∧
      s'.fault = .noFault ∧ view State.fault (exec .panelConfigure s') = some .panelUnresponsive ∧
      view State.fault (exec (.fbCreate 8 0) s) = some .badGeometry := by decide +kernel

theorem witness_FbCreateMakesAWhiteFramebuffer :
    ((0 : Int) < 128 ∧ (0 : Int) < 296 ∧ (128 : Int) % 8 = 0 ∧ (128 : Int) * 296 / 8 ≤ 4736) ∧
    ((0 : Int) < 8 ∧ (0 : Int) < 1 ∧ (8 : Int) % 8 = 0 ∧ (8 : Int) * 1 / 8 ≤ 4736) := by decide

theorem witness_SetPixelWritesItsBit :
    let s := frame 16 2 0xFF
    s.fbValid = true ∧ (0 : Int) ≤ 15 ∧ (15 : Int) < s.width ∧ (0 : Int) ≤ 1 ∧ (1 : Int) < s.height := by decide

theorem witness_SetPixelOutOfRangeIsANoOp :
    let s := frame 16 2 0xFF
    s.fbValid = true ∧ (s.width : Int) ≤ 16 ∧ (-1 : Int) < 0 := by decide

/-- The last pixel in range, and the first out of range on each side. -/
theorem witness_GetPixelReadsThePixel :
    let s := frame 16 2 0xFF
    s.fbValid = true ∧ ((0 : Int) ≤ 15 ∧ (15 : Int) < s.width ∧ (0 : Int) ≤ 1 ∧ (1 : Int) < s.height) ∧
      (s.width : Int) ≤ 16 ∧ (s.height : Int) ≤ 2 := by decide

theorem witness_SetThenGetReturnsTheColor :
    let s := frame 16 2 0xFF
    s.fbValid = true ∧ (0 : Int) ≤ 0 ∧ (0 : Int) < s.width ∧ (0 : Int) ≤ 0 ∧ (0 : Int) < s.height := by decide

theorem witness_SetPixelsCommuteOrTheLaterWins :
    Drawable (frame 16 8 0xFF) ∧ ((0 : Int), (0 : Int)) ≠ (1, 0) ∧ ((3 : Int), (2 : Int)) = (3, 2) :=
  ⟨frame_drawable, by decide, rfl⟩

theorem witness_FbFillWritesEveryByte : (frame 16 8 0xFF).fbValid = true := rfl

theorem witness_FillRectDrawsTheRectangle : Drawable (frame 16 8 0xFF) := frame_drawable

theorem witness_FillingTheWholeFrameIsFbFill : Drawable (frame 16 8 0xFF) := frame_drawable

theorem witness_DrawLineDrawsTheBresenhamPixels : Drawable (frame 16 8 0xFF) := frame_drawable

/-- Both end points in range. -/
theorem witness_LinesPlotBothEndPoints :
    Drawable (frame 16 8 0xFF) ∧ InFrame (frame 16 8 0xFF) 0 0 ∧ InFrame (frame 16 8 0xFF) 15 7 :=
  ⟨frame_drawable, by unfold InFrame; decide, by unfold InFrame; decide⟩

theorem witness_DrawCircleDrawsTheMidpointWalk : Drawable (frame 16 8 0xFF) := frame_drawable

theorem witness_SmallCirclesDrawOnePixelOrNone :
    Drawable (frame 16 8 0xFF) ∧ (0 : Int) ≤ 0 ∧ (-1 : Int) ≤ 0 := ⟨frame_drawable, by decide, by decide⟩

/-- A white framebuffer for a black circle. -/
theorem frame_white (x y : Int) (h : InFrame (frame 8 2 0xFF) x y) : pixelColor (frame 8 2 0xFF) x y = .white := by
  obtain ⟨h1, h2, h3, h4⟩ := h
  change x < 8 at h2
  change y < 2 at h4
  interval_cases x <;> interval_cases y <;> decide +kernel

/-- A center in the corner, where the images between are clipped: a quarter turn takes the pixel below it to the one on its
left, and the exchange of the coordinates with both signs takes the pixel on its diagonal to itself. A center inside: a half
turn takes the pixel on its right to the one on its left. -/
theorem witness_CirclesAreSymmetric :
    Drawable (frame 8 2 0xFF) ∧
    (∀ x y, InFrame (frame 8 2 0xFF) x y → pixelColor (frame 8 2 0xFF) x y = otherColor .black) ∧
    ((-1, 0) ∈ squareImages 0 1 ∧ InFrame (frame 8 2 0xFF) (7 + 0) (0 + 1) ∧ InFrame (frame 8 2 0xFF) (7 + -1) (0 + 0)) ∧
    ((-1, 1) ∈ (squareImages (-1) 1).drop 4 ∧ InFrame (frame 8 2 0xFF) (7 + -1) (0 + 1)) ∧
    ((-1, 0) ∈ squareImages 1 0 ∧ InFrame (frame 8 2 0xFF) (1 + 1) (1 + 0) ∧ InFrame (frame 8 2 0xFF) (1 + -1) (1 + 0)) := by
  refine ⟨⟨rfl, rfl⟩, frame_white, ?_⟩
  unfold InFrame
  decide

/-- A pixel of the outline's extreme points, and one beyond the radius. -/
theorem witness_DiscContainsOutlineWithinTheRadius :
    Drawable (frame 16 8 0xFF) ∧ (1 : Int) ≤ 3 ∧ InFrame (frame 16 8 0xFF) 7 4 ∧ ((7 - 4 : Int).natAbs : Int) = 3 ∧
    InFrame (frame 16 8 0xFF) 8 4 ∧ (3 : Int) < (8 - 4 : Int).natAbs :=
  ⟨frame_drawable, by decide, by unfold InFrame; decide, by decide, by unfold InFrame; decide, by decide⟩

theorem witness_DrawTextDrawsOpaqueCells :
    Drawable (frame 16 8 0xFF) ∧ AnswerWellFormed 2 ((frame 16 8 0xFF).glyphAnswer 7 [0x4C, 0x69]) :=
  ⟨frame_drawable, answerLi_wf⟩

theorem witness_DrawTextScaledDrawsBlocks :
    Drawable (frame 16 8 0xFF) ∧ AnswerWellFormed 2 ((frame 16 8 0xFF).glyphAnswer 7 [0x4C, 0x69]) ∧ (0 : Int) ≤ 0 :=
  ⟨frame_drawable, answerLi_wf, le_rfl⟩

/-- The same premises, and a pixel inside the text's cells. -/
theorem witness_WhiteTextComplementsBlackText :
    Drawable (frame 16 8 0xFF) ∧ AnswerWellFormed 2 ((frame 16 8 0xFF).glyphAnswer 7 [0x4C, 0x69]) ∧
    InFrame (frame 16 8 0xFF) 1 1 ∧
    InText ((frame 16 8 0xFF).glyphAnswer 7 [0x4C, 0x69]) 1 1 1 .black 1 1 .black :=
  ⟨frame_drawable, answerLi_wf, by unfold InFrame; decide,
    0, ⟨4, [15, 8, 8, 8, 8]⟩, 0, 0, rfl, by decide, by decide, by decide, by decide, by decide, by decide, by decide,
    by decide, by decide⟩

theorem witness_DrawModuleGridDrawsItsCells :
    Drawable (frame 16 8 0xFF) ∧ (3 : Int) * 3 ≤ 8 * ([0xAB, 0x00] : List Byte).length := ⟨frame_drawable, by decide⟩

/-- Cell (2, 2) of V6.1's grid, the last pixel of its block. -/
theorem witness_ModuleGridRoundTrips :
    Drawable (frame 16 8 0xFF) ∧ (1 : Int) ≤ 2 ∧ (3 : Int) * 3 ≤ 8 * ([0xAB, 0x00] : List Byte).length ∧
    (0 : Int) ≤ 2 ∧ (2 : Int) < 3 ∧ 2 + 2 * 2 ≤ (7 : Int) ∧ (7 : Int) < 2 + (2 + 1) * 2 ∧ 1 + 2 * 2 ≤ (6 : Int) ∧
    (6 : Int) < 1 + (2 + 1) * 2 ∧ InFrame (frame 16 8 0xFF) 7 6 :=
  ⟨frame_drawable, by decide, by decide, by decide, by decide, by decide, by decide, by decide, by decide,
    by unfold InFrame; decide⟩

theorem witness_SendDataChunkedSendsMaximalChunks : (0 : Int) < 1 := by decide

theorem witness_ChunksAreInvisibleOnTheWire : (1 : Int) ≤ 1 := by decide

/-- Two `Low` reads and a `High`, without a bound and with the bound 3. -/
theorem witness_WaitCompletesAtTheFirstHigh :
    ((panel .ready [] [.low, .low, .high]).wait = none ∧
      (∀ limit, (panel .ready [] [.low, .low, .high]).env.platform.busyTimeoutPolls = some limit → 2 < limit) ∧
      (panel .ready [] [.low, .low, .high]).env.busyIn = List.replicate 2 .low ++ .high :: []) ∧
    (∀ limit, (envLimit [.low, .low, .high] 3).platform.busyTimeoutPolls = some limit → 2 < limit) := by
  refine ⟨⟨rfl, fun _ h => no_limit h, rfl⟩, fun limit h => ?_⟩
  obtain rfl : 3 = limit := Option.some.inj h
  decide

/-- Inside a wait, and at the first poll of `wait_until_idle` and of `panel_configure`. -/
theorem witness_LowReadsKeepTheCommandWaiting :
    let s := { panel .unpowered [] [.low] with wait := some 1 }
    let s' := panel .ready [] [.low]
    let s'' := panel .resetting [] [.low]
    (commandWaits .panelReset = true ∧ s.wait = some 1 ∧
      (∀ limit, s.env.platform.busyTimeoutPolls = some limit → 1 + 1 < limit) ∧ s.env.busyIn = .low :: []) ∧
    (commandWaits .waitUntilIdle = true ∧ s'.wait = none ∧ RaisesAtEntry s' .waitUntilIdle .noFault ∧
      (∀ limit, s'.env.platform.busyTimeoutPolls = some limit → 0 + 1 < limit) ∧ s'.env.busyIn = .low :: []) ∧
    (commandWaits .panelConfigure = true ∧ s''.wait = none ∧ RaisesAtEntry s'' .panelConfigure .noFault ∧
      (∀ limit, s''.env.platform.busyTimeoutPolls = some limit → 0 + 1 < limit) ∧ s''.env.busyIn = .low :: []) :=
  ⟨⟨rfl, rfl, fun _ h => no_limit h, rfl⟩, ⟨rfl, rfl, rfl, fun _ h => no_limit h, rfl⟩,
    rfl, rfl, .inr ⟨fun h => h rfl, rfl⟩, fun _ h => no_limit h, rfl⟩

/-- Inside a wait, and at the first poll of `wait_until_idle` and of `panel_configure`. -/
theorem witness_TimeoutRaisesPanelUnresponsive :
    let s := { panel .configuring [] [] with wait := some 2, env := envLimit [.low] 3 }
    let s' := { panel .resetting [] [] with env := envLimit [.low] 1 }
    (commandWaits .panelConfigure = true ∧ s.wait = some 2 ∧ s.env.platform.busyTimeoutPolls = some (2 + 1) ∧
      s.env.busyIn = .low :: []) ∧
    (s'.wait = none ∧ RaisesAtEntry s' .waitUntilIdle .noFault ∧ RaisesAtEntry s' .panelConfigure .noFault ∧
      s'.env.platform.busyTimeoutPolls = some (0 + 1) ∧ s'.env.busyIn = .low :: []) :=
  ⟨⟨rfl, rfl, rfl, rfl⟩, rfl, rfl, .inr ⟨fun h => h rfl, rfl⟩, rfl, rfl⟩

theorem witness_PanelResetPulsesTheResetLine :
    let s := panel .unpowered [] [.low, .high]
    s.wait = none ∧ s.pstate = .unpowered ∧ (∀ limit, s.env.platform.busyTimeoutPolls = some limit → 1 < limit) ∧
      s.env.busyIn = List.replicate 1 .low ++ .high :: [] :=
  ⟨rfl, rfl, fun _ h => no_limit h, rfl⟩

theorem witness_PanelConfigureSendsTheSequence :
    let s := panel .resetting [] [.low, .high]
    s.wait = none ∧ s.pstate = .resetting ∧ (∀ limit, s.env.platform.busyTimeoutPolls = some limit → 1 < limit) ∧
      s.env.busyIn = List.replicate 1 .low ++ .high :: [] :=
  ⟨rfl, rfl, fun _ h => no_limit h, rfl⟩

theorem witness_DeepCleanSendsBlackThenWhite :
    let s := panel .ready [] [.low, .high]
    s.wait = none ∧ s.pstate = .ready ∧ (∀ limit, s.env.platform.busyTimeoutPolls = some limit → 1 < limit) ∧
      s.env.busyIn = List.replicate 1 .low ++ .high :: [] :=
  ⟨rfl, rfl, fun _ h => no_limit h, rfl⟩

theorem witness_RefreshSendsTheFramebuffer :
    let s := { frame 128 296 0xFF with pstate := .ready, env := env [] [.low, .high] }
    s.wait = none ∧ s.pstate = .ready ∧ s.fbValid = true ∧ s.width = 128 ∧ s.height = 296 ∧
      (∀ limit, s.env.platform.busyTimeoutPolls = some limit → 1 < limit) ∧
      s.env.busyIn = List.replicate 1 .low ++ .high :: [] :=
  ⟨rfl, rfl, rfl, rfl, rfl, fun _ h => no_limit h, rfl⟩

theorem witness_PowerDownSendsPowerOff :
    (panel .refreshing [] []).pstate = .refreshing ∧ (panel .poweredDown [] []).pstate ≠ .refreshing := by decide

/-- A command refused in its state, one of each kind that completes, and one that completes from inside its wait. -/
theorem witness_PanelStateTable :
    ((panel .ready [] []).wait = none ∧ (panel .ready [] []).pstate ≠ .unpowered) ∧
    view (fun t => (t.cp, t.pstate)) (exec .panelReset (panel .unpowered [] [.high])) = some (0 + 1, .resetting) ∧
    view (fun t => (t.cp, t.pstate)) (exec .panelReset { panel .unpowered [] [.high] with wait := some 2 }) =
      some (0 + 1, .resetting) ∧
    view (fun t => (t.cp, t.pstate)) (exec (.fbFill .black) { frame 8 1 0xFF with pstate := .deepCleaning }) =
      some (0 + 1, .rendering) ∧
    view (fun t => (t.cp, t.pstate)) (exec (.fbFill .black) (frame 8 1 0xFF)) = some (0 + 1, .unpowered) ∧
    view (fun t => (t.cp, t.pstate)) (exec (.sendCommand 1) (panel .ready [] [])) = some (0 + 2, .ready) := by
  decide +kernel

/-- The state of the step witnesses: a small framebuffer and the stream `fb_fill black`. -/
def stepping : State :=
  { frame 16 1 0xFF with env := env [0x00000004] [] }

theorem stepping_steps : ∃ t, step stepping = .next t ∧ picture t = [0x00, 0x00] := ⟨_, rfl, by decide +kernel⟩

theorem witness_StepKeepsTheFramebufferWellFormed : ∃ t, FramebufferOk stepping ∧ step stepping = .next t :=
  ⟨_, frame_ok, rfl⟩

theorem witness_StepKeepsTheLinkFramed :
    ∃ t, LinkOk (panel .ready [0x40, 0x12] []) ∧ step (panel .ready [0x40, 0x12] []) = .next t :=
  ⟨_, ⟨rfl, rfl, by decide⟩, rfl⟩

/-- A state inside `panel_configure`'s wait. -/
theorem witness_StepKeepsTheSessionConsistent :
    let s := { panel .configuring [0x51] [.low] with wait := some 1 }
    ∃ t, SessionOk s ∧ step s = .next t :=
  ⟨_, ⟨fun _ => ⟨rfl, .panelConfigure, rfl, rfl⟩, fun _ => .inl (by decide)⟩, rfl⟩

theorem witness_StepKeepsCpInTheStream : ∃ t, CpOk stepping ∧ step stepping = .next t :=
  ⟨_, by unfold CpOk; decide, rfl⟩

theorem witness_PanelStateMovesAlongTheChain :
    let s := { panel .configuring [0x51] [.high] with wait := some 1 }
    ∃ t, SessionOk s ∧ step s = .next t ∧ t.pstate = .ready :=
  ⟨_, ⟨fun _ => ⟨rfl, .panelConfigure, rfl, rfl⟩, fun _ => .inl (by decide)⟩, rfl, rfl⟩

theorem witness_StepKeepsStreamAndParameters : ∃ t, step stepping = .next t := ⟨_, rfl⟩

theorem witness_TraceGrowsAndLinesFollowIt :
    ∃ t, step (panel .ready [0x40, 0x12] []) = .next t ∧ t.dc = .command := ⟨_, rfl, rfl⟩

theorem witness_OnlyTheirCommandsWriteResAndGeometry : ∃ t, exec (.fbFill .black) stepping = .next t := ⟨_, rfl⟩

/-- Between commands, with and without a value in `RES`, and inside a command. -/
theorem witness_HostReadsBetweenCommands :
    (frame 16 1 0xFF).wait = none ∧ (frame 16 1 0xFF).res = none ∧
    { frame 16 1 0xFF with res := some .black }.res = some .black ∧ 1 < (frame 16 1 0xFF).width * (frame 16 1 0xFF).height / 8 ∧
    { panel .ready [0x43] [] with wait := some 1 }.wait ≠ none := by decide

end Sys2Proof.Tests
end

section
/-! SUPPORT. What a step runs: the command decoded at `CP` (rules R12, R62, R80). -/

namespace Sys2Proof.Machine

/-- Rule R80: nothing decodes at the end of the stream, so where a command decodes the run has not ended (rule R227). -/
theorem cp_ne_length_of_decode_ok {s : State} {i : Instr} (hd : decode (s.env.stream.drop s.cp) = .ok i) :
    s.cp ≠ s.env.stream.length := by
  intro hend
  rw [hend, List.drop_length] at hd
  exact nomatch hd

theorem State.fetch_of_decode_ok {s : State} {i : Instr} (hf : s.fault = .noFault)
    (hd : decode (s.env.stream.drop s.cp) = .ok i) : s.fetch = .command i := by
  simp [State.fetch, hf, cp_ne_length_of_decode_ok hd, hd]

theorem step_of_fetch_command {s : State} {i : Instr} (h : s.fetch = .command i) : step s = exec i s := by
  simp only [step, h]

/-- Settles O6: a command that decodes at `CP` is what an unhalted unit fetches, and a step runs what it fetches. -/
theorem stepRunsTheDecodedCommand : Obligations.StepRunsTheDecodedCommand :=
  fun _ _ hf hd => step_of_fetch_command (State.fetch_of_decode_ok hf hd)

end Sys2Proof.Machine
end

section
/-! SUPPORT. The fault a command raises at its entry: the model's tests say what rule R191's table says, and the table names
one fault at most. -/

namespace Sys2Proof.Machine

theorem badGeometry_iff (w h : Int) :
    badGeometry w h = true ↔ w ≤ 0 ∨ h ≤ 0 ∨ w % 8 ≠ 0 ∨ (Config.fbCapacity : Int) < w * h / 8 := by
  simp [badGeometry, or_assoc]

theorem gridUndersized_iff (sideN : Int) (bits : List Byte) :
    gridUndersized sideN bits = true ↔ 0 < sideN ∧ 8 * (bits.length : Int) < sideN * sideN := by
  simp [gridUndersized]

/-- The entry test of a panel command, as the table of rule R191 words it (rule R179). -/
theorem entryCheck_raises (s : State) (p : PanelState) :
    (s.pstate ≠ p ∧ s.entryCheck [p] = .badState) ∨ (¬ s.pstate ≠ p ∧ s.entryCheck [p] = .noFault) := by
  rw [State.entryCheck_eq]
  by_cases hp : s.pstate = p <;> simp [hp]

theorem raisesAtEntry_refreshCheck (s : State) : RaisesAtEntry s .panelRefresh s.refreshCheck := by
  rw [State.refreshCheck_eq]
  by_cases hp : s.pstate = .ready ∨ s.pstate = .deepCleaning ∨ s.pstate = .rendering
  · rw [if_pos hp]
    refine .inr ⟨hp, ?_⟩
    by_cases hv : s.fbValid = false
    · exact .inl ⟨hv, if_pos hv⟩
    · rw [if_neg hv]
      refine .inr ⟨Bool.eq_true_of_not_eq_false hv, ?_⟩
      by_cases hg : s.width ≠ 128 ∨ s.height ≠ 296
      · exact .inl ⟨hg, if_pos hg⟩
      · exact .inr ⟨hg, if_neg hg⟩
  · exact .inl ⟨hp, if_neg hp⟩

/-- Two tests that exclude each other, the first of which answers one code: there is one answer, if the second has one. -/
theorem guarded_unique {p q a b : Prop} (hpq : p → ¬ q) {code f g : FaultCode} (hab : a → b → f = g)
    (hf : p ∧ f = code ∨ q ∧ a) (hg : p ∧ g = code ∨ q ∧ b) : f = g := by
  rcases hf with ⟨hp, rfl⟩ | ⟨hq, ha⟩ <;> rcases hg with ⟨hp', rfl⟩ | ⟨hq', hb⟩
  · rfl
  · exact absurd hq' (hpq hp)
  · exact absurd hq (hpq hp')
  · exact hab ha hb

/-- The table of rule R191 names one answer for a command at its entry. -/
theorem raisesAtEntry_unique {s : State} {i : Instr} {f g : FaultCode} (hf : RaisesAtEntry s i f)
    (hg : RaisesAtEntry s i g) : f = g := by
  have same : ∀ {code : FaultCode}, f = code → g = code → f = g := fun h h' => h.trans h'.symm
  have check : ∀ {bad : Prop} {code : FaultCode}, (bad ∧ f = code ∨ ¬ bad ∧ f = .noFault) →
      (bad ∧ g = code ∨ ¬ bad ∧ g = .noFault) → f = g :=
    guarded_unique not_not_intro same
  have invalid : s.fbValid = false → ¬ s.fbValid = true := fun h h' => by simp [h] at h'
  cases i <;> dsimp only [RaisesAtEntry] at hf hg
  case sendCommand | sendData | waitUntilIdle => exact same hf hg
  case fbCreate | sendDataChunked | panelReset | panelConfigure | panelDeepClean | panelPowerDown => exact check hf hg
  case setPixel | getPixel | fbFill | fillRect | drawLine | drawCircle => exact guarded_unique invalid same hf hg
  case drawText | drawTextScaled | drawModuleGrid => exact guarded_unique invalid check hf hg
  case panelRefresh => exact guarded_unique (fun h => h) (guarded_unique invalid check) hf hg

end Sys2Proof.Machine
end

section
/-! SUPPORT. The waiting commands in one form: an entry test, a first part, a wait, a last part (rules R155, R172 to R177). -/

namespace Sys2Proof.Machine

/-- `PSTATE` after a command has completed, from the state it began in (rules R172 to R178). -/
def pstateAfter (i : Instr) (p : PanelState) : PanelState :=
  match i with
  | .panelReset => .resetting
  | .panelConfigure => .ready
  | .panelDeepClean => .deepCleaning
  | .panelRefresh => .refreshing
  | .panelPowerDown => .poweredDown
  | .fbCreate _ _ | .getPixel _ _ | .sendCommand _ | .sendData _ | .sendDataChunked _ _ | .waitUntilIdle => p
  | .setPixel _ _ _ | .fbFill _ | .fillRect _ _ _ _ _ | .drawLine _ _ _ _ _ | .drawCircle _ _ _ _ _
  | .drawText _ _ _ _ _ | .drawTextScaled _ _ _ _ _ _ | .drawModuleGrid _ _ _ _ _ => p.afterRendering

/-- The events of a waiting command after its wait (rules R173, R177). -/
def eventsAfterWait (i : Instr) (ops : PanelOps) : List Event :=
  match i with
  | .panelConfigure => afterPanelOnTrace ops
  | .panelRefresh => [.sleep 1000]
  | _ => []

/-- What a waiting command does once its wait has ended, before it completes (rules R172 to R177). -/
def afterWait (i : Instr) (s : State) : State :=
  { s.emitAll (eventsAfterWait i s.env.platform.panelOps) with pstate := pstateAfter i s.pstate }

theorem beforeWait_panelReset (s : State) : beforeWait .panelReset s = s.emitAll resetPulseEvents := by
  rw [State.emitAll_eq]
  rfl

theorem beforeWait_panelConfigure (s : State) :
    beforeWait .panelConfigure s =
      { s with pstate := .configuring }.emitAll (configureEventsToPanelOn s.env.platform.panelOps) := by
  simp only [State.emitAll_eq, configureEventsToPanelOn_eq, beforeWait, panelOnTrace, csAfter_append, dcAfter_append,
    rstAfter_append, csAfter_panelCmdTrace, dcAfter_panelCmdTrace, rstAfter_panelCmdTrace]

theorem beforeWait_panelDeepClean (s : State) :
    beforeWait .panelDeepClean s =
      s.emitAll (refreshEvents s.env.platform.panelOps (solidPlane .black) (solidPlane .white)) := by
  rw [solidPlane_black, solidPlane_white, refreshEvents_eq _ blackPlane_length whitePlane_length, State.emitAll_eq]
  rfl

theorem beforeWait_panelRefresh (s : State) :
    beforeWait .panelRefresh s =
      s.emitAll (refreshEvents s.env.platform.panelOps (solidPlane .white) (s.fb.bytesFrom 0 Config.panelBytes)) := by
  rw [bytesFrom_eq_framePlane, solidPlane_white, refreshEvents_eq _ whitePlane_length (framePlane_length s),
    State.emitAll_eq]
  rfl

/-- A waiting command, with the fault of rule R191's table as its entry test. -/
theorem exec_eq_waitBetween {i : Instr} (hi : commandWaits i = true) (s : State) :
    ∃ check, RaisesAtEntry s i check ∧
      exec i s = .next (s.waitBetween check (beforeWait i) fun u => (afterWait i u).complete i.lengthWords) := by
  cases i <;> try contradiction
  case waitUntilIdle => exact ⟨_, rfl, rfl⟩
  case panelReset =>
    refine ⟨_, entryCheck_raises s _, ?_⟩
    rw [funext beforeWait_panelReset]
    rfl
  case panelConfigure =>
    refine ⟨_, entryCheck_raises s _, ?_⟩
    rw [funext beforeWait_panelConfigure]
    simp only [afterWait, eventsAfterWait, ← configureEventsAfterPanelOn_eq]
    rfl
  case panelDeepClean =>
    refine ⟨_, entryCheck_raises s _, ?_⟩
    rw [funext beforeWait_panelDeepClean]
    rfl
  case panelRefresh =>
    refine ⟨_, raisesAtEntry_refreshCheck s, ?_⟩
    rw [funext beforeWait_panelRefresh]
    rfl

/-- A waiting command that begins where rule R191 names no fault for it comes to its wait in a panel state it can wait in;
`wait_until_idle` can wait in every one but `Configuring`. -/
theorem waitsIn_beforeWait {i : Instr} {s : State} (hi : commandWaits i = true) (h : RaisesAtEntry s i .noFault)
    (hp : s.pstate ≠ .configuring) : WaitsIn i (beforeWait i s).pstate := by
  cases i <;> try contradiction
  case waitUntilIdle => exact hp
  case panelConfigure => rfl
  case panelReset | panelDeepClean => exact h.elim (fun bad => nomatch bad.2) fun good => not_not.1 good.1
  case panelRefresh => exact h.elim (fun bad => nomatch bad.2) And.left

/-- What a completion makes of `PSTATE` does not depend on whether the command was found inside its wait. -/
theorem pstateAfter_beforeWait (i : Instr) (s : State) :
    pstateAfter i (beforeWait i s).pstate = pstateAfter i s.pstate := by
  cases i <;> rfl

end Sys2Proof.Machine
end

section
/-! SUPPORT. The frames of a step: what every part of a command leaves unchanged, and what the parts that only speak on the
interface leave unchanged. -/

namespace Sys2Proof.Machine

/-- The trace grows, and the lines follow it (rules R28, R31). -/
def TraceFollows (s t : State) : Prop :=
  ∃ es, t.trace = s.trace ++ es ∧ t.cs = csAfter s.cs es ∧ t.dc = dcAfter s.dc es ∧ t.rst = rstAfter s.rst es

theorem TraceFollows.refl (s : State) : TraceFollows s s := ⟨[], by simp [csAfter, dcAfter, rstAfter]⟩

theorem TraceFollows.trans {s t u : State} (hst : TraceFollows s t) (htu : TraceFollows t u) : TraceFollows s u := by
  obtain ⟨es, ht, hcs, hdc, hrst⟩ := hst
  obtain ⟨fs, hu, hcs', hdc', hrst'⟩ := htu
  exact ⟨es ++ fs, by simp [*]⟩

theorem TraceFollows.emitAll (s : State) (es : List Event) : TraceFollows s (s.emitAll es) := ⟨es, by simp⟩

/-- What no part of a command changes before the command ends: `FAULT`, `CP`, the stream, the provider's answers and the
parameters; the trace only grows. -/
structure StepFrame (s t : State) : Prop where
  fault : t.fault = s.fault
  cp : t.cp = s.cp
  stream : t.env.stream = s.env.stream
  glyphTable : t.env.glyphTable = s.env.glyphTable
  platform : t.env.platform = s.env.platform
  trace : TraceFollows s t

theorem StepFrame.refl (s : State) : StepFrame s s := ⟨rfl, rfl, rfl, rfl, rfl, .refl s⟩

/-- The framebuffer, its geometry and `RES` are kept. -/
def PictureKept (s t : State) : Prop :=
  t.fb = s.fb ∧ t.width = s.width ∧ t.height = s.height ∧ t.fbValid = s.fbValid ∧ t.res = s.res

theorem PictureKept.refl (s : State) : PictureKept s s := ⟨rfl, rfl, rfl, rfl, rfl⟩

/-- What the interface and the panel controller leave unchanged: the frame of a step, and the picture. -/
structure LinkFrame (s t : State) : Prop extends StepFrame s t where
  picture : PictureKept s t

theorem LinkFrame.refl (s : State) : LinkFrame s s := ⟨.refl s, .refl s⟩

theorem LinkFrame.trans {s t u : State} (hst : LinkFrame s t) (htu : LinkFrame t u) : LinkFrame s u where
  fault := htu.fault.trans hst.fault
  cp := htu.cp.trans hst.cp
  stream := htu.stream.trans hst.stream
  glyphTable := htu.glyphTable.trans hst.glyphTable
  platform := htu.platform.trans hst.platform
  trace := hst.trace.trans htu.trace
  picture := by
    obtain ⟨hfb, hwidth, hheight, hvalid, hres⟩ := htu.picture
    rw [PictureKept, hfb, hwidth, hheight, hvalid, hres]
    exact hst.picture

theorem LinkFrame.emitAll (s : State) (es : List Event) : LinkFrame s (s.emitAll es) :=
  ⟨⟨by simp, by simp, by simp, by simp, by simp, .emitAll s es⟩, by simp [PictureKept]⟩

theorem LinkFrame.withPstate (s : State) (p : PanelState) : LinkFrame s { s with pstate := p } :=
  ⟨⟨rfl, rfl, rfl, rfl, rfl, .refl s⟩, .refl s⟩

theorem LinkFrame.sent (s : State) (es : List Event) (p : PanelState) : LinkFrame s { s.emitAll es with pstate := p } :=
  (LinkFrame.emitAll s es).trans (.withPstate ..)

theorem LinkFrame.drawBusy (s : State) : LinkFrame s s.drawBusy :=
  ⟨⟨rfl, rfl, rfl, rfl, rfl, .refl s⟩, .refl s⟩

theorem LinkFrame.emit (s : State) (e : Event) : LinkFrame s (s.emit e) := .emitAll s [e]

theorem LinkFrame.polled (s : State) : LinkFrame s s.polled :=
  (LinkFrame.emit ..).trans ((LinkFrame.drawBusy _).trans (.emit ..))

theorem LinkFrame.beforeWait (i : Instr) (s : State) : LinkFrame s (beforeWait i s) := by
  cases i
  case panelReset => rw [beforeWait_panelReset]; exact .emitAll ..
  case panelConfigure => rw [beforeWait_panelConfigure]; exact (LinkFrame.withPstate ..).trans (.emitAll ..)
  case panelDeepClean => rw [beforeWait_panelDeepClean]; exact .emitAll ..
  case panelRefresh => rw [beforeWait_panelRefresh]; exact .emitAll ..
  all_goals exact .refl s

theorem LinkFrame.afterWait (i : Instr) (s : State) : LinkFrame s (afterWait i s) :=
  .sent ..

end Sys2Proof.Machine
end

section
/-! SUPPORT. Everything a command can do, and everything a step can do, once (rules R24, R191, R192). -/

namespace Sys2Proof.Machine

/-- `m'` comes from `m` by pixel writes and by fills of the whole picture only (rules R103, R104 (g)): what both keep is
kept. -/
def PaintedFrom (w h : Nat) (m m' : Memory) : Prop :=
  ∀ P : Memory → Prop, (∀ m x y c, P m → P (setPixel w h m x y c)) →
    (∀ m c, P m → P (m.fill (w * h / 8) (solidByte c))) → P m → P m'

/-- `u` is the state in which the command polls: the state it was found in inside its wait, or the one that its first part
leads to (log 3). -/
def AtWait (i : Instr) (s u : State) : Prop :=
  (s.wait ≠ none ∧ u = s) ∨ (s.wait = none ∧ RaisesAtEntry s i .noFault ∧ u = beforeWait i s)

/-- The states that the command `i` can lead to from `s`. -/
inductive Executes (i : Instr) (s : State) : State → Prop
  /-- A fault of rule R191's table, when the command begins. -/
  | raised {code : FaultCode} (hcode : code ≠ .noFault) (hentry : RaisesAtEntry s i code)
      (hbegins : commandWaits i = true → s.wait = none) : Executes i s (s.raise code)
  /-- A legal `fb_create` (rule R100). -/
  | created {w h : Int} (hi : i = .fbCreate w h) (hgeometry : badGeometry w h = false) :
      Executes i s ({ s with
        width := w.toNat, height := h.toNat, fbValid := true
        fb := s.fb.fill (w.toNat * h.toNat / 8) 0xFF }.complete i.lengthWords)
  /-- `get_pixel` (rule R102). -/
  | looked {x y : Int} (hi : i = .getPixel x y) :
      Executes i s ({ s with res := getPixel s.width s.height s.fb x y }.complete i.lengthWords)
  /-- A rendering command (rule R176). -/
  | drew {m : Memory} (hvalid : s.fbValid = true) (hm : PaintedFrom s.width s.height s.fb m) :
      Executes i s ({ s with fb := m, pstate := pstateAfter i s.pstate }.complete i.lengthWords)
  /-- A command that only sends (rules R151 to R153, R178). -/
  | sent (es : List Event) :
      Executes i s ({ s.emitAll es with pstate := pstateAfter i s.pstate }.complete i.lengthWords)
  /-- A poll that reads `High` (rule R155). -/
  | waited {u : State} (hi : commandWaits i = true) (hu : AtWait i s u) :
      Executes i s ((afterWait i u.polled).complete i.lengthWords)
  /-- A poll that reads `Low` and reaches the bound (rule R157). -/
  | gaveUp {u : State} (hi : commandWaits i = true) (hu : AtWait i s u) (hlow : s.busyLevel = .low)
      (hbound : timedOut s.env.platform (s.wait.getD 0 + 1) = true) : Executes i s (u.polled.raise .panelUnresponsive)
  /-- Another poll that reads `Low` (rule R155). -/
  | waits {u : State} (hi : commandWaits i = true) (hu : AtWait i s u) (hlow : s.busyLevel = .low) :
      Executes i s { u.polled with wait := some (s.wait.getD 0 + 1) }

theorem AtWait.linkFrame {i : Instr} {s u : State} (h : AtWait i s u) : LinkFrame s u := by
  rcases h with ⟨-, rfl⟩ | ⟨-, -, rfl⟩
  · exact .refl u
  · exact .beforeWait i s

/-- The poll, and what the command does after it, stay in the frame of the interface. -/
theorem AtWait.polled_linkFrame {i : Instr} {s u : State} (hu : AtWait i s u) : LinkFrame s u.polled :=
  hu.linkFrame.trans (.polled u)

theorem AtWait.afterWait_linkFrame {i : Instr} {s u : State} (hu : AtWait i s u) : LinkFrame s (afterWait i u.polled) :=
  hu.polled_linkFrame.trans (.afterWait ..)

theorem AtWait.env {i : Instr} {s u : State} (h : AtWait i s u) : u.env = s.env := by
  rcases h with ⟨-, rfl⟩ | ⟨-, -, rfl⟩ <;> simp

theorem AtWait.wait {i : Instr} {s u : State} (h : AtWait i s u) : u.wait = s.wait := by
  rcases h with ⟨-, rfl⟩ | ⟨-, -, rfl⟩ <;> simp

theorem AtWait.pstateAfter {i : Instr} {s u : State} (h : AtWait i s u) :
    pstateAfter i u.pstate = pstateAfter i s.pstate := by
  rcases h with ⟨-, rfl⟩ | ⟨-, -, rfl⟩
  · rfl
  · exact pstateAfter_beforeWait i s

/-- The level read depends on the inputs only. -/
theorem State.busyLevel_congr {s u : State} (h : u.env = s.env) : u.busyLevel = s.busyLevel := by
  simp [State.busyLevel, h]

/-- One poll of a waiting command. -/
theorem executes_pollBusy {i : Instr} {s u : State} (hi : commandWaits i = true) (hu : AtWait i s u) :
    Executes i s (u.pollBusy fun v => (afterWait i v).complete i.lengthWords) := by
  have hread := State.busyLevel_congr hu.env
  cases hl : u.busyLevel with
  | high =>
    rw [State.pollBusy_high hl]
    exact .waited hi hu
  | low =>
    rw [State.pollBusy_low hl, hu.env, hu.wait]
    split_ifs with hbound
    · exact .gaveUp hi hu (hread ▸ hl) hbound
    · exact .waits hi hu (hread ▸ hl)

/-- A waiting command, at its beginning or inside its wait. -/
theorem executes_of_waits {i : Instr} {s t : State} (hi : commandWaits i = true) (h : exec i s = .next t) :
    Executes i s t := by
  obtain ⟨check, hcheck, heq⟩ := exec_eq_waitBetween hi s
  obtain rfl := Host.Outcome.next.inj (heq.symm.trans h)
  cases hw : s.wait with
  | some n =>
    rw [State.waitBetween_waiting hw]
    exact executes_pollBusy hi (.inl ⟨by simp [hw], rfl⟩)
  | none =>
    by_cases hc : check = .noFault
    · subst hc
      rw [State.waitBetween_begins hw]
      exact executes_pollBusy hi (.inr ⟨hw, hcheck, rfl⟩)
    · rw [State.waitBetween_refused hw hc]
      exact .raised hc hcheck fun _ => hw

/-- A rendering command. -/
theorem executes_render {i : Instr} {s : State} (hi : commandWaits i = false) (paint : Memory → Memory)
    (hentry : s.fbValid = false → RaisesAtEntry s i .noFramebuffer)
    (hp : pstateAfter i s.pstate = s.pstate.afterRendering) (hm : PaintedFrom s.width s.height s.fb (paint s.fb)) :
    Executes i s (s.render i.lengthWords paint) := by
  cases hv : s.fbValid with
  | false =>
    rw [State.render_invalid hv]
    exact .raised (by decide) (hentry hv) (by simp [hi])
  | true =>
    rw [State.render_valid hv, ← hp]
    exact .drew hv hm

/-- A text command. -/
theorem executes_renderText {i : Instr} {s : State} (hi : commandWaits i = false) (font : Int) (chars : List Word)
    (paint : GlyphAnswer → Memory → Memory) (hentry : s.fbValid = false → RaisesAtEntry s i .noFramebuffer)
    (hglyph : s.fbValid = true → ¬ AnswerWellFormed chars.length (s.glyphAnswer font chars) →
      RaisesAtEntry s i .glyphMalformed)
    (hp : pstateAfter i s.pstate = s.pstate.afterRendering)
    (hm : ∀ answer, PaintedFrom s.width s.height s.fb (paint answer s.fb)) :
    Executes i s (s.renderText i.lengthWords font chars paint) := by
  unfold State.renderText
  split_ifs with hbad
  · simp only [Bool.and_eq_true, Bool.not_eq_true', ← Bool.not_eq_true, glyphAnswerWf_iff] at hbad
    exact .raised (by decide) (hglyph hbad.1 hbad.2) (by simp [hi])
  · exact executes_render hi _ hentry hp (hm _)

/-- A command that only sends, and keeps `PSTATE`. -/
theorem executes_emitAll {i : Instr} {s : State} (es : List Event) (hp : pstateAfter i s.pstate = s.pstate) :
    Executes i s ((s.emitAll es).complete i.lengthWords) := by
  have hsent := Executes.sent (i := i) (s := s) es
  rwa [hp, ← State.emitAll_pstate s es] at hsent

/-- A command leads to one of these states only. -/
theorem executes_of_exec {i : Instr} {s t : State} (h : exec i s = .next t) : Executes i s t := by
  by_cases hi : commandWaits i = true
  · exact executes_of_waits hi h
  suffices hu : ∃ u, exec i s = .next u ∧ Executes i s u by
    obtain ⟨u, heq, hu⟩ := hu
    rwa [← Host.Outcome.next.inj (heq.symm.trans h)]
  cases i <;> try exact absurd rfl hi
  case fbCreate width height =>
    refine ⟨_, rfl, ?_⟩
    split_ifs with hbad
    · exact .raised (by decide) (.inl ⟨(badGeometry_iff width height).1 hbad, rfl⟩) nofun
    · exact .created rfl (Bool.eq_false_of_not_eq_true hbad)
  case getPixel x y =>
    refine ⟨_, rfl, ?_⟩
    split_ifs with hv
    · exact .looked rfl
    · exact .raised (by decide) (.inl ⟨Bool.eq_false_of_not_eq_true hv, rfl⟩) nofun
  case setPixel x y c => exact ⟨_, rfl, executes_render rfl _ (.inl ⟨·, rfl⟩) rfl fun P hP _ hm => hP _ _ _ _ hm⟩
  case fbFill c => exact ⟨_, rfl, executes_render rfl _ (.inl ⟨·, rfl⟩) rfl fun P _ hfill hm => hfill _ _ hm⟩
  case fillRect x y w h c =>
    exact ⟨_, rfl, executes_render rfl _ (.inl ⟨·, rfl⟩) rfl fun P hP _ hm => keeps_fillRect hP _ _ _ _ _ hm⟩
  case drawLine x0 y0 x1 y1 c =>
    exact ⟨_, rfl, executes_render rfl _ (.inl ⟨·, rfl⟩) rfl fun P hP _ hm => keeps_drawLine hP _ _ _ _ _ hm⟩
  case drawCircle cx cy r c filled =>
    exact ⟨_, rfl, executes_render rfl _ (.inl ⟨·, rfl⟩) rfl fun P hP _ hm => keeps_drawCircle hP _ _ _ _ _ hm⟩
  case drawText x y font chars c =>
    exact ⟨_, rfl, executes_renderText rfl font chars _ (.inl ⟨·, rfl⟩) (.inr ⟨·, .inl ⟨·, rfl⟩⟩) rfl
      fun _ P hP _ hm => keeps_drawText hP _ _ _ _ hm⟩
  case drawTextScaled x y font scale chars c =>
    exact ⟨_, rfl, executes_renderText rfl font chars _ (.inl ⟨·, rfl⟩) (.inr ⟨·, .inl ⟨·, rfl⟩⟩) rfl
      fun _ P hP _ hm => keeps_drawTextScaled hP _ _ _ _ _ hm⟩
  case drawModuleGrid x y modulePx sideN bits =>
    refine ⟨_, rfl, ?_⟩
    split_ifs with hbad
    · rw [Bool.and_eq_true, gridUndersized_iff] at hbad
      exact .raised (by decide) (.inr ⟨hbad.1, .inl ⟨hbad.2, rfl⟩⟩) nofun
    · exact executes_render rfl _ (.inl ⟨·, rfl⟩) rfl fun P hP _ hm => keeps_drawModuleGrid hP _ _ _ _ _ hm
  case sendCommand opcode => exact ⟨_, rfl, executes_emitAll _ rfl⟩
  case sendData bytes => exact ⟨_, rfl, executes_emitAll _ rfl⟩
  case sendDataChunked chunkSize bytes =>
    refine ⟨_, rfl, ?_⟩
    split_ifs with hbad
    · exact .raised (by decide) (.inl ⟨hbad, rfl⟩) nofun
    · exact executes_emitAll _ rfl
  case panelPowerDown =>
    refine ⟨_, rfl, ?_⟩
    split_ifs with hentry
    · exact .sent _
    · have hp : s.pstate ≠ .refreshing := fun hp => hentry (by rw [State.entryCheck_eq, hp]; rfl)
      exact .raised (by decide) (.inl ⟨hp, rfl⟩) nofun

end Sys2Proof.Machine
end

section
/-! SUPPORT. The frames of commands and of steps, from what they can do. -/

namespace Sys2Proof.Machine

/-- How a command that has come to the state `u` ends its step: it completes, it stops with a fault, or it is left inside
its wait (rules R24, R192; log 3). -/
inductive Ends (len : Nat) (u : State) : State → Prop
  | completes : Ends len u (u.complete len)
  | faults {code : FaultCode} (hcode : code ≠ .noFault) : Ends len u (u.raise code)
  | waits (n : Nat) : Ends len u { u with wait := some n }

/-- The framebuffer, `RES` and `PSTATE` lie outside the frame of a step. -/
theorem StepFrame.withPicture (s : State) (m : Memory) (w h : Nat) (valid : Bool) (r : Option Color) (p : PanelState) :
    StepFrame s { s with fb := m, width := w, height := h, fbValid := valid, res := r, pstate := p } :=
  ⟨rfl, rfl, rfl, rfl, rfl, .refl s⟩

/-- Every command works inside the frame of a step, then ends. -/
theorem Executes.ends {i : Instr} {s t : State} (h : Executes i s t) :
    ∃ u, StepFrame s u ∧ Ends i.lengthWords u t := by
  cases h with
  | raised hcode _ _ => exact ⟨s, .refl s, .faults hcode⟩
  | created _ _ => exact ⟨_, .withPicture s .., .completes⟩
  | looked _ => exact ⟨_, .withPicture s .., .completes⟩
  | drew _ _ => exact ⟨_, .withPicture s .., .completes⟩
  | sent es => exact ⟨_, (LinkFrame.sent s es _).toStepFrame, .completes⟩
  | waited _ hu => exact ⟨_, hu.afterWait_linkFrame.toStepFrame, .completes⟩
  | gaveUp _ hu _ _ => exact ⟨_, hu.polled_linkFrame.toStepFrame, .faults (by decide)⟩
  | waits _ hu _ => exact ⟨_, hu.polled_linkFrame.toStepFrame, .waits _⟩

/-- A step is a command's, or it raises `IllegalCommand` where nothing decodes. -/
theorem step_executes {s t : State} (h : step s = .next t) :
    s.fault = .noFault ∧
    ((∃ i, decode (s.env.stream.drop s.cp) = .ok i ∧ Executes i s t) ∨
      (∃ e, decode (s.env.stream.drop s.cp) = .error e ∧ t = s.raise .illegalCommand)) := by
  obtain ⟨hf, -, hcases⟩ := step_cases h
  exact ⟨hf, hcases.imp_left fun ⟨i, hd, hexec⟩ => ⟨i, hd, executes_of_exec hexec⟩⟩

end Sys2Proof.Machine
end

section
/-! SUPPORT. A command that decodes fits the stream (rule R74). -/

namespace Sys2Proof

theorem ok_of_map_ok {ε α β : Type} {f : α → β} {x : Except ε α} {b : β} (h : x.map f = .ok b) :
    ∃ a, x = .ok a ∧ f a = b := by
  cases x with
  | error e => nomatch h
  | ok a => exact ⟨a, rfl, Except.ok.inj h⟩

/-- The operands and the payload that a row reads lie in the words after the header. -/
theorem lengthWords_le_of_decodeOperands {op : Op} {color : Color} {filled : Bool} {ws : List Word} {i : Instr}
    (h : decodeOperands op color filled ws = .ok i) : i.lengthWords ≤ ws.length + 1 := by
  cases op <;> dsimp only [decodeOperands] at h
  case fbFill | waitUntilIdle | panelReset | panelConfigure | panelDeepClean | panelRefresh | panelPowerDown =>
    cases h
    simp [Instr.lengthWords]
  case fbCreate | setPixel | getPixel | fillRect | drawLine | drawCircle =>
    split at h <;> cases h
    simp [Instr.lengthWords]
  case sendCommand =>
    split at h
    · split at h <;> cases h
      simp [Instr.lengthWords]
    · cases h
  case drawText | drawTextScaled =>
    split at h
    · obtain ⟨chars, hchars, rfl⟩ := ok_of_map_ok h
      obtain ⟨-, hfits, -⟩ := takeChars_ok hchars
      simp only [Instr.lengthWords, List.length_cons]
      omega
    · cases h
  case drawModuleGrid | sendData | sendDataChunked =>
    split at h
    · obtain ⟨bytes, hbytes, rfl⟩ := ok_of_map_ok h
      obtain ⟨-, hfits, -⟩ := takeBytes_ok hbytes
      simp only [Instr.lengthWords, List.length_cons]
      omega
    · cases h

/-- A decoded command is not longer than the words it is read from. -/
theorem lengthWords_le_of_decode {ws : List Word} {i : Instr} (h : decode ws = .ok i) : i.lengthWords ≤ ws.length := by
  cases ws with
  | nil => nomatch h
  | cons header ws =>
    dsimp only [decode] at h
    split at h
    · cases h
    · exact lengthWords_le_of_decodeOperands h

end Sys2Proof
end

section
/-! SUPPORT. Framebuffer memory as an invariant of the picture's size (rules R22, R53, R56). -/

namespace Sys2Proof.Machine

/-- Memory is canonical, inside the capacity, and holds a value in each of the `n` bytes of the picture. -/
def PictureOk (n : Nat) (m : Memory) : Prop :=
  m.wf ∧ (∀ cell ∈ m, cell.1 < Config.fbCapacity) ∧ ∀ a, a < n → m.read a ≠ none

theorem PictureOk.write {n a : Nat} {m : Memory} (h : PictureOk n m) (ha : a < Config.fbCapacity) (v : Byte) :
    PictureOk n (m.write a v) := by
  obtain ⟨hwf, hcap, hread⟩ := h
  refine ⟨Memory.wf_write hwf a v, fun cell hcell => ?_, fun b hb => ?_⟩
  · exact (Memory.mem_write hcell).elim (· ▸ ha) (hcap cell)
  · rw [Memory.read_write]
    split_ifs
    · exact Option.some_ne_none v
    · exact hread b hb

/-- Filling a picture inside the capacity writes all its bytes, whatever picture was there before. -/
theorem PictureOk.fill {k n : Nat} {m : Memory} (h : PictureOk k m) (hn : n ≤ Config.fbCapacity) (v : Byte) :
    PictureOk n (m.fill n v) := by
  obtain ⟨hwf, hcap, -⟩ := h
  refine ⟨Memory.wf_fill hwf n v, fun cell hcell => ?_, fun a ha => ?_⟩
  · exact (Memory.mem_fill hcell).elim (·.trans_le hn) (hcap cell)
  · rw [Memory.read_fill, if_pos ha]
    exact Option.some_ne_none v

/-- With rows of whole bytes an in-range pixel lies in the picture (rules R51, R53, R56). -/
theorem byteIndex_lt {w h : Nat} (hw : w % 8 = 0) {x y : Int} (hr : inRange w h x y) : byteIndex w x y < w * h / 8 := by
  obtain ⟨hx, hxw, hy, hyh⟩ := hr
  obtain ⟨n, rfl⟩ : ∃ n, w = 8 * n := ⟨w / 8, by omega⟩
  have hlast : y * (8 * n : Nat) + x < 8 * (n * h : Nat) := by
    push_cast at hxw ⊢
    nlinarith
  have hrow : 0 ≤ y * (8 * n : Nat) := Int.mul_nonneg hy (Int.natCast_nonneg _)
  rw [Nat.mul_assoc, Nat.mul_div_cancel_left _ (by decide), byteIndex]
  omega

theorem PictureOk.setPixel {n w h : Nat} {m : Memory} (hm : PictureOk n m) (hw : w % 8 = 0)
    (hcap : w * h / 8 ≤ Config.fbCapacity) (x y : Int) (c : Color) : PictureOk n (setPixel w h m x y c) := by
  unfold Machine.setPixel
  split_ifs with hr
  · exact hm.write ((byteIndex_lt hw hr).trans_le hcap) _
  · exact hm

/-- What paints through pixels and fills keeps the picture. -/
theorem PictureOk.paintedFrom {w h : Nat} {m m' : Memory} (hm : PictureOk (w * h / 8) m) (hw : w % 8 = 0)
    (hcap : w * h / 8 ≤ Config.fbCapacity) (hpaint : PaintedFrom w h m m') : PictureOk (w * h / 8) m' :=
  hpaint _ (fun _ _ _ _ hm => hm.setPixel hw hcap _ _ _) (fun _ _ hm => hm.fill hcap _) hm

/-- A geometry that `fb_create` takes is legal in natural numbers too (rule R100). -/
theorem legal_of_not_badGeometry {w h : Int} (hg : badGeometry w h = false) :
    0 < w.toNat ∧ 0 < h.toNat ∧ w.toNat % 8 = 0 ∧ w.toNat * h.toNat / 8 ≤ Config.fbCapacity := by
  rw [← Bool.not_eq_true, badGeometry_iff] at hg
  push Not at hg
  obtain ⟨hw, hh, hmod, hcap⟩ := hg
  lift w to ℕ using hw.le
  lift h to ℕ using hh.le
  simp only [Int.toNat_natCast]
  omega

/-- What leaves the framebuffer alone keeps it well formed. -/
theorem FramebufferOk.of_pictureKept {s u : State} (hs : FramebufferOk s) (hu : PictureKept s u) : FramebufferOk u := by
  obtain ⟨hfb, hwidth, hheight, hvalid, -⟩ := hu
  unfold FramebufferOk at hs ⊢
  rwa [hfb, hwidth, hheight, hvalid]

theorem FramebufferOk.executes {i : Instr} {s t : State} (hs : FramebufferOk s) (h : Executes i s t) :
    FramebufferOk t := by
  have ⟨hnone, hlegal, hpicture⟩ := hs
  cases h with
  | raised _ _ _ => exact hs
  | created _ hg =>
    obtain ⟨hw, hh, hmod, hcap⟩ := legal_of_not_badGeometry hg
    exact ⟨nofun, fun _ => ⟨hw, hh, hmod, hcap⟩, PictureOk.fill hpicture hcap _⟩
  | looked _ => exact hs
  | drew hvalid hm =>
    obtain ⟨-, -, hmod, hcap⟩ := hlegal hvalid
    exact ⟨hnone, hlegal, PictureOk.paintedFrom hpicture hmod hcap hm⟩
  | sent es => exact hs.of_pictureKept (LinkFrame.emitAll s es).picture
  | waited _ hu => exact hs.of_pictureKept hu.afterWait_linkFrame.picture
  | gaveUp _ hu _ _ => exact hs.of_pictureKept hu.polled_linkFrame.picture
  | waits _ hu _ => exact hs.of_pictureKept hu.polled_linkFrame.picture

/-- Settles O51: a command that paints does so through pixel writes and fills of the picture, which keep it; the others leave
the framebuffer, or make a new one. -/
theorem stepKeepsTheFramebufferWellFormed : Obligations.StepKeepsTheFramebufferWellFormed := by
  intro s t hs h
  obtain ⟨-, ⟨i, -, hexec⟩ | ⟨e, -, rfl⟩⟩ := step_executes h
  · exact hs.executes hexec
  · exact hs

/-- Settles O13: a legal geometry passes `fb_create`'s test, and the fill is of the picture's bytes. -/
theorem fbCreateMakesAWhiteFramebuffer : Obligations.FbCreateMakesAWhiteFramebuffer := by
  intro s w h hw hh hmod hcap
  have hgood : ¬ badGeometry w h = true := by
    rw [badGeometry_iff]
    simp only [Config.fbCapacity]
    omega
  refine ⟨_, congrArg Host.Outcome.next (if_neg hgood), rfl, fun a => ?_⟩
  lift w to ℕ using hw.le
  lift h to ℕ using hh.le
  refine (Memory.read_fill _ _ a _).trans (if_congr ?_ rfl rfl)
  simp only [Int.toNat_natCast]
  omega

end Sys2Proof.Machine
end

section
/-! SUPPORT. The panel session: what a consistent session says of the command at `CP`, and that every command keeps it
(rules R27, R173, R181). -/

namespace Sys2Proof.Machine

/-- Only `panel_configure` waits in `Configuring`. -/
theorem eq_panelConfigure_of_waitsIn {i : Instr} (h : WaitsIn i .configuring) : i = .panelConfigure := by
  cases i
  case panelConfigure => rfl
  all_goals simp [WaitsIn] at h

/-- Between commands, a session outside `Configuring` is consistent. -/
theorem SessionOk.between {t : State} (hw : t.wait = none) (hp : t.pstate ≠ .configuring) : SessionOk t :=
  ⟨fun h => absurd hw h, fun h => absurd h hp⟩

section Consistent

variable {s : State} {i : Instr} (hs : SessionOk s) (hf : s.fault = .noFault)
  (hd : decode (s.env.stream.drop s.cp) = .ok i)

include hs hd

/-- A wait in progress is the command's at `CP`. -/
theorem SessionOk.waitsIn (hw : s.wait ≠ none) : WaitsIn i s.pstate := by
  obtain ⟨-, j, hj, hwaits⟩ := hs.1 hw
  obtain rfl := Except.ok.inj (hj.symm.trans hd)
  exact hwaits

include hf

/-- A running unit is in `Configuring` only inside `panel_configure`'s wait. -/
theorem SessionOk.configuring (hp : s.pstate = .configuring) : s.wait ≠ none ∧ i = .panelConfigure := by
  have hw : s.wait ≠ none := (hs.2 hp).resolve_right fun h => by simp [hf] at h
  exact ⟨hw, eq_panelConfigure_of_waitsIn (hp ▸ hs.waitsIn hd hw)⟩

/-- No completion leaves the panel in `Configuring`. -/
theorem SessionOk.pstateAfter_ne : pstateAfter i s.pstate ≠ .configuring := by
  by_cases hp : s.pstate = .configuring
  · obtain ⟨-, rfl⟩ := hs.configuring hf hd hp
    exact nofun
  · have hrender : s.pstate.afterRendering ≠ .configuring := by
      rw [PanelState.afterRendering_eq]
      split_ifs
      · exact nofun
      · exact hp
    cases i
    case panelReset | panelConfigure | panelDeepClean | panelRefresh | panelPowerDown => exact nofun
    case fbCreate | getPixel | sendCommand | sendData | sendDataChunked | waitUntilIdle => exact hp
    all_goals exact hrender

/-- A command comes to its wait in a panel state it can wait in. -/
theorem SessionOk.waitsIn_of_atWait {u : State} (hi : commandWaits i = true) (hu : AtWait i s u) : WaitsIn i u.pstate := by
  rcases hu with ⟨hw, rfl⟩ | ⟨hw, hentry, rfl⟩
  · exact hs.waitsIn hd hw
  · exact waitsIn_beforeWait hi hentry fun hp => (hs.configuring hf hd hp).1 hw

theorem SessionOk.executes {t : State} (h : Executes i s t) : SessionOk t := by
  have hafter := hs.pstateAfter_ne hf hd
  cases h with
  | raised _ _ hbegins =>
    refine .between rfl fun hp => ?_
    obtain ⟨hw, rfl⟩ := hs.configuring hf hd hp
    exact hw (hbegins rfl)
  | created hi _ => subst hi; exact .between rfl hafter
  | looked hi => subst hi; exact .between rfl hafter
  | drew _ _ => exact .between rfl hafter
  | sent es => exact .between rfl hafter
  | waited _ hu => exact .between rfl fun hp => hafter (hu.pstateAfter.symm.trans hp)
  | gaveUp _ _ _ _ => exact ⟨fun h => absurd rfl h, fun _ => .inr rfl⟩
  | waits hi hu _ =>
    have hframe := hu.polled_linkFrame
    have hwaits := hs.waitsIn_of_atWait hf hd hi hu
    refine ⟨fun _ => ⟨hframe.fault.trans hf, i, ?_, hwaits⟩, fun _ => .inl nofun⟩
    rw [← hframe.cp, ← hframe.stream] at hd
    exact hd

end Consistent

/-- Settles O53: a step that raises `IllegalCommand` is in no wait, since nothing decodes at `CP`; every other step is a
command's, and commands keep the session consistent. -/
theorem stepKeepsTheSessionConsistent : Obligations.StepKeepsTheSessionConsistent := by
  intro s t hs h
  obtain ⟨hf, ⟨i, hd, hexec⟩ | ⟨e, hd, rfl⟩⟩ := step_executes h
  · exact hs.executes hf hd hexec
  · have hw : s.wait = none := by
      by_contra hw
      obtain ⟨-, i, hi, -⟩ := hs.1 hw
      exact nomatch hi.symm.trans hd
    refine .between rfl fun hp => ?_
    rcases hs.2 hp with h | h
    · exact h hw
    · simp [hf] at h

end Sys2Proof.Machine
end

section
/-! SUPPORT. How commands and steps end, and what they leave. -/

namespace Sys2Proof.Machine

/-- Settles O9, from the three ways in which a command ends its step. -/
theorem cpMovesByTheLengthOrStays : Obligations.CpMovesByTheLengthOrStays := by
  intro s t i hf hd h
  obtain ⟨u, hframe, hends⟩ := (executes_of_exec ((stepRunsTheDecodedCommand s i hf hd).symm.trans h)).ends
  cases hends with
  | completes => exact .inl ⟨hframe.fault.trans hf, rfl, congrArg (· + i.lengthWords) hframe.cp⟩
  | faults hcode => exact .inr ⟨.inl hcode, hframe.cp⟩
  | waits n => exact .inr ⟨.inr nofun, hframe.cp⟩

/-- Settles O10: of what a command can do, the table of rule R191 and the `High` read leave completion only. -/
theorem everyCommandCompletes : Obligations.EveryCommandCompletes := by
  intro i s hbegins hbusy
  have hhigh : commandWaits i = true → s.busyLevel = .high := fun hi =>
    let ⟨_, hrest⟩ := hbusy hi
    State.busyLevel_cons hrest
  obtain ⟨t, ht⟩ := exec_next i s
  refine ⟨t, ht, ?_⟩
  cases executes_of_exec ht with
  | raised hcode hentry hnone =>
    rcases hbegins with ⟨-, hfree⟩ | ⟨hw, hi⟩
    · exact absurd (raisesAtEntry_unique hentry hfree) hcode
    · exact absurd (hnone hi) hw
  | created _ _ => exact ⟨rfl, rfl, rfl⟩
  | looked _ => exact ⟨rfl, rfl, rfl⟩
  | drew _ _ => exact ⟨rfl, rfl, rfl⟩
  | sent es => exact ⟨by simp, by simp, rfl⟩
  | waited _ hu =>
    have hframe := hu.afterWait_linkFrame
    exact ⟨congrArg (· + i.lengthWords) hframe.cp, hframe.fault, rfl⟩
  | gaveUp hi _ hlow _ => exact nomatch (hhigh hi).symm.trans hlow
  | waits hi _ hlow => exact nomatch (hhigh hi).symm.trans hlow

/-- Settles O54: a command that decodes fits the rest of the stream. -/
theorem stepKeepsCpInTheStream : Obligations.StepKeepsCpInTheStream := by
  intro s t hs h
  obtain ⟨-, ⟨i, hd, hexec⟩ | ⟨e, -, rfl⟩⟩ := step_executes h
  · obtain ⟨u, hframe, hends⟩ := hexec.ends
    have hcp : u.cp ≤ u.env.stream.length := by rw [hframe.cp, hframe.stream]; exact hs
    cases hends with
    | completes =>
      have hfits := lengthWords_le_of_decode hd
      rw [List.length_drop, ← hframe.cp, ← hframe.stream] at hfits
      change u.cp + i.lengthWords ≤ u.env.stream.length
      omega
    | faults _ => exact hcp
    | waits n => exact hcp
  · exact hs

/-- However a step ends, it has kept the stream, the provider's answers and the parameters, and only added to the trace. -/
theorem step_frame {s t : State} (h : step s = .next t) :
    t.env.stream = s.env.stream ∧ t.env.glyphTable = s.env.glyphTable ∧ t.env.platform = s.env.platform ∧
      TraceFollows s t := by
  obtain ⟨-, ⟨i, -, hexec⟩ | ⟨e, -, rfl⟩⟩ := step_executes h
  · obtain ⟨u, hframe, hends⟩ := hexec.ends
    cases hends <;> exact ⟨hframe.stream, hframe.glyphTable, hframe.platform, hframe.trace⟩
  · exact ⟨rfl, rfl, rfl, .refl s⟩

/-- Settles O56, from the frame of a step. -/
theorem stepKeepsStreamAndParameters : Obligations.StepKeepsStreamAndParameters := by
  intro s t h
  obtain ⟨hstream, htable, hplatform, -⟩ := step_frame h
  exact ⟨hstream, htable, hplatform⟩

/-- Settles O57, from the frame of a step. -/
theorem traceGrowsAndLinesFollowIt : Obligations.TraceGrowsAndLinesFollowIt := by
  intro s t h
  obtain ⟨-, -, -, htrace⟩ := step_frame h
  exact htrace

/-- Settles O58, from what each command can do. -/
theorem onlyTheirCommandsWriteResAndGeometry : Obligations.OnlyTheirCommandsWriteResAndGeometry := by
  intro i s t h
  have kept : PictureKept s t → ((∀ x y, i ≠ .getPixel x y) → t.res = s.res) ∧
      ((∀ w h, i ≠ .fbCreate w h) → t.width = s.width ∧ t.height = s.height ∧ t.fbValid = s.fbValid) :=
    fun ⟨_, hwidth, hheight, hvalid, hres⟩ => ⟨fun _ => hres, fun _ => ⟨hwidth, hheight, hvalid⟩⟩
  cases executes_of_exec h with
  | raised _ _ _ => exact kept (.refl s)
  | created hi _ => exact ⟨fun _ => rfl, fun hn => absurd hi (hn _ _)⟩
  | looked hi => exact ⟨fun hn => absurd hi (hn _ _), fun _ => ⟨rfl, rfl, rfl⟩⟩
  | drew _ _ => exact ⟨fun _ => rfl, fun _ => ⟨rfl, rfl, rfl⟩⟩
  | sent es => exact kept (LinkFrame.emitAll s es).picture
  | waited _ hu => exact kept hu.afterWait_linkFrame.picture
  | gaveUp _ hu _ _ => exact kept hu.polled_linkFrame.picture
  | waits _ hu _ => exact kept hu.polled_linkFrame.picture

end Sys2Proof.Machine
end

section
/-! SUPPORT. Reset, and what the host reads (rules R32, R36, R60). -/

namespace Sys2Proof.Machine

/-- Settles O49: the reset state holds these values, and an empty memory holds no byte. -/
theorem resetValues : Obligations.ResetValues :=
  ⟨fun _ => rfl, rfl, rfl, rfl, rfl, rfl, rfl, rfl, rfl⟩

theorem State.hostStatus_between {s : State} (hw : s.wait = none) (n : Nat) : s.hostStatus n = s.statusWord n := by
  simp [State.hostStatus, hw]

theorem State.hostFbByte_between {s : State} (hw : s.wait = none) (a : Nat) :
    s.hostFbByte a = if a < s.fbBytes then some (s.fb.byte a) else none := by
  simp [State.hostFbByte, hw]

/-- Inside a command the host reads nothing (rules R32, R60). -/
theorem State.host_waiting {s : State} (hw : s.wait ≠ none) : (∀ n, s.hostStatus n = none) ∧ ∀ a, s.hostFbByte a = none := by
  obtain ⟨n, hn⟩ := Option.ne_none_iff_exists'.1 hw
  simp [State.hostStatus, State.hostFbByte, hn]

/-- The register map ends at 6 (rule R32). -/
theorem State.statusWord_beyond (s : State) {n : Nat} (hn : 6 < n) : s.statusWord n = none := by
  match n, hn with
  | _ + 7, _ => rfl

/-- Settles O59, register by register. -/
theorem hostReadsBetweenCommands : Obligations.HostReadsBetweenCommands := by
  refine fun s => ⟨fun hw => ?_, State.host_waiting⟩
  simp only [State.hostStatus_between hw, State.hostFbByte_between hw]
  refine ⟨rfl, rfl, rfl, ?_, ?_, ?_, ?_, rfl, fun n => s.statusWord_beyond, fun a ha => if_pos ha, fun a ha => if_neg ha.not_gt⟩
  · dsimp only [State.statusWord]
    cases s.pstate <;> rfl
  · dsimp only [State.statusWord]
    cases s.fault <;> rfl
  · intro c hc
    dsimp only [State.statusWord]
    rw [hc]
    cases c <;> rfl
  · intro hnone
    dsimp only [State.statusWord]
    rw [hnone]
    cases Config.resBitUnspecified s.cp
    · exact .inl rfl
    · exact .inr rfl

end Sys2Proof.Machine
end

section
/-! SUPPORT. The pixel commands: one bit of one byte in range, nothing out of range (rules R51, R53, R101, R102, R104). -/

namespace Sys2Proof.Machine

/-- With a framebuffer `set_pixel` completes with the pixel written (rules R101, R176). -/
theorem exec_setPixel {s : State} (hv : s.fbValid = true) (x y : Int) (c : Color) :
    exec (.setPixel x y c) s = .next { s with
      fb := setPixel s.width s.height s.fb x y c
      pstate := if s.pstate = .ready ∨ s.pstate = .deepCleaning then .rendering else s.pstate
      cp := s.cp + 3
      wait := none } := by
  rw [← PanelState.afterRendering_eq]
  exact congrArg Host.Outcome.next (State.render_valid hv 3 _)

/-- With a framebuffer `get_pixel` completes with the pixel in `RES` (rule R102). -/
theorem exec_getPixel {s : State} (hv : s.fbValid = true) (x y : Int) :
    exec (.getPixel x y) s =
      .next { s with res := getPixel s.width s.height s.fb x y, cp := s.cp + 3, wait := none } :=
  congrArg Host.Outcome.next (if_pos hv)

section Pixel

variable {w h : Nat} {x y : Int}

/-- A coordinate beyond one of the four edges is what being out of range is (rule R53). -/
theorem not_inRange_iff : ¬ inRange w h x y ↔ x < 0 ∨ (w : Int) ≤ x ∨ y < 0 ∨ (h : Int) ≤ y := by
  simp only [not_and_or, not_le, not_lt]

theorem setPixel_of_inRange (hr : inRange w h x y) (m : Memory) (c : Color) :
    setPixel w h m x y c = m.write (byteIndex w x y) (paintBit (m.byte (byteIndex w x y)) (bitIndex x) c) :=
  if_pos hr

theorem setPixel_of_not_inRange (hr : ¬ inRange w h x y) (m : Memory) (c : Color) : setPixel w h m x y c = m :=
  if_neg hr

theorem getPixel_of_inRange (hr : inRange w h x y) (m : Memory) : getPixel w h m x y = some (pixelOf w m x y) :=
  if_pos hr

/-- In range the pixel's byte gets its one bit painted, and every other byte is as before (rules R54, R101). -/
theorem read_setPixel_of_inRange (hr : inRange w h x y) (m : Memory) (c : Color) (a : Nat) :
    (setPixel w h m x y c).read a =
      if a = byteIndex w x y then some (paintBit (m.byte (byteIndex w x y)) (bitIndex x) c) else m.read a := by
  rw [setPixel_of_inRange hr, Memory.read_write]

/-- A pixel read after it was written has the color written, whatever the width (rule R104 (a)). -/
theorem getPixel_setPixel (hr : inRange w h x y) (m : Memory) (c : Color) :
    getPixel w h (setPixel w h m x y c) x y = some c := by
  rw [getPixel_of_inRange hr, setPixel_of_inRange hr, pixelOf, Memory.byte_write, if_pos rfl,
    paintBit_getLsbD _ _ _ _ (bitIndex_lt x) (bitIndex_lt x), if_pos rfl, colorOfBit_bitOfColor]

end Pixel

/-- Settles O14: the write is of the pixel's byte with its one bit painted. -/
theorem setPixelWritesItsBit : Obligations.SetPixelWritesItsBit := by
  intro s x y c hv hx hxw hy hyh
  have hread := read_setPixel_of_inRange (⟨hx, hxw, hy, hyh⟩ : inRange s.width s.height x y) s.fb c
  have hbit := fun k => paintBit_getLsbD (s.fb.byte (byteIndex s.width x y)) (bitIndex x) k c (bitIndex_lt x)
  have hpainted := (hbit _ (bitIndex_lt x)).trans (if_pos rfl)
  refine ⟨_, _, exec_setPixel hv x y c, rfl, (hread _).trans (if_pos rfl), hpainted.trans ?_,
    fun k hk hne => (hbit k hk).trans (if_neg hne), fun a ha => (hread a).trans (if_neg ha)⟩
  cases c <;> rfl

/-- Settles O15: out of range the memory written is the memory found. -/
theorem setPixelOutOfRangeIsANoOp : Obligations.SetPixelOutOfRangeIsANoOp := by
  intro s x y c hv hout
  rw [exec_setPixel hv, setPixel_of_not_inRange (not_inRange_iff.2 hout)]

/-- Settles O17: `set_pixel` leaves the geometry, so `get_pixel` reads the bit that was written. -/
theorem setThenGetReturnsTheColor : Obligations.SetThenGetReturnsTheColor := by
  intro s x y c hv hx hxw hy hyh
  refine ⟨_, _, exec_setPixel hv x y c, exec_getPixel ?_ x y, getPixel_setPixel ⟨hx, hxw, hy, hyh⟩ s.fb c⟩
  exact hv

end Sys2Proof.Machine
end

section
/-! SUPPORT. Decoding and encoding are each other's inverse, word for word (rules R72 to R80). -/

namespace Sys2Proof

/-- A row's header makes the decoder read the row's operands, with the row's own `C` and `F`. -/
theorem decode_headerWord (op : Op) (color : Color) (filled : Bool) (ws : List Word) :
    decode (headerWord op color filled :: ws) = decodeOperands op color filled ws := by
  simp only [decode, headerOp_headerWord]
  cases op <;> cases color <;> cases filled <;> rfl

/-- What decodes has a header that selects a row and operands of that row. -/
theorem decode_ok {ws : List Word} {i : Instr} (h : decode ws = .ok i) :
    ∃ op color filled rest, ws = headerWord op color filled :: rest ∧ decodeOperands op color filled rest = .ok i := by
  cases ws with
  | nil => nomatch h
  | cons header rest =>
    dsimp only [decode] at h
    split at h
    case h_1 => nomatch h
    case h_2 op hop => exact ⟨op, _, _, rest, by rw [headerWord_of_headerOp hop], h⟩

/-! ## From a command to its words and back -/

/-- The row of the opcode map that a command is of, with its `C` and `F`; both 0 where the row has none (rules R72, R77). -/
def Instr.row : Instr → Op × Color × Bool
  | .fbCreate _ _ => (.fbCreate, .black, false)
  | .setPixel _ _ c => (.setPixel, c, false)
  | .getPixel _ _ => (.getPixel, .black, false)
  | .fbFill c => (.fbFill, c, false)
  | .fillRect _ _ _ _ c => (.fillRect, c, false)
  | .drawLine _ _ _ _ c => (.drawLine, c, false)
  | .drawCircle _ _ _ c f => (.drawCircle, c, f)
  | .drawText _ _ _ _ c => (.drawText, c, false)
  | .drawTextScaled _ _ _ _ _ c => (.drawTextScaled, c, false)
  | .drawModuleGrid _ _ _ _ _ => (.drawModuleGrid, .black, false)
  | .sendCommand _ => (.sendCommand, .black, false)
  | .sendData _ => (.sendData, .black, false)
  | .sendDataChunked _ _ => (.sendDataChunked, .black, false)
  | .waitUntilIdle => (.waitUntilIdle, .black, false)
  | .panelReset => (.panelReset, .black, false)
  | .panelConfigure => (.panelConfigure, .black, false)
  | .panelDeepClean => (.panelDeepClean, .black, false)
  | .panelRefresh => (.panelRefresh, .black, false)
  | .panelPowerDown => (.panelPowerDown, .black, false)

/-- The encoding begins with the header of the command's row. -/
theorem encode_eq_cons (i : Instr) :
    encode i = headerWord i.row.1 i.row.2.1 i.row.2.2 :: (encode i).tail := by
  cases i <;> rfl

/-- An encoding is decoded as operands of the command's row. -/
theorem decode_encode_append (i : Instr) (rest : List Word) :
    decode (encode i ++ rest) = decodeOperands i.row.1 i.row.2.1 i.row.2.2 ((encode i).tail ++ rest) := by
  rw [encode_eq_cons, List.cons_append, decode_headerWord, List.tail_cons]

/-- A byte is an operand that `send_command` takes (rule R74). -/
theorem operand_setWidth_byte (b : Byte) :
    0 ≤ operand (b.setWidth 32) ∧ operand (b.setWidth 32) ≤ 255 := by
  have hb := b.isLt
  have htoNat : (b.setWidth 32).toNat = b.toNat := BitVec.toNat_setWidth_of_le (by decide)
  rw [operand, BitVec.toInt_eq_toNat_of_lt (by omega), htoNat]
  omega

/-- An operand that holds a byte has it as its low byte. -/
theorem extractLsb'_setWidth_byte (b : Byte) : (b.setWidth 32).extractLsb' 0 8 = b := by
  rw [BitVec.extractLsb'_setWidth_of_le (by decide), BitVec.extractLsb'_eq_self]

/-- Settles O1: the header selects the command's row, and its operands and its payload are read back from their words. -/
theorem decodeOfEncodeIsTheCommand : Obligations.DecodeOfEncodeIsTheCommand := by
  intro i rest hwf
  rw [decode_encode_append]
  cases i <;> simp only [Instr.wf, Bool.and_eq_true] at hwf
  case fbFill | waitUntilIdle | panelReset | panelConfigure | panelDeepClean | panelRefresh | panelPowerDown => rfl
  case fbCreate | setPixel | getPixel | fillRect | drawLine | drawCircle =>
    simp [Instr.row, encode, decodeOperands, operand_operandWord, hwf]
  case sendCommand opcode =>
    simp [Instr.row, encode, decodeOperands, operand_setWidth_byte, extractLsb'_setWidth_byte]
  case drawText | drawTextScaled =>
    simp [Instr.row, encode, decodeOperands, operand_operandWord, operand_countWord, takeChars_append, hwf, Except.map]
  case drawModuleGrid | sendData | sendDataChunked =>
    simp [Instr.row, encode, decodeOperands, operand_operandWord, operand_countWord, takeBytes_packBytes, hwf, Except.map]

/-! ## From words to a command and back -/

/-- Every encoding is as long as its command's format says (rule R73). -/
theorem length_encode (i : Instr) : (encode i).length = i.lengthWords := by
  cases i with
  | fbCreate => exact Laws.EncodeLength.fbCreate ..
  | setPixel => exact Laws.EncodeLength.setPixel ..
  | getPixel => exact Laws.EncodeLength.getPixel ..
  | fbFill => exact Laws.EncodeLength.fbFill ..
  | fillRect => exact Laws.EncodeLength.fillRect ..
  | drawLine => exact Laws.EncodeLength.drawLine ..
  | drawCircle => exact Laws.EncodeLength.drawCircle ..
  | drawText => exact Laws.EncodeLength.drawText ..
  | drawTextScaled => exact Laws.EncodeLength.drawTextScaled ..
  | drawModuleGrid => exact Laws.EncodeLength.drawModuleGrid ..
  | sendCommand => exact Laws.EncodeLength.sendCommand ..
  | sendData => exact Laws.EncodeLength.sendData ..
  | sendDataChunked => exact Laws.EncodeLength.sendDataChunked ..
  | waitUntilIdle => exact Laws.EncodeLength.waitUntilIdle
  | panelReset => exact Laws.EncodeLength.panelReset
  | panelConfigure => exact Laws.EncodeLength.panelConfigure
  | panelDeepClean => exact Laws.EncodeLength.panelDeepClean
  | panelRefresh => exact Laws.EncodeLength.panelRefresh
  | panelPowerDown => exact Laws.EncodeLength.panelPowerDown

/-- A count operand that equals the length of a payload is the payload's count word. -/
theorem countWord_of_operand_eq {w : Word} {n : Nat} (h : operand w = n) : inCount n = true ∧ countWord n = w := by
  have hn : (operand w).toNat = n := by omega
  exact ⟨hn ▸ inCount_operand w, hn ▸ countWord_operand (by omega)⟩

/-- Character words that are read are the words there, after their count (rule R76). -/
theorem isPrefix_of_takeChars {w : Word} {ws chars : List Word} (h : takeChars (operand w) ws = .ok chars) :
    inCount chars.length = true ∧ countWord chars.length :: chars <+: w :: ws := by
  obtain ⟨hn, -, hchars⟩ := takeChars_ok h
  obtain ⟨hcount, hw⟩ := countWord_of_operand_eq hn
  exact ⟨hcount, List.cons_prefix_cons.2 ⟨hw, List.prefix_iff_eq_take.2 hchars⟩⟩

/-- Bytes that are read, packed again, are the words there, after their count (rule R75). -/
theorem isPrefix_of_takeBytes {w : Word} {ws : List Word} {bytes : List Byte} (h : takeBytes (operand w) ws = .ok bytes) :
    inCount bytes.length = true ∧ countWord bytes.length :: packBytes bytes <+: w :: ws := by
  obtain ⟨hn, -, hbytes⟩ := takeBytes_ok h
  obtain ⟨hcount, hw⟩ := countWord_of_operand_eq hn
  rw [← length_packBytes] at hbytes
  exact ⟨hcount, List.cons_prefix_cons.2 ⟨hw, List.prefix_iff_eq_take.2 hbytes⟩⟩

/-- An operand in `[0, 255]` is its low byte (rule R74). -/
theorem setWidth_extractLsb'_of_operand {w : Word} (h0 : 0 ≤ operand w) (h255 : operand w ≤ 255) :
    (w.extractLsb' 0 8).setWidth 32 = w := by
  have hw : w.toNat ≤ 255 := by
    have hlt := w.isLt
    rw [operand, BitVec.toInt_eq_toNat_cond] at h0 h255
    split_ifs at h0 h255 <;> omega
  refine BitVec.eq_of_toNat_eq ?_
  rw [BitVec.toNat_setWidth, BitVec.extractLsb'_toNat, Nat.shiftRight_zero]
  omega

/-- What the operands of a row are read as is well formed, and the row's header and
the words begin with its encoding. -/
theorem encode_isPrefix_of_decodeOperands {op : Op} {color : Color} {filled : Bool} {ws : List Word} {i : Instr}
    (h : decodeOperands op color filled ws = .ok i) : i.wf = true ∧ encode i <+: headerWord op color filled :: ws := by
  cases op <;> dsimp only [decodeOperands] at h
  case fbFill | waitUntilIdle | panelReset | panelConfigure | panelDeepClean | panelRefresh | panelPowerDown =>
    cases h
    exact ⟨rfl, ws, rfl⟩
  case fbCreate | setPixel | getPixel | fillRect | drawLine | drawCircle =>
    split at h <;> cases h
    simp [Instr.wf, inSigned32_operand, encode, headerWord, operandWord_operand]
  case sendCommand =>
    split at h
    · split_ifs at h with hrange
      obtain ⟨h0, h255⟩ := hrange
      cases h
      simp [Instr.wf, encode, headerWord, setWidth_extractLsb'_of_operand h0 h255]
    · cases h
  case drawText | drawTextScaled =>
    split at h
    · obtain ⟨chars, hchars, rfl⟩ := ok_of_map_ok h
      obtain ⟨hcount, hprefix⟩ := isPrefix_of_takeChars hchars
      simpa [Instr.wf, inSigned32_operand, hcount, encode, headerWord, operandWord_operand] using hprefix
    · cases h
  case drawModuleGrid | sendData | sendDataChunked =>
    split at h
    · obtain ⟨bytes, hbytes, rfl⟩ := ok_of_map_ok h
      obtain ⟨hcount, hprefix⟩ := isPrefix_of_takeBytes hbytes
      simpa [Instr.wf, inSigned32_operand, hcount, encode, headerWord, operandWord_operand] using hprefix
    · cases h

/-- Settles O2: the words begin with the encoding of the command they decode to. -/
theorem decodedWordsAreTheEncoding : Obligations.DecodedWordsAreTheEncoding := by
  intro ws i h
  obtain ⟨op, color, filled, rest, rfl, hoperands⟩ := decode_ok h
  obtain ⟨hwf, hprefix⟩ := encode_isPrefix_of_decodeOperands hoperands
  rw [← length_encode]
  exact ⟨hwf, hprefix.length_le, List.prefix_iff_eq_take.1 hprefix⟩

/-- A command's encoding, once computed, is what the decoder reads the command from. -/
theorem decode_and_encode {i : Instr} {ws : List Word} (hwf : i.wf = true) (he : encode i = ws) :
    decode ws = .ok i ∧ encode i = ws := by
  have hdecode := decodeOfEncodeIsTheCommand i [] hwf
  rw [List.append_nil, he] at hdecode
  exact ⟨hdecode, he⟩

/-- Settles O5: the commands are well formed and their encodings compute to the words given. -/
theorem workedEncodingsAgree : Obligations.WorkedEncodingsAgree := by
  refine ⟨?_, ?_, ?_, ?_, ?_, ?_, ?_, ?_⟩ <;> exact decode_and_encode (by decide) (by decide)

end Sys2Proof
end

section
/-! SUPPORT. Headers: the rows of the opcode map are disjoint, and the legal headers are those that select one (rules R72,
R77, R78). -/

namespace Sys2Proof.Machine

/-! ## The opcode map -/

/-- The opcode map gives no opcode two rows. -/
theorem nodup_opcodes : (opcodeTable.map fun row => row.pattern.extractLsb' 0 8).Nodup := by decide

/-- A word that matches a row has the row's opcode: no mask leaves out a bit of it. -/
theorem opcode_of_match {h : Word} {row : OpcodeRow} (hrow : row ∈ opcodeTable) (hm : h &&& row.mask = row.pattern) :
    row.pattern.extractLsb' 0 8 = h.extractLsb' 0 8 := by
  have hmask : ∀ row ∈ opcodeTable, row.mask.extractLsb' 0 8 = BitVec.allOnes 8 := by decide
  rw [← hm, BitVec.extractLsb'_and, hmask row hrow, BitVec.and_allOnes]

/-- Settles O3: the two rows share the header's opcode, and each opcode has one row. -/
theorem opcodeRowsAreDisjoint : Obligations.OpcodeRowsAreDisjoint := by
  intro h r r' hr hr' hm hm'
  exact List.inj_on_of_nodup_map nodup_opcodes hr hr' ((opcode_of_match hr hm).trans (opcode_of_match hr' hm').symm)

/-! ## The fields of a header -/

/-- The header's `C` is bit 8 and no other. -/
theorem getLsbD_colorBit (h : Word) (k : Nat) :
    (colorBit (headerColor h)).getLsbD k = (decide (8 = k) && h.getLsbD 8) := by
  have h8 : (0x00000100#32).getLsbD k = (decide (8 < 32) && decide (8 = k)) := BitVec.getLsbD_twoPow 8 k
  unfold headerColor
  cases h.getLsbD 8 <;> simp [colorBit, h8]

/-- The header's `F` is bit 9 and no other. -/
theorem getLsbD_filledBit (h : Word) (k : Nat) :
    (filledBit (headerFilled h)).getLsbD k = (decide (9 = k) && h.getLsbD 9) := by
  have h9 : (0x00000200#32).getLsbD k = (decide (9 < 32) && decide (9 = k)) := BitVec.getLsbD_twoPow 9 k
  unfold headerFilled
  cases h.getLsbD 9 <;> simp [filledBit, h9]

/-- A word without reserved bits is its opcode, its `C` and its `F` (rule R72). -/
theorem header_eq_fields {h : Word} (hreserved : h.extractLsb' 10 22 = 0) :
    h = (h.extractLsb' 0 8).setWidth 32 ||| colorBit (headerColor h) ||| filledBit (headerFilled h) := by
  refine BitVec.eq_of_getLsbD_eq fun k hk => ?_
  have high : 10 ≤ k → h.getLsbD k = false := fun hk10 => by
    have := congrArg (fun w => w.getLsbD (k - 10)) hreserved
    simpa [show k - 10 < 22 by omega, show 10 + (k - 10) = k by omega] using this
  simp only [BitVec.getLsbD_or, BitVec.getLsbD_setWidth, BitVec.getLsbD_extractLsb', getLsbD_colorBit, getLsbD_filledBit]
  obtain hk | rfl | rfl | hk : k < 8 ∨ k = 8 ∨ k = 9 ∨ 10 ≤ k := by omega
  · simp [hk, show k < 32 by omega, show 8 ≠ k by omega, show 9 ≠ k by omega]
  · simp
  · simp
  · simp [high hk, show ¬ k < 8 by omega, show 8 ≠ k by omega, show 9 ≠ k by omega]

/-- The header of a row is legal. -/
theorem legalHeader_headerWord (op : Op) (color : Color) (filled : Bool) : LegalHeader (headerWord op color filled) := by
  unfold LegalHeader
  cases op <;> cases color <;> cases filled <;> decide

/-- An opcode of the map with a `C` and an `F` that it takes selects a row. -/
theorem headerOp_fields_ne_none (color : Color) (filled : Bool) :
    ∀ opcode ∈ ([0x01, 0x02, 0x03, 0x04, 0x10, 0x11, 0x12, 0x20, 0x21, 0x30, 0x40, 0x41, 0x42, 0x43,
      0x50, 0x51, 0x52, 0x53, 0x54] : List Byte),
      (color = .white → opcode ∈ ([0x02, 0x04, 0x10, 0x11, 0x12, 0x20, 0x21] : List Byte)) →
      (filled = true → opcode = 0x12) →
      headerOp (opcode.setWidth 32 ||| colorBit color ||| filledBit filled) ≠ none := by
  cases color <;> cases filled <;> decide

/-- The legal headers are those that select a row of the opcode map (rules R72, R77, R78). -/
theorem legalHeader_iff (h : Word) : LegalHeader h ↔ headerOp h ≠ none := by
  constructor
  · rintro ⟨hreserved, hopcode, hcolor, hfilled⟩
    rw [header_eq_fields hreserved]
    refine headerOp_fields_ne_none _ _ _ hopcode (fun hc => hcolor ?_) hfilled
    simpa [headerColor] using hc
  · intro hop
    obtain ⟨op, hop⟩ := Option.ne_none_iff_exists'.1 hop
    rw [← headerWord_of_headerOp hop]
    exact legalHeader_headerWord ..

/-! ## The reasons for a refusal -/

theorem takeChars_ne_illegalHeader (n : Int) (ws : List Word) : takeChars n ws ≠ .error .illegalHeader := by
  unfold takeChars
  split_ifs <;> exact nofun

theorem takeBytes_ne_illegalHeader (n : Int) (ws : List Word) : takeBytes n ws ≠ .error .illegalHeader := by
  unfold takeBytes
  dsimp only
  split_ifs <;> exact nofun

theorem error_of_map_error {ε α β : Type} {f : α → β} {x : Except ε α} {e : ε} (h : x.map f = .error e) :
    x = .error e := by
  cases x with
  | error e' => exact congrArg _ (Except.error.inj h)
  | ok a => nomatch h

/-- Past the header no reason for a refusal is the header. -/
theorem decodeOperands_ne_illegalHeader (op : Op) (color : Color) (filled : Bool) (ws : List Word) :
    decodeOperands op color filled ws ≠ .error .illegalHeader := by
  intro h
  cases op <;> dsimp only [decodeOperands] at h
  case fbFill | waitUntilIdle | panelReset | panelConfigure | panelDeepClean | panelRefresh | panelPowerDown => nomatch h
  case fbCreate | setPixel | getPixel | fillRect | drawLine | drawCircle => split at h <;> nomatch h
  case sendCommand =>
    split at h
    · split_ifs at h
      nomatch h
    · nomatch h
  case drawText | drawTextScaled =>
    split at h
    · exact takeChars_ne_illegalHeader _ _ (error_of_map_error h)
    · nomatch h
  case drawModuleGrid | sendData | sendDataChunked =>
    split at h
    · exact takeBytes_ne_illegalHeader _ _ (error_of_map_error h)
    · nomatch h

/-- Settles O4: a header is refused where it selects no row, and an operand or a payload is refused for another reason. -/
theorem headersAreLegalOrRefused : Obligations.HeadersAreLegalOrRefused := by
  intro h ws
  rw [legalHeader_iff]
  cases hop : headerOp h with
  | none => exact ⟨fun _ => by simp only [decode, hop], fun hne => absurd rfl hne⟩
  | some op =>
    refine ⟨fun hnot => absurd nofun hnot, fun _ => ?_⟩
    simp only [decode, hop]
    exact decodeOperands_ne_illegalHeader _ _ _ _

end Sys2Proof.Machine
end

section
/-! SUPPORT. What a step does where nothing decodes (rules R78, R192). -/

namespace Sys2Proof.Machine

theorem State.fetch_of_decode_error {s : State} {e : DecodeError} (hf : s.fault = .noFault)
    (hcp : s.cp ≠ s.env.stream.length) (hd : decode (s.env.stream.drop s.cp) = .error e) : s.fetch = .illegal e := by
  simp [State.fetch, hf, hcp, hd]

theorem step_of_fetch_illegal {s : State} {e : DecodeError} (h : s.fetch = .illegal e) :
    step s = .next (s.raise .illegalCommand) := by
  simp only [step, h]

/-- Outside a wait a fault is all that raising one changes (rule R192). -/
theorem State.raise_between {s : State} (hw : s.wait = none) (code : FaultCode) :
    s.raise code = { s with fault := code } := by
  rw [State.raise, ← hw]

/-- Settles O7: what does not decode is fetched as illegal, and a step then raises `IllegalCommand`. -/
theorem illegalCommandRaisesAndChangesNothingElse : Obligations.IllegalCommandRaisesAndChangesNothingElse := by
  intro s e hf hw hcp hd
  rw [step_of_fetch_illegal (State.fetch_of_decode_error hf hcp.ne hd), State.raise_between hw]

end Sys2Proof.Machine
end

section
/-! SUPPORT. The framebuffer commands against each other: two pixels written in either order, the whole picture as one
rectangle and as a fill (rules R102, R103, R104, R111). -/

namespace Sys2Proof.Machine

/-! ## The meanings of the commands -/

/-- A rendering command with a framebuffer, its panel state as rule R176 words it. -/
theorem State.render_eq {s : State} (hv : s.fbValid = true) (len : Nat) (paint : Memory → Memory) :
    s.render len paint = { s with
      fb := paint s.fb
      pstate := if s.pstate = .ready ∨ s.pstate = .deepCleaning then .rendering else s.pstate
      cp := s.cp + len
      wait := none } := by
  rw [State.render_valid hv, PanelState.afterRendering_eq]

/-- With a framebuffer `fb_fill` completes with the picture filled (rules R103, R176). -/
theorem exec_fbFill {s : State} (hv : s.fbValid = true) (c : Color) :
    exec (.fbFill c) s = .next { s with
      fb := s.fb.fill s.fbBytes (solidByte c)
      pstate := if s.pstate = .ready ∨ s.pstate = .deepCleaning then .rendering else s.pstate
      cp := s.cp + 1
      wait := none } :=
  congrArg Host.Outcome.next (State.render_eq hv 1 _)

/-- With a framebuffer `fill_rect` completes with the rectangle filled (rules R110, R176). -/
theorem exec_fillRect {s : State} (hv : s.fbValid = true) (x y rw rh : Int) (c : Color) :
    exec (.fillRect x y rw rh c) s = .next { s with
      fb := fillRect s.width s.height s.fb x y rw rh c
      pstate := if s.pstate = .ready ∨ s.pstate = .deepCleaning then .rendering else s.pstate
      cp := s.cp + 5
      wait := none } :=
  congrArg Host.Outcome.next (State.render_eq hv 5 _)

theorem getPixel_of_not_inRange {w h : Nat} {x y : Int} (hr : ¬ inRange w h x y) (m : Memory) :
    getPixel w h m x y = none :=
  if_neg hr

/-- Settles O16: `get_pixel` puts `getPixel`'s answer into `RES`, and that is `none` exactly out of range. -/
theorem getPixelReadsThePixel : Obligations.GetPixelReadsThePixel := by
  refine fun s x y hv => ⟨fun hr => ?_, fun hout => ?_⟩
  · rw [exec_getPixel hv, getPixel_of_inRange hr]
    rfl
  · rw [exec_getPixel hv, getPixel_of_not_inRange (not_inRange_iff.2 hout)]

/-- Settles O19: the memory written is the fill of the picture's bytes. -/
theorem fbFillWritesEveryByte : Obligations.FbFillWritesEveryByte := by
  refine fun s c hv => ⟨_, exec_fbFill hv c, rfl, fun a => (Memory.read_fill s.fb s.fbBytes a _).trans ?_⟩
  cases c <;> rfl

/-! ## Two pixels -/

theorem paintBit_paintBit_comm (v : Byte) {k k' : Nat} (hk : k < 8) (hk' : k' < 8) (hne : k ≠ k') (c c' : Color) :
    paintBit (paintBit v k c) k' c' = paintBit (paintBit v k' c') k c := by
  refine BitVec.eq_of_getLsbD_eq fun j hj => ?_
  simp only [paintBit_getLsbD, hk, hk', hj]
  split_ifs with hjk' hjk
  · exact absurd (hjk.symm.trans hjk') hne
  all_goals rfl

theorem paintBit_paintBit_same (v : Byte) {k : Nat} (hk : k < 8) (c c' : Color) :
    paintBit (paintBit v k c) k c' = paintBit v k c' := by
  refine BitVec.eq_of_getLsbD_eq fun j hj => ?_
  simp only [paintBit_getLsbD, hk, hj]
  split_ifs <;> rfl

section TwoPixels

variable {w h : Nat} {x y x' y' : Int}

/-- Two pixels written in either order: bytes apart do not meet, and in one byte the bits differ (rule R104 (d)). -/
theorem read_setPixel_comm (hw : w % 8 = 0) (hne : (x, y) ≠ (x', y')) (m : Memory) (c c' : Color) (a : Nat) :
    (setPixel w h (setPixel w h m x y c) x' y' c').read a = (setPixel w h (setPixel w h m x' y' c') x y c).read a := by
  by_cases hr : inRange w h x y
  case neg => simp only [setPixel_of_not_inRange hr]
  by_cases hr' : inRange w h x' y'
  case neg => simp only [setPixel_of_not_inRange hr']
  simp only [setPixel_of_inRange hr, setPixel_of_inRange hr', Memory.read_write, Memory.byte_write]
  by_cases hb : byteIndex w x y = byteIndex w x' y'
  · have hbit : bitIndex x ≠ bitIndex x' := fun hk =>
      have ⟨hx, hy⟩ := pixel_unique hw hr hr' hb hk
      hne (Prod.ext hx hy)
    simp only [hb, if_true, paintBit_paintBit_comm _ (bitIndex_lt x) (bitIndex_lt x') hbit]
    split_ifs <;> rfl
  · simp only [hb, Ne.symm hb, if_false]
    split_ifs with ha' ha
    · exact absurd (ha.symm.trans ha') hb
    all_goals rfl

/-- A pixel written twice holds what the later write put there (rule R104 (e)). -/
theorem read_setPixel_setPixel_same (m : Memory) (c c' : Color) (a : Nat) :
    (setPixel w h (setPixel w h m x y c) x y c').read a = (setPixel w h m x y c').read a := by
  by_cases hr : inRange w h x y
  · simp only [setPixel_of_inRange hr, Memory.read_write, Memory.byte_write, if_true,
      paintBit_paintBit_same _ (bitIndex_lt x)]
    split_ifs <;> rfl
  · simp only [setPixel_of_not_inRange hr]

end TwoPixels

/-- Settles O18: both orders run `setPixel` on one geometry, so the laws of two pixels apply. -/
theorem setPixelsCommuteOrTheLaterWins : Obligations.SetPixelsCommuteOrTheLaterWins := by
  intro s x y x' y' c c' ⟨hv, hw⟩
  refine ⟨_, _, _, _, exec_setPixel hv x y c, exec_setPixel ?_ x' y' c', exec_setPixel hv x' y' c', exec_setPixel ?_ x y c,
    fun hne => read_setPixel_comm hw hne s.fb c c', fun heq => ?_⟩
  · exact hv
  · exact hv
  · obtain ⟨rfl, rfl⟩ := Prod.mk.inj heq
    exact read_setPixel_setPixel_same s.fb c c'

/-! ## The whole picture -/

/-- Every bit of every byte of the picture holds an in-range pixel (rules R50, R51). -/
theorem exists_pixel_of_bit {w h a k : Nat} (hw : w % 8 = 0) (ha : a < w * h / 8) (hk : k < 8) :
    ∃ x y, inRange w h x y ∧ byteIndex w x y = a ∧ bitIndex x = k := by
  obtain ⟨n, rfl⟩ : ∃ n, w = 8 * n := ⟨w / 8, by omega⟩
  rw [Nat.mul_assoc, Nat.mul_div_cancel_left _ (by decide)] at ha
  have hn : 0 < n := Nat.pos_of_mul_pos_right (Nat.zero_lt_of_lt ha)
  have hcol : a % n < n := Nat.mod_lt a hn
  have hrow : a / n < h := Nat.div_lt_of_lt_mul ha
  have haddr : n * (a / n) + a % n = a := Nat.div_add_mod a n
  generalize a / n = row at hrow haddr
  generalize a % n = col at hcol haddr
  have hlinear : (row : Int) * (8 * n : Nat) = 8 * (n * row : Nat) := by push_cast; ring
  have hbyte : byteIndex (8 * n) (8 * col + (7 - k)) row = a := by
    rw [byteIndex, hlinear]
    omega
  have hbit : bitIndex (8 * col + (7 - k)) = k := by
    unfold bitIndex
    omega
  refine ⟨_, _, ⟨?_, ?_, ?_, ?_⟩, hbyte, hbit⟩ <;> omega

theorem bitOfColor_colorOfBit (bit : Bool) : bitOfColor (colorOfBit bit) = bit := by
  cases bit <;> rfl

theorem solidByte_getLsbD (c : Color) {k : Nat} (hk : k < 8) : (solidByte c).getLsbD k = bitOfColor c := by
  interval_cases k <;> cases c <;> rfl

/-- A byte all of whose bits have one color is that color's solid byte (rule R103). -/
theorem eq_solidByte {v : Byte} {c : Color} (hv : ∀ k < 8, colorOfBit (v.getLsbD k) = c) : v = solidByte c :=
  BitVec.eq_of_getLsbD_eq fun k hk => by rw [solidByte_getLsbD c hk, ← hv k hk, bitOfColor_colorOfBit]

/-- The rectangle of the whole frame is the fill of the picture: inside, every bit is a pixel painted; outside, no byte
holds one (rule R111 (a)). -/
theorem byte_fillRect_whole {w h : Nat} (hw : w % 8 = 0) (m : Memory) (c : Color) (a : Nat) :
    (fillRect w h m 0 0 w h c).byte a = (m.fill (w * h / 8) (solidByte c)).byte a := by
  have hpaints := paints_fillRect (h := h) hw m 0 0 w h c
  rw [Memory.byte_fill]
  split_ifs with ha
  · refine eq_solidByte fun k hk => ?_
    obtain ⟨x, y, hr, rfl, rfl⟩ := exists_pixel_of_bit hw ha hk
    have ⟨hx, hxw, hy, hyh⟩ := hr
    exact hpaints.drawn x y c hr ⟨hx, by omega, hy, by omega, rfl⟩
  · rw [Memory.byte, hpaints.bytes a fun x y _ hr _ hb => ha (hb ▸ byteIndex_lt hw hr)]
    rfl

/-- Settles O22: both commands leave the filled picture, and that holds solid bytes. -/
theorem fillingTheWholeFrameIsFbFill : Obligations.FillingTheWholeFrameIsFbFill := by
  intro s c ⟨hv, hw⟩
  have hwhole := byte_fillRect_whole (h := s.height) hw s.fb c
  refine ⟨_, _, exec_fillRect hv _ _ _ _ c, exec_fbFill hv c, fun a ha => ?_, hwhole⟩
  rw [hwhole, Memory.byte_fill, if_pos ha]
  cases c <;> rfl

end Sys2Proof.Machine
end

section
/-! SUPPORT. The raster commands: rectangles, lines and circles as the sets of pixels they draw, and what follows of those
sets (rules R110 to R119). -/

namespace Sys2Proof.Machine

/-! ## What a command in one color draws -/

section OneColor

variable {s t : State} {len : Nat} {p : Int → Int → Prop} {c : Color} {x y : Int}

theorem Draws.pixelColor_of_mem (h : Draws s t len fun x y c' => p x y ∧ c' = c) (hr : InFrame s x y) (hp : p x y) :
    pixelColor t x y = c := by
  obtain ⟨-, hdrawn, -, -⟩ := h
  exact hdrawn x y c hr ⟨hp, rfl⟩

theorem Draws.pixelColor_of_not_mem (h : Draws s t len fun x y c' => p x y ∧ c' = c) (hr : InFrame s x y)
    (hp : ¬ p x y) : pixelColor t x y = pixelColor s x y := by
  obtain ⟨-, -, hkept, -⟩ := h
  exact hkept x y hr fun _ hc => hp hc.1

end OneColor

/-! ## Rectangles -/

/-- Settles O20: the rectangle is what the subroutine paints. -/
theorem fillRectDrawsTheRectangle : Obligations.FillRectDrawsTheRectangle :=
  fun s x y w h c hd => ⟨_, rfl, draws_render hd 5 _ (paints_fillRect hd.2 s.fb x y w h c)⟩

theorem clipped_of_nonpos {a n : Int} (hn : n ≤ 0) (limit : Nat) : clipped a n limit = [] := by
  rw [List.eq_nil_iff_forall_not_mem]
  intro i hi
  rw [mem_clipped] at hi
  omega

/-- One integer more at the end of the range is kept when it lies in `[0, limit)`, and clipped otherwise. -/
theorem clipped_succ (a : Int) (n limit : Nat) :
    clipped a (n + 1 : Nat) limit =
      clipped a n limit ++ if 0 ≤ a + n ∧ a + n < limit then [(a + n).toNat] else [] := by
  unfold clipped
  split_ifs with hin
  · have hlen : (min (a + (n + 1 : Nat)) limit).toNat - (max a 0).toNat =
        (min (a + n) limit).toNat - (max a 0).toNat + 1 := by omega
    have hlast : (max a 0).toNat + ((min (a + n) limit).toNat - (max a 0).toNat) = (a + n).toNat := by omega
    rw [hlen, List.range'_1_concat, hlast]
  · have hlen : (min (a + (n + 1 : Nat)) limit).toNat - (max a 0).toNat =
        (min (a + n) limit).toNat - (max a 0).toNat := by omega
    rw [hlen, List.append_nil]

/-- A loop over a clipped range is the loop over the whole range when the clipped turns do nothing (rule R110; log 12). -/
theorem foldl_clipped {α : Type} (turn : α → Int → α) (limit : Nat)
    (hskip : ∀ acc (i : Int), ¬ (0 ≤ i ∧ i < limit) → turn acc i = acc) (a n : Int) (acc : α) :
    (clipped a n limit).foldl (fun acc (i : Nat) => turn acc i) acc =
      (List.range n.toNat).foldl (fun acc (i : Nat) => turn acc (a + i)) acc := by
  rcases le_total n 0 with hn | hn
  · rw [clipped_of_nonpos hn, Int.toNat_of_nonpos hn]
    rfl
  obtain ⟨n, rfl⟩ := Int.eq_ofNat_of_zero_le hn
  rw [Int.toNat_natCast]
  clear hn
  induction n with
  | zero => rw [Nat.cast_zero, clipped_of_nonpos le_rfl]; rfl
  | succ n ih =>
      rw [clipped_succ, List.foldl_append, ih, List.range_succ, List.foldl_append]
      split_ifs with hin
      · rw [List.foldl_cons, List.foldl_cons, Int.toNat_of_nonneg hin.1]
        rfl
      · exact (hskip _ _ hin).symm

/-- Settles O21: a column or a row outside the frame is a turn in which `setPixel` does nothing, in the inner loop and in
the outer one. -/
theorem fillRectIsThePixelLoop : Obligations.FillRectIsThePixelLoop := by
  intro w h m x y rw rh c
  have columns : ∀ (m : Memory) (py : Int),
      (clipped x rw w).foldl (fun m (px : Nat) => setPixel w h m px py c) m =
        (List.range rw.toNat).foldl (fun m (i : Nat) => setPixel w h m (x + i) py c) m := fun m py =>
    foldl_clipped (fun m px => setPixel w h m px py c) w
      (fun m px hpx => setPixel_of_not_inRange (fun ⟨hx, hxw, _⟩ => hpx ⟨hx, hxw⟩) m c) x rw m
  unfold fillRect
  simp only [columns]
  exact foldl_clipped (fun m py => (List.range rw.toNat).foldl (fun m (i : Nat) => setPixel w h m (x + i) py c) m) h
    (fun m py hpy => List.foldl_fixed' (fun i => setPixel_of_not_inRange (fun ⟨_, _, hy⟩ => hpy hy) m c) _) y rh m

/-! ## Lines -/

/-- Settles O23: the line in closed form is what the subroutine paints. -/
theorem drawLineDrawsTheBresenhamPixels : Obligations.DrawLineDrawsTheBresenhamPixels :=
  fun s x0 y0 x1 y1 c hd => ⟨_, rfl, draws_render hd 5 _ (paints_drawLine hd.2 s.fb x0 y0 x1 y1 c)⟩

theorem drawLine_horizontal (w h : Nat) (m : Memory) (x x' y : Int) (c : Color) :
    drawLine w h m x y x' y c = fillRect w h m (min x x') y ((x' - x).natAbs + 1) 1 c :=
  if_pos (sub_self y)

/-- The single point is a horizontal line to the subroutine; its rectangle is that of the vertical one. -/
theorem drawLine_vertical (w h : Nat) (m : Memory) (x y y' : Int) (c : Color) :
    drawLine w h m x y x y' c = fillRect w h m x (min y y') 1 ((y' - y).natAbs + 1) c := by
  rcases eq_or_ne y' y with rfl | hne
  · rw [drawLine_horizontal, min_self, min_self, sub_self, sub_self]
    rfl
  · exact (if_neg (sub_ne_zero.2 hne)).trans (if_pos (sub_self x))

/-- Settles O24: on an axis the two subroutines are one, so the commands agree in every state, a fault included. -/
theorem axisLinesAreRectangles : Obligations.AxisLinesAreRectangles := fun s x x' y y' c =>
  ⟨congrArg (fun paint => Host.Outcome.next (s.render 5 paint)) (funext fun m => drawLine_horizontal _ _ m x x' y c),
   congrArg (fun paint => Host.Outcome.next (s.render 5 paint)) (funext fun m => drawLine_vertical _ _ m x y y' c)⟩

/-- No step of the driving axis leads to no step of the cross axis. -/
theorem crossSteps_zero {a : Int} (ha : 0 ≤ a) (b : Int) : (0 * b + (a - 1 - a / 2)) / a = 0 := by
  rcases ha.eq_or_lt with rfl | ha
  · exact Int.ediv_zero _
  · exact Int.ediv_eq_zero_of_lt (by omega) (by omega)

/-- All the steps of the driving axis lead to all those of the cross axis. -/
theorem crossSteps_all {a b : Int} (hb : 0 ≤ b) (hba : b ≤ a) : (a * b + (a - 1 - a / 2)) / a = b := by
  rcases (hb.trans hba).eq_or_lt with rfl | ha
  · rw [Int.ediv_zero]
    omega
  · have hrest := crossSteps_zero ha.le b
    rw [zero_mul, zero_add] at hrest
    rw [add_comm, Int.add_mul_ediv_left _ _ ha.ne', hrest, zero_add]

theorem add_sign_mul_natAbs (a b : Int) : a + (b - a).sign * (b - a).natAbs = b := by
  rw [Int.sign_mul_natAbs, add_sub_cancel]

theorem onLine_start (x0 y0 x1 y1 : Int) : OnLine x0 y0 x1 y1 x0 y0 := by
  refine ⟨0, le_rfl, ?_⟩
  split_ifs with hd <;>
    rw [crossSteps_zero (Int.natCast_nonneg _), mul_zero, mul_zero, add_zero, add_zero] <;>
    exact ⟨Int.natCast_nonneg _, rfl, rfl⟩

theorem onLine_end (x0 y0 x1 y1 : Int) : OnLine x0 y0 x1 y1 x1 y1 := by
  unfold OnLine
  dsimp only
  split_ifs with hd
  · refine ⟨_, Int.natCast_nonneg (x1 - x0).natAbs, le_rfl, ?_, ?_⟩
    · rw [add_sign_mul_natAbs]
    · rw [crossSteps_all (Int.natCast_nonneg _) hd, add_sign_mul_natAbs]
  · refine ⟨_, Int.natCast_nonneg (y1 - y0).natAbs, le_rfl, ?_, ?_⟩
    · rw [add_sign_mul_natAbs]
    · rw [crossSteps_all (Int.natCast_nonneg _) (not_le.1 hd).le, add_sign_mul_natAbs]

/-- Settles O25: both end points lie on the line that is drawn. -/
theorem linesPlotBothEndPoints : Obligations.LinesPlotBothEndPoints := by
  intro s x0 y0 x1 y1 c hd
  obtain ⟨t, ht, hdraws⟩ := drawLineDrawsTheBresenhamPixels s x0 y0 x1 y1 c hd
  exact ⟨t, ht, fun hr => hdraws.pixelColor_of_mem hr (onLine_start x0 y0 x1 y1),
    fun hr => hdraws.pixelColor_of_mem hr (onLine_end x0 y0 x1 y1)⟩

/-! ## Circles -/

/-- The pixels of a circle in either mode (rule R116). -/
def InCircle (filled : Bool) (cx cy r px py : Int) : Prop :=
  if filled then InDisc cx cy r px py else OnCircle cx cy r px py

/-- With a framebuffer `draw_circle` completes with its set drawn (rules R116, R176). -/
theorem exec_drawCircle_draws {s : State} (hd : Drawable s) (cx cy r : Int) (c : Color) (filled : Bool) :
    ∃ t, exec (.drawCircle cx cy r c filled) s = .next t ∧
      Draws s t 4 fun px py c' => InCircle filled cx cy r px py ∧ c' = c :=
  ⟨_, rfl, draws_render hd 4 _ (paints_drawCircle hd.2 s.fb cx cy r c filled)⟩

/-- Settles O26: the set of either mode is that of the walk's points or spans. -/
theorem drawCircleDrawsTheMidpointWalk : Obligations.DrawCircleDrawsTheMidpointWalk :=
  fun _ cx cy r c filled hd => exec_drawCircle_draws hd cx cy r c filled

section Circle

variable {cx cy r px py : Int}

/-- A point of the outline is the end of a span of the disc. -/
theorem OnCircle.inDisc (h : OnCircle cx cy r px py) : InDisc cx cy r px py := by
  obtain ⟨x, y, d, hv, hp⟩ := h
  exact ⟨x, y, d, hv, hp.imp (And.imp_left le_of_eq) (And.imp_left le_of_eq)⟩

theorem InDisc.within_radius (h : InDisc cx cy r px py) : ((px - cx).natAbs : Int) ≤ r ∧ ((py - cy).natAbs : Int) ≤ r := by
  obtain ⟨x, y, d, hv, hp⟩ := h
  have hb := hv.bounds
  omega

/-- The walk begins at the extreme points, also for radius 0 (rule R115). -/
theorem onCircle_extreme (hr : 0 ≤ r)
    (h : ((px - cx).natAbs : Int) = r ∧ py = cy ∨ px = cx ∧ ((py - cy).natAbs : Int) = r) : OnCircle cx cy r px py :=
  ⟨r, 0, _, .start hr, by omega⟩

/-! The walk visits every coordinate between 0 and the radius, and that makes the disc symmetric in its diagonals. -/

/-- Every row up to a visited one was visited, no nearer to the center. -/
theorem CircleVisits.earlier {x y d : Int} (hv : CircleVisits r x y d) {k : Int} (hk0 : 0 ≤ k) (hk : k ≤ y) :
    ∃ x' d', CircleVisits r x' k d' ∧ x ≤ x' := by
  induction hv with
  | start hr =>
      obtain rfl : k = 0 := le_antisymm hk hk0
      exact ⟨r, _, .start hr, le_rfl⟩
  | @straight x y d hv hd hxy ih =>
      rcases hk.eq_or_lt with rfl | hlt
      · exact ⟨x, _, .straight hv hd hxy, le_rfl⟩
      · exact ih (by omega)
  | @inward x y d hv hd hxy ih =>
      rcases hk.eq_or_lt with rfl | hlt
      · exact ⟨x - 1, _, .inward hv hd hxy, le_rfl⟩
      · obtain ⟨x', d', hv', hx'⟩ := ih (by omega)
        exact ⟨x', d', hv', by omega⟩

/-- Every number between the coordinates of a visited point is a coordinate of that point or of a later one: the two
coordinates approach each other by at most 1 each. -/
theorem CircleVisits.between {x y d : Int} (hv : CircleVisits r x y d) {k : Int} (hyk : y ≤ k) (hkx : k ≤ x) :
    ∃ x' y' d', CircleVisits r x' y' d' ∧ y ≤ y' ∧ (k = y' ∨ k = x') := by
  by_cases here : k = y ∨ k = x
  · exact ⟨x, y, d, hv, le_rfl, here⟩
  rcases lt_or_ge d 0 with hd | hd
  · obtain ⟨x', y', d', hv', hy', hk'⟩ :=
      (CircleVisits.straight hv hd (by omega)).between (k := k) (by omega) (by omega)
    exact ⟨x', y', d', hv', by omega, hk'⟩
  · obtain ⟨x', y', d', hv', hy', hk'⟩ :=
      (CircleVisits.inward hv hd (by omega)).between (k := k) (by omega) (by omega)
    exact ⟨x', y', d', hv', by omega, hk'⟩
termination_by (x - y).toNat

/-- A point in a span of the walk has its image under the exchange of the coordinates in a span of the walk. -/
theorem CircleVisits.span_swap {x y d : Int} (hv : CircleVisits r x y d) {a b : Nat}
    (h : (a ≤ x ∧ b = y) ∨ (a ≤ y ∧ b = x)) :
    ∃ x' y' d', CircleVisits r x' y' d' ∧ ((b ≤ x' ∧ a = y') ∨ (b ≤ y' ∧ a = x')) := by
  have hb := hv.bounds
  rcases le_or_gt (a : Int) y with hay | hya
  · obtain ⟨x', d', hv', hx'⟩ := hv.earlier (Int.natCast_nonneg a) hay
    exact ⟨x', a, d', hv', .inl ⟨by omega, rfl⟩⟩
  · obtain ⟨x', y', d', hv', hy', hk⟩ := hv.between hya.le (by omega)
    have hb' := hv'.bounds
    exact ⟨x', y', d', hv', by omega⟩

end Circle

/-- The symmetries of the square keep the distances along the axes, or exchange them. -/
theorem natAbs_of_mem_squareImages {dx dy ex ey : Int} (h : (ex, ey) ∈ squareImages dx dy) :
    (ex.natAbs = dx.natAbs ∧ ey.natAbs = dy.natAbs) ∨ (ex.natAbs = dy.natAbs ∧ ey.natAbs = dx.natAbs) := by
  simp only [squareImages, List.mem_cons, Prod.mk.injEq, List.not_mem_nil, or_false] at h
  omega

theorem mem_squareImages_symm {dx dy ex ey : Int} (h : (ex, ey) ∈ squareImages dx dy) :
    (dx, dy) ∈ squareImages ex ey := by
  simp only [squareImages, List.mem_cons, Prod.mk.injEq, List.not_mem_nil, or_false] at h
  rcases h with h | h | h | h | h | h | h | h <;> obtain ⟨rfl, rfl⟩ := h <;> simp [squareImages]

section Symmetry

variable {cx cy r dx dy ex ey : Int}

/-- The outline's points are worded by the two distances, in either order (rule R117). -/
theorem OnCircle.image (h : OnCircle cx cy r (cx + dx) (cy + dy)) (he : (ex, ey) ∈ squareImages dx dy) :
    OnCircle cx cy r (cx + ex) (cy + ey) := by
  obtain ⟨x, y, d, hv, hp⟩ := h
  have habs := natAbs_of_mem_squareImages he
  rw [add_sub_cancel_left, add_sub_cancel_left] at hp
  refine ⟨x, y, d, hv, ?_⟩
  rw [add_sub_cancel_left, add_sub_cancel_left]
  omega

/-- The disc's spans are all horizontal: an image that exchanges the coordinates lies in the span of another visited
point. -/
theorem InDisc.image (h : InDisc cx cy r (cx + dx) (cy + dy)) (he : (ex, ey) ∈ squareImages dx dy) :
    InDisc cx cy r (cx + ex) (cy + ey) := by
  obtain ⟨x, y, d, hv, hp⟩ := h
  unfold InDisc
  rw [add_sub_cancel_left, add_sub_cancel_left] at hp ⊢
  rcases natAbs_of_mem_squareImages he with ⟨hx, hy⟩ | ⟨hx, hy⟩ <;> rw [hx, hy]
  · exact ⟨x, y, d, hv, hp⟩
  · exact hv.span_swap hp

end Symmetry

/-- A pixel is drawn exactly when its image is (rule R119 (a)). -/
theorem inCircle_image_iff {filled : Bool} {cx cy r dx dy ex ey : Int} (he : (ex, ey) ∈ squareImages dx dy) :
    InCircle filled cx cy r (cx + ex) (cy + ey) ↔ InCircle filled cx cy r (cx + dx) (cy + dy) := by
  have hd := mem_squareImages_symm he
  cases filled
  · exact ⟨fun h => OnCircle.image h hd, fun h => OnCircle.image h he⟩
  · exact ⟨fun h => InDisc.image h hd, fun h => InDisc.image h he⟩

/-- Up to radius 0 the walk visits the center alone, and it begins only at radius 0 (rule R116). -/
theorem inCircle_iff_of_nonpos {cx cy r : Int} (hr : r ≤ 0) (filled : Bool) (px py : Int) :
    InCircle filled cx cy r px py ↔ r = 0 ∧ px = cx ∧ py = cy := by
  have center : InDisc cx cy r px py → r = 0 ∧ px = cx ∧ py = cy := fun h => by
    have := h.within_radius
    omega
  have drawn : r = 0 ∧ px = cx ∧ py = cy → OnCircle cx cy r px py := fun h =>
    onCircle_extreme (by omega) (by omega)
  cases filled
  · exact ⟨fun h => center (OnCircle.inDisc h), drawn⟩
  · exact ⟨center, fun h => (drawn h).inDisc⟩

/-- Settles O27: the set of such a circle is the center or empty. -/
theorem smallCirclesDrawOnePixelOrNone : Obligations.SmallCirclesDrawOnePixelOrNone := by
  intro s cx cy r c filled hd hr
  obtain ⟨t, ht, hdraws⟩ := exec_drawCircle_draws hd cx cy r c filled
  exact ⟨t, ht, by simpa only [inCircle_iff_of_nonpos hr, and_assoc] using hdraws⟩

/-- Settles O28: a pixel and its image are both drawn, or both of the other color. -/
theorem circlesAreSymmetric : Obligations.CirclesAreSymmetric := by
  intro s cx cy r c filled hd hother
  obtain ⟨t, ht, hdraws⟩ := exec_drawCircle_draws hd cx cy r c filled
  refine ⟨t, ht, fun dx dy ex ey he hrd hre => ?_⟩
  by_cases hp : InCircle filled cx cy r (cx + dx) (cy + dy)
  · rw [hdraws.pixelColor_of_mem hrd hp, hdraws.pixelColor_of_mem hre ((inCircle_image_iff he).2 hp)]
  · rw [hdraws.pixelColor_of_not_mem hrd hp, hdraws.pixelColor_of_not_mem hre (mt (inCircle_image_iff he).1 hp),
      hother _ _ hrd, hother _ _ hre]

/-- Settles O29: outline and disc are the sets drawn, the one in the other and both within the radius. -/
theorem discContainsOutlineWithinTheRadius : Obligations.DiscContainsOutlineWithinTheRadius := by
  intro s cx cy r c hd
  obtain ⟨t, ht, houtline⟩ := exec_drawCircle_draws hd cx cy r c false
  obtain ⟨u, hu, hdisc⟩ := exec_drawCircle_draws hd cx cy r c true
  refine ⟨t, u, ht, hu, fun x y hr hne => ?_, fun x y hr hfar => ?_, fun hpos x y hr hp => ?_⟩
  · by_cases hp : OnCircle cx cy r x y
    · exact hdisc.pixelColor_of_mem hr hp.inDisc
    · exact absurd (houtline.pixelColor_of_not_mem hr hp) hne
  · have hout : ¬ InDisc cx cy r x y := fun hp => by
      have := hp.within_radius
      omega
    exact ⟨houtline.pixelColor_of_not_mem hr fun hp => hout hp.inDisc, hdisc.pixelColor_of_not_mem hr hout⟩
  · exact houtline.pixelColor_of_mem hr (onCircle_extreme (by omega) hp)

end Sys2Proof.Machine
end

section
/-! SUPPORT. The text commands: the cells they draw, scale 1 as plain text, and white text as the complement of black
(rules R131 to R135). -/

namespace Sys2Proof.Machine

/-! ## The text command's state -/

/-- With a well-formed answer a text command is a plain rendering command (rules R133, R136). -/
theorem State.renderText_of_wf {s : State} {font : Int} {chars : List Word}
    (hwf : AnswerWellFormed chars.length (s.glyphAnswer font chars)) (len : Nat) (paint : GlyphAnswer → Memory → Memory) :
    s.renderText len font chars paint = s.render len (paint (s.glyphAnswer font chars)) := by
  unfold State.renderText
  rw [(glyphAnswerWf_iff _ _).2 hwf, Bool.not_true, Bool.and_false]
  exact if_neg Bool.false_ne_true

/-- A text command whose subroutine paints `p` draws `p`. -/
theorem draws_renderText {s : State} (hd : Drawable s) {font : Int} {chars : List Word}
    (hwf : AnswerWellFormed chars.length (s.glyphAnswer font chars)) (len : Nat) (paint : GlyphAnswer → Memory → Memory)
    {p : Int → Int → Color → Prop}
    (hp : Paints s.width s.height s.fb (paint (s.glyphAnswer font chars) s.fb) p) :
    Draws s (s.renderText len font chars paint) len p := by
  rw [State.renderText_of_wf hwf]
  exact draws_render hd len _ hp

/-- A text command leaves either the framebuffer memory it found, when it faults, or what its subroutine makes of it: its
length in words plays no part. -/
theorem State.renderText_fb (s : State) (len : Nat) (font : Int) (chars : List Word)
    (paint : GlyphAnswer → Memory → Memory) :
    (s.renderText len font chars paint).fb =
      if s.fbValid && glyphAnswerWf chars.length (s.glyphAnswer font chars) then
        paint (s.glyphAnswer font chars) s.fb
      else s.fb := by
  unfold State.renderText
  cases hv : s.fbValid with
  | false =>
    rw [State.render_invalid hv]
    rfl
  | true =>
    cases glyphAnswerWf chars.length (s.glyphAnswer font chars) with
    | false => rfl
    | true => exact congrArg State.fb (State.render_valid hv len _)

/-! ## Cells -/

theorem AnswerWellFormed.width_nonneg {n : Nat} {a : GlyphAnswer} (h : AnswerWellFormed n a) :
    ∀ g ∈ a.glyphs, 0 ≤ g.width := by
  obtain ⟨-, -, hrecords⟩ := h
  exact fun g hg => (hrecords g hg).1

/-- A pixel lies in a text's cell only when the scale is positive: the block of a logical pixel is `scale` wide
(rule R134). -/
theorem InText.scale_pos {answer : GlyphAnswer} {x y scale : Int} {color : Color} {px py : Int} {c : Color}
    (h : InText answer x y scale color px py c) : 0 < scale := by
  obtain ⟨i, g, row, col, -, -, -, -, -, hleft, hright, -⟩ := h
  linarith

/-- The complement's text has the same cells, each pixel in the other color (rule R133). -/
theorem InText.complement {answer : GlyphAnswer} {x y scale : Int} {color : Color} {px py : Int} {c : Color}
    (h : InText answer x y scale color px py c) :
    InText answer x y scale (otherColor color) px py (otherColor c) := by
  obtain ⟨i, g, row, col, hg, hrow, hrow', hcol, hcol', hleft, hright, htop, hbottom, hc⟩ := h
  refine ⟨i, g, row, col, hg, hrow, hrow', hcol, hcol', hleft, hright, htop, hbottom, ?_⟩
  rw [hc]
  exact apply_ite otherColor _ _ _

/-- With a framebuffer and a well-formed answer `draw_text` completes with the text's cells drawn (rule R133). -/
theorem exec_drawText_draws {s : State} (hd : Drawable s) (x y : Int) {font : Int} {chars : List Word} (c : Color)
    (hwf : AnswerWellFormed chars.length (s.glyphAnswer font chars)) :
    ∃ t, exec (.drawText x y font chars c) s = .next t ∧
      Draws s t (5 + chars.length) (InText (s.glyphAnswer font chars) x y 1 c) :=
  ⟨_, rfl, draws_renderText hd hwf _ _ (paints_drawText hd.2 s.fb x y _ c hwf.1 hwf.width_nonneg)⟩

/-- Settles O30: the cells at scale 1 are what the subroutine paints. -/
theorem drawTextDrawsOpaqueCells : Obligations.DrawTextDrawsOpaqueCells :=
  fun _ x y _ _ c hd hwf => exec_drawText_draws hd x y c hwf

/-- With a framebuffer and a well-formed answer `draw_text_scaled` completes with the text's blocks drawn (rule R134). -/
theorem exec_drawTextScaled_draws {s : State} (hd : Drawable s) (x y : Int) {font : Int} (scale : Int) {chars : List Word}
    (c : Color) (hwf : AnswerWellFormed chars.length (s.glyphAnswer font chars)) :
    ∃ t, exec (.drawTextScaled x y font scale chars c) s = .next t ∧
      Draws s t (6 + chars.length) (InText (s.glyphAnswer font chars) x y scale c) :=
  ⟨_, rfl, draws_renderText hd hwf _ _ (paints_drawTextScaled hd.2 s.fb x y _ c scale hwf.1 hwf.width_nonneg)⟩

/-- Settles O31: the blocks are what the subroutine paints, and with `scale <= 0` no block holds a pixel. -/
theorem drawTextScaledDrawsBlocks : Obligations.DrawTextScaledDrawsBlocks := by
  intro s x y font scale chars c hd hwf
  obtain ⟨t, ht, hdraws⟩ := exec_drawTextScaled_draws hd x y scale c hwf
  have ⟨_, _, _, hbytes⟩ := hdraws
  exact ⟨t, ht, hdraws, fun hscale a => hbytes a fun _ _ _ _ hp => absurd hp.scale_pos (not_lt.2 hscale)⟩

/-! ## Scale 1 -/

/-- The rectangle of one pixel is that pixel (rule R110). -/
theorem fillRect_one_one (w h : Nat) (m : Memory) (x y : Int) (c : Color) :
    fillRect w h m x y 1 1 c = setPixel w h m x y c := by
  rw [fillRectIsThePixelLoop w h m x y 1 1 c]
  show setPixel w h m (x + 0) (y + 0) c = _
  rw [add_zero, add_zero]

/-- At scale 1 the block of a logical pixel is one pixel, so both subroutines draw each of them alike (rule R135 (a)). -/
theorem drawTextScaled_one (w h : Nat) (m : Memory) (x y : Int) (answer : GlyphAnswer) (c : Color) :
    drawTextScaled w h m x y answer c 1 = drawText w h m x y answer c := by
  unfold drawTextScaled drawText
  simp only [mul_one, fillRect_one_one]

/-- Settles O32: the two commands fault together, and else their subroutines are one. -/
theorem scaleOneTextIsPlainText : Obligations.ScaleOneTextIsPlainText := by
  intro s x y font chars c
  refine ⟨_, _, rfl, rfl, ?_⟩
  rw [State.renderText_fb, State.renderText_fb, drawTextScaled_one]

/-! ## White and black -/

/-- Settles O33: white text has the cells of black text in the other color. -/
theorem whiteTextComplementsBlackText : Obligations.WhiteTextComplementsBlackText := by
  intro s x y font chars hd hwf
  obtain ⟨t, ht, -, hblack, -⟩ := exec_drawText_draws hd x y .black hwf
  obtain ⟨u, hu, -, hwhite, -⟩ := exec_drawText_draws hd x y .white hwf
  refine ⟨t, u, ht, hu, fun px py hr ⟨c, hc⟩ => ?_⟩
  rw [hblack px py c hr hc]
  exact hwhite px py (otherColor c) hr hc.complement

end Sys2Proof.Machine
end

section
/-! SUPPORT. The module grid command: a cell drawn is a pixel read back (rules R140 to R143). -/

namespace Sys2Proof.Machine

/-- With a payload that is large enough the module grid command is a plain rendering command (rule R142). -/
theorem exec_drawModuleGrid_of_sized {sideN : Int} {bits : List Byte}
    (hsize : 0 < sideN → sideN * sideN ≤ 8 * bits.length) (s : State) (x y modulePx : Int) :
    exec (.drawModuleGrid x y modulePx sideN bits) s =
      .next (s.render (6 + (bits.length + 3) / 4) fun m =>
        drawModuleGrid s.width s.height m x y modulePx sideN.toNat bits) := by
  refine congrArg Host.Outcome.next (if_neg fun hbad => ?_)
  rw [Bool.and_eq_true, gridUndersized_iff] at hbad
  obtain ⟨-, hpos, hshort⟩ := hbad
  exact absurd (hsize hpos) (not_le.2 hshort)

/-- A grid whose side is not positive has no cell, as the empty grid has none. -/
theorem inGrid_toNat {bits : List Byte} {x y modulePx sideN px py : Int} {c : Color} :
    InGrid bits x y modulePx sideN.toNat px py c ↔ InGrid bits x y modulePx sideN px py c := by
  rcases le_total 0 sideN with hside | hside
  · rw [Int.toNat_of_nonneg hside]
  · have empty : ∀ n : Int, n ≤ 0 → ¬ InGrid bits x y modulePx n px py c :=
      fun n hn ⟨mx, _, hmx, hmx', _⟩ => by omega
    exact iff_of_false (empty _ (by omega)) (empty _ hside)

/-- Settles O34: the cells are what the subroutine paints, and a payload that is large enough raises no fault. -/
theorem drawModuleGridDrawsItsCells : Obligations.DrawModuleGridDrawsItsCells :=
  fun s x y modulePx sideN bits hd hsize => ⟨_, exec_drawModuleGrid_of_sized hsize s x y modulePx,
    draws_render hd _ _ ((paints_drawModuleGrid hd.2 s.fb x y modulePx sideN.toNat bits).congr
      fun _ _ _ _ => inGrid_toNat)⟩

section Drawn

variable {s t : State} {len : Nat} {painted : Int → Int → Color → Prop} {x y : Int} {c : Color}

/-- A rendering command leaves the geometry and `FB_VALID` (rule R32). -/
theorem Draws.geometry (h : Draws s t len painted) :
    t.width = s.width ∧ t.height = s.height ∧ t.fbValid = s.fbValid := by
  obtain ⟨ht, -⟩ := h
  rw [ht]
  exact ⟨rfl, rfl, rfl⟩

/-- After a rendering command `get_pixel` reads an in-range pixel that was drawn in the color drawn (rule R102). -/
theorem Draws.exec_getPixel_drawn (h : Draws s t len painted) (hv : s.fbValid = true) (hr : InFrame s x y)
    (hp : painted x y c) : ∃ u, exec (.getPixel x y) t = .next u ∧ u.res = some c := by
  obtain ⟨hwidth, hheight, hvalid⟩ := h.geometry
  obtain ⟨-, hdrawn, -, -⟩ := h
  have hrange : inRange t.width t.height x y := by
    rw [hwidth, hheight]
    exact hr
  refine ⟨_, exec_getPixel (hvalid.trans hv) x y, ?_⟩
  calc getPixel t.width t.height t.fb x y
      = some (pixelColor t x y) := getPixel_of_inRange hrange t.fb
    _ = some c := congrArg some (hdrawn x y c hr hp)

end Drawn

/-- Settles O35: a pixel of the block is one that the grid draws, and `get_pixel` reads what was drawn. -/
theorem moduleGridRoundTrips : Obligations.ModuleGridRoundTrips := by
  intro s x y modulePx sideN mx my bits px py hd _ hsize hmx hmx' hmy hmy' hleft hright htop hbottom hr
  obtain ⟨t, ht, hdraws⟩ := drawModuleGridDrawsItsCells s x y modulePx sideN bits hd fun _ => hsize
  obtain ⟨u, hu, hres⟩ := hdraws.exec_getPixel_drawn hd.1 hr
    ⟨mx, my, hmx, hmx', hmy, hmy', hleft, hright, htop, hbottom, rfl⟩
  exact ⟨t, u, ht, hu, hres⟩

end Sys2Proof.Machine
end

section
/-! SUPPORT. Chip-select windows: every transaction of the unit is one, so that what the panel and the lines see of a
window is said once (rules R150, R154, R158). -/

namespace Sys2Proof.Machine

/-- The events of one chip-select window with the mode line at `mode`: one bus write each. `commandEvents` and
`chunkedEvents` are windows as they stand (rules R151, R153). -/
def windowEvents (mode : DcLevel) (writes : List (List Byte)) : List Event :=
  [.pinDc mode, .pinCs .asserted] ++ writes.map .bus ++ [.pinCs .deasserted]

theorem dataEvents_eq_windowEvents (bytes : List Byte) :
    dataEvents bytes = windowEvents .data (if bytes = [] then [] else [bytes]) := by
  cases bytes <;> rfl

theorem panelCmdTrace_eq_windowEvents (op : Byte) (payload : List Byte) :
    panelCmdTrace op payload =
      windowEvents .command [[op]] ++ if payload = [] then [] else windowEvents .data [payload] := rfl

theorem planeTrace_eq_windowEvents (op : Byte) {plane : List Byte} (h : plane.length = 4736) :
    planeTrace op plane = windowEvents .command [[op]] ++ windowEvents .data (chunksOf 1024 plane) :=
  (planeEvents_eq op h).symm

/-! ## The lines -/

@[simp] theorem csAfter_windowEvents (level : CsLevel) (mode : DcLevel) (writes : List (List Byte)) :
    csAfter level (windowEvents mode writes) = .deasserted := by
  rw [windowEvents, csAfter_append]
  rfl

@[simp] theorem dcAfter_windowEvents (level mode : DcLevel) (writes : List (List Byte)) :
    dcAfter level (windowEvents mode writes) = mode := by
  rw [windowEvents, dcAfter_append, dcAfter_append, dcAfter, dcAfter, List.foldl_map]
  exact List.foldl_fixed writes

@[simp] theorem rstAfter_windowEvents (level : PinLevel) (mode : DcLevel) (writes : List (List Byte)) :
    rstAfter level (windowEvents mode writes) = level := by
  rw [windowEvents, rstAfter_append, rstAfter_append, rstAfter, rstAfter, List.foldl_map]
  exact List.foldl_fixed writes

/-- A command that sends one window leaves the mode line where the window drove it and chip-select deasserted, and
completes (rules R24, R150). -/
theorem State.emitAll_windowEvents_complete (s : State) (mode : DcLevel) (writes : List (List Byte)) (len : Nat) :
    (s.emitAll (windowEvents mode writes)).complete len =
      { s with
        dc := mode
        cs := .deasserted
        trace := s.trace ++ windowEvents mode writes
        cp := s.cp + len
        wait := none } := by
  rw [State.emitAll_eq, csAfter_windowEvents, dcAfter_windowEvents, rstAfter_windowEvents]
  rfl

/-! ## The wire view -/

theorem wireFrom_bus_append (mode : DcLevel) (t : Transaction) (writes : List (List Byte)) (es : List Event) :
    wireFrom mode (some t) (writes.map .bus ++ es) = wireFrom mode (some ⟨t.mode, t.bytes ++ writes.flatten⟩) es := by
  induction writes generalizing t with
  | nil => simp
  | cons bytes writes ih => simp [wireFrom, ih]

/-- The panel sees a window as one transaction, however many writes its bytes came in (rule R154). -/
theorem wire_windowEvents_append (level mode : DcLevel) (writes : List (List Byte)) (es : List Event) :
    wire level (windowEvents mode writes ++ es) = ⟨mode, writes.flatten⟩ :: wire mode es := by
  simp only [windowEvents, List.append_assoc]
  exact wireFrom_bus_append mode ⟨mode, []⟩ writes _

theorem wire_windowEvents (level mode : DcLevel) (writes : List (List Byte)) :
    wire level (windowEvents mode writes) = [⟨mode, writes.flatten⟩] := by
  rw [← List.append_nil (windowEvents mode writes), wire_windowEvents_append]
  rfl

theorem bus_mem_windowEvents {mode : DcLevel} {writes : List (List Byte)} {bytes : List Byte} :
    Event.bus bytes ∈ windowEvents mode writes ↔ bytes ∈ writes := by
  simp [windowEvents]

/-! ## Framing -/

theorem framed_windowEvents (mode : DcLevel) {writes : List (List Byte)} (h : ∀ bytes ∈ writes, bytes ≠ []) :
    framed false (windowEvents mode writes) = true := by
  suffices hw : framed true (writes.map .bus ++ [.pinCs .deasserted]) = true from hw
  induction writes with
  | nil => rfl
  | cons bytes writes ih =>
    obtain ⟨hbytes, hrest⟩ := List.forall_mem_cons.1 h
    simpa [framed, hbytes] using ih hrest

/-- After framed events no window is open, so what follows them is framed for itself. -/
theorem framed_append {inside : Bool} {es : List Event} (h : framed inside es = true) (fs : List Event) :
    framed inside (es ++ fs) = framed false fs := by
  fun_induction framed inside es <;> simp_all [framed]

/-- Framed events leave chip-select deasserted. -/
theorem csAfter_of_framed {inside : Bool} {es : List Event} (h : framed inside es = true) :
    csAfter (if inside then .asserted else .deasserted) es = .deasserted := by
  fun_induction framed inside es <;> simp_all [csAfter]

end Sys2Proof.Machine
end

section
/-! SUPPORT. The send commands, and the chunks of a payload (rules R151 to R154). -/

namespace Sys2Proof.Machine

/-- Settles O36: the command is one window with one write. -/
theorem sendCommandFramesItsByte : Obligations.SendCommandFramesItsByte := fun s opcode =>
  congrArg Host.Outcome.next (s.emitAll_windowEvents_complete .command [[opcode]] 2)

/-- `send_data` is one window, with one write unless the payload is empty (rule R152). -/
theorem exec_sendData (s : State) (bytes : List Byte) :
    exec (.sendData bytes) s = .next { s with
      dc := .data
      cs := .deasserted
      trace := s.trace ++ windowEvents .data (if bytes = [] then [] else [bytes])
      cp := s.cp + (2 + (bytes.length + 3) / 4)
      wait := none } := by
  rw [← State.emitAll_windowEvents_complete, ← dataEvents_eq_windowEvents]
  rfl

/-- Settles O37: the window's events, for an empty payload and for one that is not. -/
theorem sendDataFramesThePayload : Obligations.SendDataFramesThePayload := by
  intro s bytes
  cases bytes with
  | nil => exact exec_sendData s []
  | cons b bs => exact exec_sendData s (b :: bs)

/-! ## Chunks -/

theorem chunksUpTo_flatten {k : Nat} (hk : 0 < k) {turns : Nat} {bytes : List Byte} (h : bytes.length ≤ turns) :
    (chunksUpTo turns k bytes).flatten = bytes := by
  induction turns generalizing bytes with
  | zero => rw [List.length_eq_zero_iff.1 (Nat.le_zero.1 h)]; rfl
  | succ turns ih =>
    by_cases hb : bytes = []
    · rw [hb]; rfl
    · rw [chunksUpTo_of_ne_nil _ _ hb, List.flatten_cons, ih, List.take_append_drop]
      rw [List.length_drop]
      omega

/-- The `n`-th chunk is the slice at `n * k`, which begins before the payload ends (rule R153). -/
theorem chunksUpTo_getElem? {turns k n : Nat} {bytes c : List Byte} (h : (chunksUpTo turns k bytes)[n]? = some c) :
    n * k < bytes.length ∧ c = (bytes.drop (n * k)).take k := by
  induction turns generalizing n bytes with
  | zero => simp [chunksUpTo] at h
  | succ turns ih =>
    by_cases hb : bytes = []
    · simp [hb] at h
    · rw [chunksUpTo_of_ne_nil _ _ hb] at h
      cases n with
      | zero =>
        have := List.length_pos_of_ne_nil hb
        simp_all
      | succ n =>
        obtain ⟨hn, hc⟩ := ih h
        rw [List.length_drop] at hn
        rw [List.drop_drop] at hc
        rw [Nat.succ_mul, Nat.add_comm]
        exact ⟨by omega, hc⟩

theorem flatten_chunksOf {k : Nat} (hk : 0 < k) (bytes : List Byte) : (chunksOf k bytes).flatten = bytes :=
  chunksUpTo_flatten hk le_rfl

/-- Every chunk holds a byte, and `k` bytes at most. -/
theorem length_of_mem_chunksOf {k : Nat} (hk : 0 < k) {bytes c : List Byte} (hc : c ∈ chunksOf k bytes) :
    0 < c.length ∧ c.length ≤ k := by
  obtain ⟨n, hn⟩ := List.mem_iff_getElem?.1 hc
  obtain ⟨hstart, rfl⟩ := chunksUpTo_getElem? hn
  rw [List.length_take, List.length_drop]
  omega

/-- A chunk that another one follows holds `k` bytes. -/
theorem length_chunk_of_not_last {k n : Nat} {bytes c : List Byte} (hc : (chunksOf k bytes)[n]? = some c)
    (hlast : n + 1 < (chunksOf k bytes).length) : c.length = k := by
  obtain ⟨-, rfl⟩ := chunksUpTo_getElem? hc
  obtain ⟨hnext, -⟩ := chunksUpTo_getElem? (List.getElem?_eq_getElem hlast)
  rw [Nat.succ_mul] at hnext
  rw [List.length_take, List.length_drop]
  omega

/-- `send_data_chunked` with a positive chunk size is one window, with one write a chunk (rule R153). -/
theorem exec_sendDataChunked {k : Int} (hk : 0 < k) (s : State) (bytes : List Byte) :
    exec (.sendDataChunked k bytes) s = .next { s with
      dc := .data
      cs := .deasserted
      trace := s.trace ++ windowEvents .data (chunksOf k.toNat bytes)
      cp := s.cp + (3 + (bytes.length + 3) / 4)
      wait := none } := by
  rw [← State.emitAll_windowEvents_complete]
  exact congrArg Host.Outcome.next (if_neg (not_le.2 hk))

/-- Settles O38: the writes are the chunks. -/
theorem sendDataChunkedSendsMaximalChunks : Obligations.SendDataChunkedSendsMaximalChunks := by
  intro s k bytes hk
  have hk' : 0 < k.toNat := by omega
  refine ⟨_, _, exec_sendDataChunked hk s bytes, rfl, flatten_chunksOf hk' bytes, fun n c hc => ?_⟩
  obtain ⟨hpos, hle⟩ := length_of_mem_chunksOf hk' (List.mem_of_getElem? hc)
  refine ⟨hpos, by omega, fun hlast => ?_⟩
  rw [length_chunk_of_not_last hc hlast, Int.toNat_of_nonneg hk.le]

/-- Settles O39: both commands send one window, and its writes put together are the payload. -/
theorem chunksAreInvisibleOnTheWire : Obligations.ChunksAreInvisibleOnTheWire := by
  intro s k bytes hk
  refine ⟨_, _, _, _, exec_sendDataChunked hk s bytes, rfl, exec_sendData s bytes, rfl, ?_, ?_⟩
  · rw [wire_windowEvents, flatten_chunksOf (by omega)]
  · rw [wire_windowEvents]
    split_ifs with hempty <;> simp [hempty]

end Sys2Proof.Machine
end

section
/-! SUPPORT. One poll of a waiting command, and a whole wait (rules R155 to R157; log 3). -/

namespace Sys2Proof.Machine

theorem timedOut_eq_false {p : Platform} {polls : Nat}
    (h : ∀ limit, p.busyTimeoutPolls = some limit → polls < limit) : timedOut p polls = false := by
  unfold timedOut
  split
  case h_1 => rfl
  case h_2 limit hlimit => exact decide_eq_false (not_le.2 (h limit hlimit))

theorem timedOut_eq_true {p : Platform} {limit : Nat} (h : p.busyTimeoutPolls = some limit) :
    timedOut p limit = true := by
  simp [timedOut, h]

section AtWait

variable {i : Instr} {s u : State} {n : Nat} {rest : List PinLevel} (hi : commandWaits i = true) (hu : AtWait i s u)

include hi hu in
/-- A command that has come to its wait polls, and on `High` does its last part and completes. -/
theorem AtWait.exec_eq : exec i s = .next (u.pollBusy fun v => (afterWait i v).complete i.lengthWords) := by
  obtain ⟨check, hcheck, heq⟩ := exec_eq_waitBetween hi s
  rw [heq]
  rcases hu with ⟨hw, rfl⟩ | ⟨hw, hentry, rfl⟩
  · obtain ⟨n, hn⟩ := Option.ne_none_iff_exists'.1 hw
    rw [State.waitBetween_waiting hn]
  · rw [raisesAtEntry_unique hcheck hentry, State.waitBetween_begins hw]

include hu

/-- What a poll that reads the next input leaves. -/
theorem AtWait.polled_eq {level : PinLevel} (hbusy : s.env.busyIn = level :: rest) :
    u.polled = { u with
      trace := u.trace ++ [.sleep s.env.platform.pollMs, .busyRead level]
      env := { s.env with busyIn := rest, busyReads := s.env.busyReads + 1 } } := by
  have hread : u.env.busyIn = level :: rest := by rw [hu.env, hbusy]
  rw [State.polled_eq, State.busyLevel_cons hread, hu.env, hbusy, List.tail_cons]

include hi

/-- A poll that reads `Low` below the bound keeps the command waiting (rule R155). -/
theorem AtWait.exec_low (hn : s.wait.getD 0 = n) (hbusy : s.env.busyIn = .low :: rest)
    (hbound : ∀ limit, s.env.platform.busyTimeoutPolls = some limit → n + 1 < limit) :
    exec i s = .next { u.polled with wait := some (n + 1) } := by
  have hlow := (State.busyLevel_congr hu.env).trans (State.busyLevel_cons hbusy)
  rw [hu.exec_eq hi, State.pollBusy_low hlow, hu.env, hu.wait, hn, timedOut_eq_false hbound]
  rfl

/-- A poll that reads `Low` and reaches the bound raises `PanelUnresponsive` (rule R157). -/
theorem AtWait.exec_timeout (hn : s.wait.getD 0 = n) (hbusy : s.env.busyIn = .low :: rest)
    (hbound : s.env.platform.busyTimeoutPolls = some (n + 1)) :
    exec i s = .next (u.polled.raise .panelUnresponsive) := by
  have hlow := (State.busyLevel_congr hu.env).trans (State.busyLevel_cons hbusy)
  rw [hu.exec_eq hi, State.pollBusy_low hlow, hu.env, hu.wait, hn, timedOut_eq_true hbound]
  rfl

/-- A poll that reads `High` ends the wait (rule R155). -/
theorem AtWait.exec_high (hbusy : s.env.busyIn = .high :: rest) :
    exec i s = .next ((afterWait i u.polled).complete i.lengthWords) := by
  have hhigh := (State.busyLevel_congr hu.env).trans (State.busyLevel_cons hbusy)
  rw [hu.exec_eq hi, State.pollBusy_high hhigh]

end AtWait

/-- The premise of the statements about one poll: the command is inside its wait, or it begins, its entry tests passed. -/
theorem atWait_of_polls {i : Instr} {s u : State} {n : Nat}
    (h : s.wait = some n ∧ u = s ∨ s.wait = none ∧ n = 0 ∧ RaisesAtEntry s i .noFault ∧ u = beforeWait i s) :
    AtWait i s u ∧ s.wait.getD 0 = n := by
  rcases h with ⟨hw, hu⟩ | ⟨hw, rfl, hentry, hu⟩
  · exact ⟨.inl ⟨by simp [hw], hu⟩, by rw [hw]; rfl⟩
  · exact ⟨.inr ⟨hw, hentry, hu⟩, by rw [hw]; rfl⟩

/-- Settles O41: the poll reads `Low` and the bound is not reached. -/
theorem lowReadsKeepTheCommandWaiting : Obligations.LowReadsKeepTheCommandWaiting := by
  intro i s u n rest hi hpolls hbound hbusy
  obtain ⟨hu, hn⟩ := atWait_of_polls hpolls
  rw [hu.exec_low hi hn hbusy hbound, hu.polled_eq hbusy]

/-- Settles O42: the poll reads `Low` and reaches the bound. -/
theorem timeoutRaisesPanelUnresponsive : Obligations.TimeoutRaisesPanelUnresponsive := by
  intro i s u n rest hi hpolls hbound hbusy
  obtain ⟨hu, hn⟩ := atWait_of_polls hpolls
  rw [hu.exec_timeout hi hn hbusy hbound, hu.polled_eq hbusy]
  rfl

/-! ## A whole wait -/

/-- What `n` reads of `Low` and one of `High` leave of the state in which the wait began. -/
def State.waited (u : State) (n : Nat) (rest : List PinLevel) : State :=
  { u with
    trace := u.trace ++ pollEvents u.env.platform.pollMs n
    wait := none
    env := { u.env with busyIn := rest, busyReads := u.env.busyReads + (n + 1) } }

/-- Completing forgets the count of a wait. -/
theorem afterWait_complete_eq (i : Instr) (v : State) (len : Nat) :
    (afterWait i v).complete len = (afterWait i { v with wait := none }).complete len := by
  simp only [afterWait, State.emitAll_eq, State.complete]

/-- A first `Low` read and then a wait that began after it make one wait. -/
theorem AtWait.waited_succ {i : Instr} {s u : State} (hu : AtWait i s u) {m n : Nat} {rest rest' : List PinLevel}
    (hbusy : s.env.busyIn = .low :: rest') :
    State.waited { u.polled with wait := some m } n rest = u.waited (n + 1) rest := by
  rw [hu.polled_eq hbusy, State.waited, State.waited, hu.env, pollEvents]
  simp [Nat.add_comm, Nat.add_left_comm]

/-- A command that comes to its wait and reads `Low` `n` times below the bound and then `High` completes. -/
theorem AtWait.execTimes_eq {i : Instr} {s u : State} {m n : Nat} {rest : List PinLevel} (hi : commandWaits i = true)
    (hu : AtWait i s u) (hm : s.wait.getD 0 = m)
    (hbound : ∀ limit, s.env.platform.busyTimeoutPolls = some limit → m + n < limit)
    (hbusy : s.env.busyIn = List.replicate n .low ++ .high :: rest) :
    execTimes i (n + 1) s = .next ((afterWait i (u.waited n rest)).complete i.lengthWords) := by
  induction n generalizing s u m with
  | zero =>
    rw [execTimes, hu.exec_high hi hbusy, hu.polled_eq hbusy, afterWait_complete_eq, State.waited, hu.env]
    rfl
  | succ n ih =>
    have hlow := hu.exec_low hi hm hbusy fun limit hlimit => by have := hbound limit hlimit; omega
    have henv : u.polled.env = _ := congrArg State.env (hu.polled_eq hbusy)
    have hnext := ih (s := { u.polled with wait := some (m + 1) }) (m := m + 1) (.inl ⟨nofun, rfl⟩) rfl
      (fun limit hlimit => ?_) (congrArg Environment.busyIn henv)
    · rw [execTimes, hlow, ← hu.waited_succ hbusy]
      exact hnext
    · have := hbound limit ((congrArg (fun e => e.platform.busyTimeoutPolls) henv).symm.trans hlimit)
      omega

/-- A waiting command begun where rule R191 names no fault for it does its first part, waits and completes. -/
theorem execTimes_of_begins (i : Instr) {s : State} {n : Nat} {rest : List PinLevel} (hi : commandWaits i = true)
    (hw : s.wait = none) (hentry : RaisesAtEntry s i .noFault)
    (hbound : ∀ limit, s.env.platform.busyTimeoutPolls = some limit → n < limit)
    (hbusy : s.env.busyIn = List.replicate n .low ++ .high :: rest) :
    execTimes i (n + 1) s = .next ((afterWait i ((beforeWait i s).waited n rest)).complete i.lengthWords) :=
  AtWait.execTimes_eq hi (.inr ⟨hw, hentry, rfl⟩) (by rw [hw]; rfl) (m := 0) (by simpa using hbound) hbusy

/-- Settles O40: the command has no first part and no last part. -/
theorem waitCompletesAtTheFirstHigh : Obligations.WaitCompletesAtTheFirstHigh := by
  intro s n rest hw hbound hbusy
  rw [execTimes_of_begins .waitUntilIdle rfl hw rfl hbound hbusy, hw]
  rfl

end Sys2Proof.Machine
end

section
/-! SUPPORT. The panel commands with a wait, from their beginning to their completion (rules R171 to R177). -/

namespace Sys2Proof.Machine

/-- Settles O43: the pulse, the wait, no last part. -/
theorem panelResetPulsesTheResetLine : Obligations.PanelResetPulsesTheResetLine := by
  intro s n rest hw hp hbound hbusy
  rw [execTimes_of_begins .panelReset rfl hw (.inr ⟨not_not.2 hp, rfl⟩) hbound hbusy, hw]
  rfl

/-- The lines after the last three configuration commands. -/
theorem csAfter_afterPanelOnTrace (level : CsLevel) (ops : PanelOps) :
    csAfter level (afterPanelOnTrace ops) = .deasserted := by
  simp [afterPanelOnTrace]

theorem dcAfter_afterPanelOnTrace (level : DcLevel) (ops : PanelOps) :
    dcAfter level (afterPanelOnTrace ops) = if ops.payTcon = [] then .command else .data := by
  simp [afterPanelOnTrace]

theorem rstAfter_afterPanelOnTrace (level : PinLevel) (ops : PanelOps) :
    rstAfter level (afterPanelOnTrace ops) = level := by
  simp [afterPanelOnTrace]

/-- Settles O44: five panel commands, the wait, the last three. -/
theorem panelConfigureSendsTheSequence : Obligations.PanelConfigureSendsTheSequence := by
  intro s n rest hw hp hbound hbusy
  rw [execTimes_of_begins .panelConfigure rfl hw (.inr ⟨not_not.2 hp, rfl⟩) hbound hbusy, hw]
  simp only [afterWait, eventsAfterWait, State.emitAll_eq, csAfter_afterPanelOnTrace, dcAfter_afterPanelOnTrace,
    rstAfter_afterPanelOnTrace]
  rfl

/-! ## Planes -/

/-- Two full planes and the refresh trigger are five windows (rules R171, R175, R177). -/
theorem refreshTrace_eq_windowEvents (ops : PanelOps) {old new : List Byte} (ho : old.length = 4736)
    (hn : new.length = 4736) :
    refreshTrace ops old new =
      windowEvents .command [[ops.opDataTransfer1]] ++ windowEvents .data (chunksOf 1024 old) ++
        (windowEvents .command [[ops.opDataTransfer2]] ++ windowEvents .data (chunksOf 1024 new)) ++
        windowEvents .command [[ops.opDisplayRefresh]] := by
  rw [refreshTrace, planeTrace_eq_windowEvents _ ho, planeTrace_eq_windowEvents _ hn]
  rfl

theorem wire_refreshTrace (level : DcLevel) (ops : PanelOps) {old new : List Byte} (ho : old.length = 4736)
    (hn : new.length = 4736) :
    wire level (refreshTrace ops old new) =
      [⟨.command, [ops.opDataTransfer1]⟩, ⟨.data, old⟩, ⟨.command, [ops.opDataTransfer2]⟩, ⟨.data, new⟩,
       ⟨.command, [ops.opDisplayRefresh]⟩] := by
  simp [refreshTrace_eq_windowEvents ops ho hn, wire_windowEvents_append, wire_windowEvents, flatten_chunksOf]

/-- No bus write of a refresh is longer than a chunk (rules R153, R171). -/
theorem length_le_of_bus_mem_refreshTrace {ops : PanelOps} {old new bytes : List Byte} (ho : old.length = 4736)
    (hn : new.length = 4736) (h : Event.bus bytes ∈ refreshTrace ops old new) : bytes.length ≤ 1024 := by
  have chunk : ∀ {plane : List Byte}, bytes ∈ chunksOf 1024 plane → bytes.length ≤ 1024 :=
    fun hmem => (length_of_mem_chunksOf (by decide) hmem).2
  have opcode : ∀ {op : Byte}, bytes = [op] → bytes.length ≤ 1024 := fun h => by simp [h]
  simp only [refreshTrace_eq_windowEvents ops ho hn, List.mem_append, bus_mem_windowEvents, List.mem_singleton] at h
  rcases h with ((h | h) | h | h) | h
  · exact opcode h
  · exact chunk h
  · exact opcode h
  · exact chunk h
  · exact opcode h

/-- Settles O45: the planes and the refresh, the wait, no last part. -/
theorem deepCleanSendsBlackThenWhite : Obligations.DeepCleanSendsBlackThenWhite := by
  intro s n rest hw hp hbound hbusy
  refine ⟨?_, wire_refreshTrace _ _ blackPlane_length whitePlane_length,
    fun _ => length_le_of_bus_mem_refreshTrace blackPlane_length whitePlane_length⟩
  rw [execTimes_of_begins .panelDeepClean rfl hw (.inr ⟨not_not.2 hp, rfl⟩) hbound hbusy, hw]
  rfl

/-- Settles O46: the planes and the refresh, the wait, the settle delay. -/
theorem refreshSendsTheFramebuffer : Obligations.RefreshSendsTheFramebuffer := by
  intro s n rest hw hp hv hwidth hheight hbound hbusy
  refine ⟨?_, wire_refreshTrace _ _ whitePlane_length (framePlane_length s),
    fun _ => length_le_of_bus_mem_refreshTrace whitePlane_length (framePlane_length s)⟩
  have hentry : RaisesAtEntry s .panelRefresh .noFault :=
    .inr ⟨hp, .inr ⟨hv, .inr ⟨by simp [hwidth, hheight], rfl⟩⟩⟩
  rw [execTimes_of_begins .panelRefresh rfl hw hentry hbound hbusy, hw]
  rfl

end Sys2Proof.Machine
end

section
/-! SUPPORT. Every step adds framed events to the trace (rules R150, R158). -/

namespace Sys2Proof.Machine

/-- From `s` to `t` the trace grows by framed events. -/
def GrowsFramed (s t : State) : Prop :=
  ∃ es, t.trace = s.trace ++ es ∧ framed false es = true

theorem GrowsFramed.of_trace_eq {s t : State} (h : t.trace = s.trace) : GrowsFramed s t := ⟨[], by simp [h], rfl⟩

theorem GrowsFramed.trans {s t u : State} (hst : GrowsFramed s t) (htu : GrowsFramed t u) : GrowsFramed s u := by
  obtain ⟨es, ht, hes⟩ := hst
  obtain ⟨fs, hu, hfs⟩ := htu
  exact ⟨es ++ fs, by rw [hu, ht, List.append_assoc], (framed_append hes fs).trans hfs⟩

/-! ## The events of the panel commands -/

theorem framed_panelCmdTrace (op : Byte) (payload : List Byte) : framed false (panelCmdTrace op payload) = true := by
  rw [panelCmdTrace_eq_windowEvents, framed_append (framed_windowEvents _ (by simp))]
  split_ifs with h
  · rfl
  · exact framed_windowEvents _ (by simpa using h)

theorem framed_panelOnTrace (ops : PanelOps) : framed false (panelOnTrace ops) = true := by
  simp only [panelOnTrace, List.append_assoc, framed_append (framed_panelCmdTrace _ _), framed_panelCmdTrace]

theorem framed_afterPanelOnTrace (ops : PanelOps) : framed false (afterPanelOnTrace ops) = true := by
  simp only [afterPanelOnTrace, List.append_assoc, framed_append (framed_panelCmdTrace _ _), framed_panelCmdTrace]

theorem framed_chunksOf {k : Nat} (hk : 0 < k) (bytes : List Byte) :
    framed false (windowEvents .data (chunksOf k bytes)) = true :=
  framed_windowEvents _ fun _ hc => List.ne_nil_of_length_pos (length_of_mem_chunksOf hk hc).1

theorem framed_refreshTrace (ops : PanelOps) {old new : List Byte} (ho : old.length = 4736) (hn : new.length = 4736) :
    framed false (refreshTrace ops old new) = true := by
  have opcode : ∀ op, framed false (windowEvents .command [[op]]) = true := fun _ => rfl
  have plane := framed_chunksOf (k := 1024) (by decide)
  simp only [refreshTrace_eq_windowEvents ops ho hn, List.append_assoc, framed_append (opcode _),
    framed_append (plane _), opcode]

/-! ## The parts of a waiting command -/

theorem GrowsFramed.beforeWait (i : Instr) (s : State) : GrowsFramed s (beforeWait i s) := by
  cases i
  case panelReset => exact ⟨_, rfl, rfl⟩
  case panelConfigure => exact ⟨_, rfl, framed_panelOnTrace _⟩
  case panelDeepClean => exact ⟨_, rfl, framed_refreshTrace _ blackPlane_length whitePlane_length⟩
  case panelRefresh => exact ⟨_, rfl, framed_refreshTrace _ whitePlane_length (framePlane_length s)⟩
  all_goals exact .of_trace_eq rfl

theorem GrowsFramed.polled {s : State} (hpoll : 0 < s.env.platform.pollMs) : GrowsFramed s s.polled :=
  ⟨[.sleep s.env.platform.pollMs, .busyRead s.busyLevel], by rw [State.polled_eq], by simp [framed, hpoll]⟩

theorem GrowsFramed.afterWait (i : Instr) (s : State) : GrowsFramed s (afterWait i s) := by
  refine ⟨eventsAfterWait i s.env.platform.panelOps, State.emitAll_trace .., ?_⟩
  cases i
  case panelConfigure => exact framed_afterPanelOnTrace _
  all_goals rfl

theorem GrowsFramed.pollBusy {s : State} (hpoll : 0 < s.env.platform.pollMs) {after : State → State}
    (hafter : ∀ v, GrowsFramed v (after v)) : GrowsFramed s (s.pollBusy after) := by
  have hpolled := GrowsFramed.polled hpoll
  cases hl : s.busyLevel with
  | high =>
    rw [State.pollBusy_high hl]
    exact hpolled.trans (hafter _)
  | low =>
    rw [State.pollBusy_low hl]
    split_ifs
    · exact hpolled
    · exact hpolled

/-- A waiting command adds the events of its first part, its polls and its last part. -/
theorem exec_growsFramed_of_waits {i : Instr} {s t : State} (hi : commandWaits i = true)
    (hpoll : 0 < s.env.platform.pollMs) (h : exec i s = .next t) : GrowsFramed s t := by
  obtain ⟨check, -, heq⟩ := exec_eq_waitBetween hi s
  obtain rfl := Host.Outcome.next.inj (heq.symm.trans h)
  have hafter : ∀ v, GrowsFramed v ((afterWait i v).complete i.lengthWords) := GrowsFramed.afterWait i
  cases hw : s.wait with
  | some n =>
    rw [State.waitBetween_waiting hw]
    exact .pollBusy hpoll hafter
  | none =>
    by_cases hc : check = .noFault
    · subst hc
      rw [State.waitBetween_begins hw]
      exact (GrowsFramed.beforeWait i s).trans (.pollBusy (by rwa [beforeWait_env]) hafter)
    · rw [State.waitBetween_refused hw hc]
      exact .of_trace_eq rfl

/-! ## Every command -/

theorem State.render_trace (s : State) (len : Nat) (paint : Memory → Memory) :
    (s.render len paint).trace = s.trace := by
  unfold State.render
  split_ifs <;> rfl

theorem State.renderText_trace (s : State) (len : Nat) (font : Int) (chars : List Word)
    (paint : GlyphAnswer → Memory → Memory) : (s.renderText len font chars paint).trace = s.trace := by
  unfold State.renderText
  split_ifs
  · rfl
  · exact s.render_trace len _

/-- Every command adds framed events to the trace: the link and panel commands whole windows, the others nothing. -/
theorem exec_growsFramed {i : Instr} {s t : State} (hpoll : 0 < s.env.platform.pollMs) (h : exec i s = .next t) :
    GrowsFramed s t := by
  by_cases hi : commandWaits i = true
  · exact exec_growsFramed_of_waits hi hpoll h
  cases i <;> try exact absurd rfl hi
  case sendCommand opcode =>
    obtain rfl := Host.Outcome.next.inj ((sendCommandFramesItsByte s opcode).symm.trans h)
    exact ⟨_, rfl, rfl⟩
  case sendData bytes =>
    obtain rfl := Host.Outcome.next.inj ((exec_sendData s bytes).symm.trans h)
    refine ⟨_, rfl, framed_windowEvents _ ?_⟩
    split_ifs with hempty <;> simp [hempty]
  case sendDataChunked k bytes =>
    rcases lt_or_ge 0 k with hk | hk
    · obtain rfl := Host.Outcome.next.inj ((exec_sendDataChunked hk s bytes).symm.trans h)
      exact ⟨_, rfl, framed_chunksOf (by omega) bytes⟩
    · obtain rfl := Host.Outcome.next.inj h
      rw [if_pos hk]
      exact .of_trace_eq rfl
  case panelPowerDown =>
    obtain rfl := Host.Outcome.next.inj h
    split_ifs
    · exact ⟨_, State.emitAll_trace .., rfl⟩
    · exact .of_trace_eq rfl
  all_goals obtain rfl := Host.Outcome.next.inj h
  case fbCreate | getPixel =>
    split_ifs
    · exact .of_trace_eq rfl
    · exact .of_trace_eq rfl
  case drawText | drawTextScaled => exact .of_trace_eq (State.renderText_trace ..)
  case drawModuleGrid =>
    split_ifs
    · exact .of_trace_eq rfl
    · exact .of_trace_eq (State.render_trace ..)
  all_goals exact .of_trace_eq (State.render_trace ..)

theorem step_growsFramed {s t : State} (hpoll : 0 < s.env.platform.pollMs) (h : step s = .next t) : GrowsFramed s t := by
  obtain ⟨-, -, ⟨i, -, hexec⟩ | ⟨e, -, rfl⟩⟩ := step_cases h
  · exact exec_growsFramed hpoll hexec
  · exact .of_trace_eq rfl

/-- Settles O52: a step adds framed events, which close their windows, so chip-select, which follows the trace, is
deasserted again. -/
theorem stepKeepsTheLinkFramed : Obligations.StepKeepsTheLinkFramed := by
  intro s t ⟨hcs, hframed, hpoll⟩ h
  obtain ⟨-, -, hplatform, fs, htrace, hcs', -⟩ := step_frame h
  obtain ⟨es, htrace', hes⟩ := step_growsFramed hpoll h
  obtain rfl := List.append_cancel_left (htrace.symm.trans htrace')
  refine ⟨?_, ?_, hplatform ▸ hpoll⟩
  · rw [hcs', hcs]
    exact csAfter_of_framed hes
  · rw [htrace, framed_append hframed, hes]

end Sys2Proof.Machine
end

section
/-! SUPPORT. How the panel commands move `PSTATE` (rules R172 to R180). -/

namespace Sys2Proof.Machine

/-- Settles O47: the command is one window with one write; a failed entry test raises. -/
theorem powerDownSendsPowerOff : Obligations.PowerDownSendsPowerOff := by
  intro s
  constructor
  · intro hp
    have hentry : s.entryCheck [.refreshing] = .noFault := by rw [State.entryCheck_eq, hp]; rfl
    refine congrArg Host.Outcome.next ((if_pos hentry).trans ?_)
    rw [State.emitAll_eq]
    rfl
  · intro hp
    have hentry : s.entryCheck [.refreshing] ≠ .noFault := by simp [State.entryCheck_eq, hp]
    exact congrArg Host.Outcome.next (if_neg hentry)

/-! ## A command that waits -/

/-- A waiting command that begins where rule R191 names a fault for it raises that fault and does nothing else. -/
theorem exec_refused_of_waits {i : Instr} {s : State} {code : FaultCode} (hi : commandWaits i = true)
    (hw : s.wait = none) (hentry : RaisesAtEntry s i code) (hcode : code ≠ .noFault) :
    exec i s = .next (s.raise code) := by
  obtain ⟨check, hcheck, heq⟩ := exec_eq_waitBetween hi s
  obtain rfl := raisesAtEntry_unique hcheck hentry
  rw [heq, State.waitBetween_refused hw hcode]

/-- A waiting command comes to its wait, or its entry test refuses it. -/
theorem atWait_or_refused {i : Instr} (hi : commandWaits i = true) (s : State) :
    (∃ u, AtWait i s u) ∨ ∃ code, exec i s = .next (s.raise code) := by
  obtain ⟨check, hcheck, -⟩ := exec_eq_waitBetween hi s
  by_cases hw : s.wait = none
  · by_cases hc : check = .noFault
    · exact .inl ⟨_, .inr ⟨hw, hc ▸ hcheck, rfl⟩⟩
    · exact .inr ⟨check, exec_refused_of_waits hi hw hcheck hc⟩
  · exact .inl ⟨s, .inl ⟨hw, rfl⟩⟩

/-- One poll: `PSTATE` stays as the command's first part left it, or the wait is over and the command completes. -/
theorem exec_pstate_of_atWait {i : Instr} {s u t : State} (hi : commandWaits i = true) (hu : AtWait i s u)
    (h : exec i s = .next t) : t.pstate = u.pstate ∨ t.pstate = pstateAfter i s.pstate := by
  obtain rfl := Host.Outcome.next.inj ((hu.exec_eq hi).symm.trans h)
  cases hl : u.busyLevel with
  | high =>
    rw [State.pollBusy_high hl]
    exact .inr hu.pstateAfter
  | low =>
    rw [State.pollBusy_low hl]
    split_ifs
    · exact .inl rfl
    · exact .inl rfl

/-! ## The table of rule R179 -/

theorem lengthWords_pos (i : Instr) : 0 < i.lengthWords := by
  cases i <;> simp [Instr.lengthWords]

/-- A command that completes leaves `PSTATE` as its row of the table says. -/
theorem Executes.pstate_of_completes {i : Instr} {s t : State} (h : Executes i s t)
    (hcp : t.cp = s.cp + i.lengthWords) : t.pstate = pstateAfter i s.pstate := by
  have moved : t.cp ≠ s.cp := by have := lengthWords_pos i; omega
  cases h with
  | raised _ _ _ => exact absurd rfl moved
  | created hi _ => subst hi; rfl
  | looked hi => subst hi; rfl
  | drew _ _ => rfl
  | sent es => rfl
  | waited _ hu => exact hu.pstateAfter
  | gaveUp _ hu _ _ => exact absurd hu.polled_linkFrame.cp moved
  | waits _ hu _ => exact absurd hu.polled_linkFrame.cp moved

/-- Settles O48: rule R191's table names `BadState` for each of the five commands outside its entry states. -/
theorem panelStateTable : Obligations.PanelStateTable := by
  intro i s
  constructor
  · intro hw hbad
    have refused (hi : commandWaits i = true) (hentry : RaisesAtEntry s i .badState) :
        exec i s = .next { s with fault := .badState } := by
      rw [exec_refused_of_waits hi hw hentry nofun, State.raise_between hw]
    rcases hbad with ⟨rfl, hp⟩ | ⟨rfl, hp⟩ | ⟨rfl, hp⟩ | ⟨rfl, hready, hclean, hrender⟩ | ⟨rfl, hp⟩
    · exact refused rfl (.inl ⟨hp, rfl⟩)
    · exact refused rfl (.inl ⟨hp, rfl⟩)
    · exact refused rfl (.inl ⟨hp, rfl⟩)
    · exact refused rfl (.inl ⟨by simp [hready, hclean, hrender], rfl⟩)
    · rw [(powerDownSendsPowerOff s).2 hp, ← hw]
  · intro t h hcp
    rw [(executes_of_exec h).pstate_of_completes hcp]
    cases i
    case setPixel | fbFill | fillRect | drawLine | drawCircle | drawText | drawTextScaled | drawModuleGrid =>
      exact PanelState.afterRendering_eq _
    all_goals rfl

/-! ## The chain of panel states -/

/-- `PSTATE` stays, or moves along the table of rule R179. -/
def PanelStaysOrMoves (p q : PanelState) : Prop :=
  q = p ∨ PanelMove p q

theorem PanelStaysOrMoves.afterRendering (p : PanelState) : PanelStaysOrMoves p p.afterRendering := by
  cases p
  case ready | deepCleaning => exact .inr trivial
  all_goals exact .inl rfl

/-- The completion of a command without a wait, `panel_power_down` apart (rules R176, R179). -/
theorem PanelStaysOrMoves.pstateAfter_of_not_waits {i : Instr} (hi : commandWaits i = false)
    (hoff : i ≠ .panelPowerDown) (p : PanelState) : PanelStaysOrMoves p (pstateAfter i p) := by
  cases i <;> try contradiction
  case fbCreate | getPixel | sendCommand | sendData | sendDataChunked => exact .inl rfl
  all_goals exact .afterRendering p

/-- The completion of a command in a panel state it can wait in (rules R172 to R177). -/
theorem PanelStaysOrMoves.pstateAfter_of_waitsIn {i : Instr} {p : PanelState} (h : WaitsIn i p) :
    PanelStaysOrMoves p (pstateAfter i p) := by
  cases i <;> try contradiction
  case waitUntilIdle => exact .inl rfl
  case panelReset | panelConfigure | panelDeepClean => obtain rfl := h; exact .inr trivial
  case panelRefresh => rcases h with rfl | rfl | rfl <;> exact .inr trivial

/-- The first part of a command moves `PSTATE` in `panel_configure` only, from its entry state (rule R173). -/
theorem beforeWait_pstate {i : Instr} {s : State} (hentry : RaisesAtEntry s i .noFault) :
    (beforeWait i s).pstate = s.pstate ∨
      i = .panelConfigure ∧ s.pstate = .resetting ∧ (beforeWait i s).pstate = .configuring := by
  cases i
  case panelConfigure => exact .inr ⟨rfl, hentry.elim (fun bad => nomatch bad.2) fun good => not_not.1 good.1, rfl⟩
  all_goals exact .inl rfl

/-- A command that has come to its wait in a panel state it can wait in has moved `PSTATE` along the table, and so does
its completion. -/
theorem panelStaysOrMoves_of_atWait {i : Instr} {s u : State} (hu : AtWait i s u) (hwaits : WaitsIn i u.pstate) :
    PanelStaysOrMoves s.pstate u.pstate ∧ PanelStaysOrMoves s.pstate (pstateAfter i s.pstate) := by
  have kept (hp : u.pstate = s.pstate) :
      PanelStaysOrMoves s.pstate u.pstate ∧ PanelStaysOrMoves s.pstate (pstateAfter i s.pstate) :=
    ⟨.inl hp, hp ▸ .pstateAfter_of_waitsIn hwaits⟩
  rcases hu with ⟨-, rfl⟩ | ⟨-, hentry, rfl⟩
  · exact kept rfl
  · rcases beforeWait_pstate hentry with hp | ⟨rfl, hp, hu⟩
    · exact kept hp
    · rw [hp, hu]
      exact ⟨.inr trivial, .inr trivial⟩

/-- A command without a wait, `panel_power_down` apart. -/
theorem Executes.panelStaysOrMoves_of_not_waits {i : Instr} {s t : State} (h : Executes i s t)
    (hi : commandWaits i = false) (hoff : i ≠ .panelPowerDown) : PanelStaysOrMoves s.pstate t.pstate := by
  have hafter := PanelStaysOrMoves.pstateAfter_of_not_waits hi hoff s.pstate
  have no_wait {p : Prop} (hi' : commandWaits i = true) : p := nomatch hi.symm.trans hi'
  cases h with
  | raised _ _ _ => exact .inl rfl
  | created _ _ => exact .inl rfl
  | looked _ => exact .inl rfl
  | drew _ _ => exact hafter
  | sent es => exact hafter
  | waited hi' _ => exact no_wait hi'
  | gaveUp hi' _ _ _ => exact no_wait hi'
  | waits hi' _ _ => exact no_wait hi'

/-- In a consistent session every command moves `PSTATE` along the table. -/
theorem SessionOk.panelStaysOrMoves {i : Instr} {s t : State} (hs : SessionOk s) (hf : s.fault = .noFault)
    (hd : decode (s.env.stream.drop s.cp) = .ok i) (h : exec i s = .next t) : PanelStaysOrMoves s.pstate t.pstate := by
  cases hi : commandWaits i with
  | true =>
    rcases atWait_or_refused hi s with ⟨u, hu⟩ | ⟨code, hcode⟩
    · obtain ⟨hpolls, hcompletes⟩ := panelStaysOrMoves_of_atWait hu (hs.waitsIn_of_atWait hf hd hi hu)
      rcases exec_pstate_of_atWait hi hu h with hp | hp
      · exact hp ▸ hpolls
      · exact hp ▸ hcompletes
    · obtain rfl := Host.Outcome.next.inj (hcode.symm.trans h)
      exact .inl rfl
  | false =>
    by_cases hoff : i = .panelPowerDown
    · subst hoff
      obtain ⟨hsends, hraises⟩ := powerDownSendsPowerOff s
      by_cases hp : s.pstate = .refreshing
      · obtain rfl := Host.Outcome.next.inj ((hsends hp).symm.trans h)
        rw [hp]
        exact .inr trivial
      · obtain rfl := Host.Outcome.next.inj ((hraises hp).symm.trans h)
        exact .inl rfl
    · exact (executes_of_exec h).panelStaysOrMoves_of_not_waits hi hoff

/-- Settles O55: a step is a command's, or it raises `IllegalCommand`, which keeps `PSTATE`. -/
theorem panelStateMovesAlongTheChain : Obligations.PanelStateMovesAlongTheChain := by
  intro s t hs h
  obtain ⟨hf, -, ⟨i, hd, hexec⟩ | ⟨e, -, rfl⟩⟩ := step_cases h
  · exact hs.panelStaysOrMoves hf hd hexec
  · exact .inl rfl

end Sys2Proof.Machine
end

section
/-! SUPPORT. The ends of a run: a halted unit and a finished run have no step, and in every other state there is one (rules
R192, R193, R203, R227). -/

namespace Sys2Proof.Machine

theorem step_of_halted {s : State} (hf : s.fault ≠ .noFault) : step s = .fault .halted := by
  have hfetch : s.fetch = .halted := if_pos hf
  simp only [step, hfetch]

theorem step_of_ended {s : State} (hf : s.fault = .noFault) (hcp : s.cp = s.env.stream.length) :
    step s = .fault .runEnded := by
  have hfetch : s.fetch = .ended := (if_neg (not_not.2 hf)).trans (if_pos hcp)
  simp only [step, hfetch]

/-- What is found at `CP` before the end of the stream is a command, which has a meaning, or it is illegal, which is a
fault of the unit and so a next state (rules R78, R203). -/
theorem exists_step_next {s : State} (hf : s.fault = .noFault) (hcp : s.cp ≠ s.env.stream.length) :
    ∃ t, step s = .next t := by
  cases hd : decode (s.env.stream.drop s.cp) with
  | ok i =>
    obtain ⟨t, ht⟩ := exec_next i s
    exact ⟨t, (stepRunsTheDecodedCommand s i hf hd).trans ht⟩
  | error e => exact ⟨_, step_of_fetch_illegal (State.fetch_of_decode_error hf hcp hd)⟩

/-- Settles O8: the unit is halted, or at the end of the stream, or neither, and each has its own outcome. -/
theorem stepStopsOnlyHaltedOrEnded : Obligations.StepStopsOnlyHaltedOrEnded := by
  intro s
  by_cases hf : s.fault = .noFault
  · by_cases hcp : s.cp = s.env.stream.length
    · simp [step_of_ended hf hcp, hf, hcp]
    · obtain ⟨t, ht⟩ := exists_step_next hf hcp
      simp [ht, hf, hcp]
  · simp [step_of_halted hf, hf]

end Sys2Proof.Machine
end

section
/-! SUPPORT. The faults of commands: a command that begins raises the fault that rule R191's table names for it, and no
fault is raised beside the table but at the bound of a wait (rules R157, R191, R192, R194). -/

namespace Sys2Proof.Machine

/-! ## Refusals -/

/-- A test of the table that does not answer `noFault` has found its condition. -/
theorem check_found {bad good : Prop} {code f : FaultCode} (h : bad ∧ f = code ∨ good ∧ f = .noFault)
    (hf : f ≠ .noFault) : bad ∧ f = code :=
  h.resolve_right fun passed => hf passed.2

theorem State.renderText_invalid {s : State} (hv : s.fbValid = false) (len : Nat) (font : Int) (chars : List Word)
    (paint : GlyphAnswer → Memory → Memory) : s.renderText len font chars paint = s.raise .noFramebuffer := by
  simp [State.renderText, hv, State.render_invalid hv]

theorem State.renderText_malformed {s : State} (hv : s.fbValid = true) {font : Int} {chars : List Word}
    (hbad : ¬ AnswerWellFormed chars.length (s.glyphAnswer font chars)) (len : Nat)
    (paint : GlyphAnswer → Memory → Memory) : s.renderText len font chars paint = s.raise .glyphMalformed := by
  rw [← glyphAnswerWf_iff, Bool.not_eq_true] at hbad
  simp [State.renderText, hv, hbad]

section Refused

variable {s : State} {f : FaultCode} (hf : f ≠ .noFault)

include hf

/-- A rendering command raises what the table names for it (rule R105). -/
theorem State.render_refused
    (hentry : s.fbValid = false ∧ f = .noFramebuffer ∨ s.fbValid = true ∧ f = .noFault) (len : Nat)
    (paint : Memory → Memory) : s.render len paint = s.raise f := by
  obtain ⟨hv, rfl⟩ := check_found hentry hf
  exact State.render_invalid hv len paint

/-- A text command raises what the table names for it, `NoFramebuffer` first; the two text commands share one row of the
table, which reads the font and the characters only (rules R136, R191, R194). -/
theorem State.renderText_refused {font : Int} {chars : List Word}
    (hentry : RaisesAtEntry s (.drawText 0 0 font chars .black) f) (len : Nat)
    (paint : GlyphAnswer → Memory → Memory) : s.renderText len font chars paint = s.raise f := by
  rcases hentry with ⟨hv, rfl⟩ | ⟨hv, hcheck⟩
  · exact State.renderText_invalid hv len font chars paint
  · obtain ⟨hbad, rfl⟩ := check_found hcheck hf
    exact State.renderText_malformed hv hbad len paint

/-- The module grid command raises what the table names for it, `NoFramebuffer` first (rules R142, R194). -/
theorem exec_drawModuleGrid_refused {x y modulePx sideN : Int} {bits : List Byte}
    (hentry : RaisesAtEntry s (.drawModuleGrid x y modulePx sideN bits) f) :
    exec (.drawModuleGrid x y modulePx sideN bits) s = .next (s.raise f) := by
  rcases hentry with ⟨hv, rfl⟩ | ⟨hv, hcheck⟩
  · refine congrArg Host.Outcome.next ((if_neg ?_).trans (State.render_invalid hv ..))
    simp [hv]
  · obtain ⟨hbad, rfl⟩ := check_found hcheck hf
    refine congrArg Host.Outcome.next (if_pos ?_)
    rw [hv, Bool.true_and, gridUndersized_iff]
    exact hbad

/-- A command that begins where the table names a fault for it raises that fault. -/
theorem exec_refused {i : Instr} (hw : s.wait = none) (hentry : RaisesAtEntry s i f) :
    exec i s = .next (s.raise f) := by
  by_cases hi : commandWaits i = true
  · exact exec_refused_of_waits hi hw hentry hf
  cases i <;> try exact absurd rfl hi
  case fbCreate w h =>
    obtain ⟨hbad, rfl⟩ := check_found hentry hf
    exact congrArg Host.Outcome.next (if_pos ((badGeometry_iff w h).2 hbad))
  case getPixel x y =>
    obtain ⟨hv, rfl⟩ := check_found hentry hf
    exact congrArg Host.Outcome.next (if_neg (by simp [hv]))
  case setPixel | fbFill | fillRect | drawLine | drawCircle =>
    exact congrArg Host.Outcome.next (State.render_refused hf hentry _ _)
  case drawText | drawTextScaled =>
    exact congrArg Host.Outcome.next (State.renderText_refused hf hentry _ _)
  case drawModuleGrid => exact exec_drawModuleGrid_refused hf hentry
  case sendCommand | sendData => exact absurd hentry hf
  case sendDataChunked k bytes =>
    obtain ⟨hbad, rfl⟩ := check_found hentry hf
    exact congrArg Host.Outcome.next (if_pos hbad)
  case panelPowerDown =>
    obtain ⟨hp, rfl⟩ := check_found hentry hf
    exact (powerDownSendsPowerOff s).2 hp

end Refused

/-- Settles O11: between commands, a fault is all that raising it changes. -/
theorem entryFaultsArePrecise : Obligations.EntryFaultsArePrecise := by
  intro i s f hw hf hentry
  rw [exec_refused hf hw hentry, State.raise_between hw]

/-! ## The faults there are -/

/-- A poll's read is the last event it adds. -/
theorem State.polled_trace_getLast? (s : State) : s.polled.trace.getLast? = some (.busyRead s.busyLevel) := by
  simp [State.polled_eq]

theorem exists_limit_of_timedOut {p : Platform} {polls : Nat} (h : timedOut p polls = true) :
    ∃ limit, p.busyTimeoutPolls = some limit ∧ limit ≤ polls := by
  by_contra! hnone
  simp [timedOut_eq_false hnone] at h

/-- Settles O12: of what a command can do, only a refusal at its entry and the bound of its wait leave another `FAULT`. -/
theorem onlyTheTableRaisesFaults : Obligations.OnlyTheTableRaisesFaults := by
  intro i s t hf h hfault
  have kept {p : Prop} (hsame : t.fault = s.fault) : p := absurd (hsame.trans hf) hfault
  cases executes_of_exec h with
  | raised _ hentry hbegins => exact .inl ⟨hbegins, hentry⟩
  | created _ _ => exact kept rfl
  | looked _ => exact kept rfl
  | drew _ _ => exact kept rfl
  | sent es => exact kept (LinkFrame.emitAll s es).fault
  | waited _ hu => exact kept hu.afterWait_linkFrame.fault
  | @gaveUp u hi hu hlow hbound =>
    have hread : u.polled.trace.getLast? = some (.busyRead .low) := by
      rw [State.polled_trace_getLast?, State.busyLevel_congr hu.env, hlow]
    exact .inr ⟨rfl, hi, hread, exists_limit_of_timedOut hbound⟩
  | waits _ hu _ => exact kept hu.polled_linkFrame.fault

end Sys2Proof.Machine
end

section
/-! SUPPORT. The invariants hold in the reset state (rules R36, R211). -/

namespace Sys2Proof.Machine

/-- Without a framebuffer there is no byte of the picture to hold a value (rules R22, R36). -/
theorem FramebufferOk.reset : FramebufferOk State.reset := by
  have hsize : State.reset.width * State.reset.height / 8 = 0 := rfl
  refine ⟨fun _ => ⟨rfl, rfl⟩, nofun, .nil, nofun, fun a ha => ?_⟩
  exact absurd (hsize ▸ ha) a.not_lt_zero

/-- No event is framed, and the platform's poll interval, whatever it is, is positive (rules R7, R28). -/
theorem LinkOk.reset : LinkOk State.reset :=
  ⟨rfl, rfl, Nat.succ_pos Config.pollMsLessOne⟩

/-- Settles O50: reset leaves no framebuffer, no event, no wait and an unpowered panel, with `CP` at the start. -/
theorem resetMeetsTheInvariants : Obligations.ResetMeetsTheInvariants :=
  ⟨.reset, .reset, .between rfl nofun, Nat.zero_le State.reset.env.stream.length⟩

end Sys2Proof.Machine
end
